-- ==== Sys2Proof/Word.lean ====
section
/-! DEFINITION. The word types of the block: its 32-bit host words, 16-bit operands and 8-bit bytes (00_scope.md R7). -/

namespace Sys2Proof

/-- A host register, a command word, a source byte address: 32 bits (R7, R14, R70). -/
abbrev Word := BitVec 32

/-- One operand register: 16 bits (R7, R11). -/
abbrev Half := BitVec 16

/-- One source byte, one packed byte, one fill value: 8 bits (R41, R47). -/
abbrev Byte := BitVec 8

end Sys2Proof
end

