-- ==== Sys2Proof/Config.lean ====
section
/-! DEFINITION. What an implementation fixes: the panel descriptor (00_scope.md R6), and the free values, each a constant
with no body. -/

namespace Sys2Proof

/-- The two controller planes (20_memory.md R47, R51, R56). -/
inductive Plane where
  | cur
  | prev
  deriving DecidableEq, Repr

/-- The two source spaces (R40, R42). -/
inductive Space where
  | ram
  | pgm
  deriving DecidableEq, Repr

/-- The five classes of `Wait` (R47). -/
inductive WaitClass where
  | pon
  | poff
  | full
  | part
  | grey
  deriving DecidableEq, Repr

/-- The nine names of `Seq(name)` (R47, R49). -/
inductive SeqName where
  | initFull
  | initPart
  | initGrey
  | powerOn
  | powerOff
  | deepSleep
  | updateFull
  | updatePart
  | updateGrey
  deriving DecidableEq, Repr

/-- The alphabet of a `SEQ_*` list: `Cmd`, `Data` and `DataBuf` and nothing else (R49). -/
inductive SeqItem where
  | cmd (b : Byte)
  | data (b : Byte)
  | dataBuf (bytes : List Byte) (pad : Nat)
  deriving DecidableEq, Repr

/-- A window `(x, y, w, h)` of pixels, mathematical integers (R9, R47). -/
structure Rect where
  x : Int
  y : Int
  w : Int
  h : Int
  deriving DecidableEq, Repr

/-- The panel descriptor (R5, R6), every OPEN parameter. `SEQ_WINDOW` is a function of a window, held as its graph: the windows a build
lists, each with its sequence (`Machine.windowSeq`; log 3).
`PLANE_W` and `PLANE_WB` are derived (`Machine.Panel.planeW`, R91). -/
structure Panel where
  width : Nat
  height : Nat
  hasPrev : Bool
  hasReset : Bool
  powerOffForcesFull : Bool
  diffUpdate : Bool
  grey1Cur : Bool
  greyTh2 : Nat
  greyTh4 : Nat
  greyTh8 : Nat
  initFill : Byte
  tPon : Nat
  tPoff : Nat
  tFull : Nat
  tPart : Nat
  tGrey : Nat
  seqInitFull : List SeqItem
  seqInitPart : List SeqItem
  seqInitGrey : List SeqItem
  seqPowerOn : List SeqItem
  seqPowerOff : List SeqItem
  seqDeepSleep : List SeqItem
  seqUpdateFull : List SeqItem
  seqUpdatePart : List SeqItem
  seqUpdateGrey : List SeqItem
  seqWindow : List (Rect × List SeqItem)
  opPlaneCur : Byte
  opPlanePrev : Byte
  deriving DecidableEq, Repr

/-- `SEQ_WINDOW(x, y, w, h)` of a build at a window that its descriptor does not list: no value of it is known (R6, R50, R62;
log 3). -/
opaque Config.seqWindow : Panel → Rect → List SeqItem

/-- A `SEQ_*` list of the panel of `State.reset`: no source gives one (R49, D42; log 2). -/
opaque Config.seqList : SeqName → List SeqItem

/-- A timeout, in milliseconds, of the panel of `State.reset`: no source gives one (R6, R222; log 2). -/
opaque Config.timeout : WaitClass → Nat

/-- A plane-select command byte of the panel of `State.reset`: no source gives one (R51, D42; log 2). -/
opaque Config.planeOp : Plane → Byte

/-- The transport's answer to a `Wait` that `State.answers` does not list: true for timed out (R53, U10; log 6). -/
opaque Config.waitTimesOut : Nat → Bool

/-- A byte of a plane whose content is unspecified: draw, plane, byte number (R57, U7; log 12). -/
opaque Config.planeByte : Nat → Plane → Nat → Byte

/-- Which of the racing values a source read returns: draw, plane streamed, window row, byte column, pixel
(R60, U8: "any value between the old and the new byte, per read"; log 9). -/
opaque Config.racePick : Nat → Plane → Nat → Nat → Nat → Nat

/-- How far a command has run on when a register read sees it (R31: "live values"; log 8). -/
opaque Config.liveMoment : Nat → Nat

/-- The power of a controller that a timed-out `Wait` has left unspecified (R57, U2; log 12). -/
opaque Config.lostPower : Nat → Bool

/-- The deep sleep of a controller that a timed-out `Wait` has left unspecified (R57, U2; log 12). -/
opaque Config.lostSleep : Nat → Bool

/-- The panel of `State.reset`: the build that 95_test_vectors.md assumes where it says nothing else, with free values where no
source gives one (DESIGN CHOICE, unsafe only for a claim about `State.reset`; log 2). -/
def Panel.reference : Panel where
  width := 128
  height := 296
  hasPrev := true
  hasReset := true
  powerOffForcesFull := false
  diffUpdate := false
  grey1Cur := true
  greyTh2 := 2
  greyTh4 := 8
  greyTh8 := 128
  initFill := 0xFF#8
  tPon := Config.timeout .pon
  tPoff := Config.timeout .poff
  tFull := Config.timeout .full
  tPart := Config.timeout .part
  tGrey := Config.timeout .grey
  seqInitFull := Config.seqList .initFull
  seqInitPart := Config.seqList .initPart
  seqInitGrey := Config.seqList .initGrey
  seqPowerOn := Config.seqList .powerOn
  seqPowerOff := Config.seqList .powerOff
  seqDeepSleep := Config.seqList .deepSleep
  seqUpdateFull := Config.seqList .updateFull
  seqUpdatePart := Config.seqList .updatePart
  seqUpdateGrey := Config.seqList .updateGrey
  seqWindow := []
  opPlaneCur := Config.planeOp .cur
  opPlanePrev := Config.planeOp .prev

end Sys2Proof
end

