-- ==== Sys2Proof/Syntax.lean ====
section
/-! DEFINITION. The commands of the block: one constructor per row of the opcode map (30_encoding.md R73). -/

namespace Sys2Proof

/-- Source bits per pixel of a 4G command (R72). -/
inductive Bpp where
  | one
  | two
  | four
  | eight
  deriving DecidableEq, Repr

/-- The fifteen commands, each with the fields it uses (R71, R73). `inv`, `mir` and `pgm` are the bits INV, MIR and PGM;
`par` is PAR; `val` is VAL. -/
inductive Instr where
  | clrs (val : Byte)
  | wsb (val : Byte)
  | wsba (val : Byte)
  | wimg (inv mir pgm : Bool)
  | wimgp (inv mir pgm : Bool)
  | wimg4 (bpp : Bpp) (inv mir pgm : Bool)
  | wimgp4 (bpp : Bpp) (inv mir pgm : Bool)
  | dimg (inv mir pgm : Bool)
  | dimgp (inv mir pgm : Bool)
  | dimg4 (bpp : Bpp) (inv mir pgm : Bool)
  | dimgp4 (bpp : Bpp) (inv mir pgm : Bool)
  | rfsh (par : Bool)
  | rfshr
  | pwroff
  | hiber
  deriving DecidableEq, Repr

end Sys2Proof
end

