-- ==== Sys2Proof/WellFormed.lean ====
section
/-! DEFINITION. Which commands a block admits: the fields are exact by type, and a 4G command needs a previous plane
(43_write_commands.md R172). -/

namespace Sys2Proof

/-- The four 4G commands (R172). -/
def Instr.isFourGrey : Instr → Bool
  | .wimg4 .. | .wimgp4 .. | .dimg4 .. | .dimgp4 .. => true
  | .clrs _ | .wsb _ | .wsba _ | .wimg .. | .wimgp .. | .dimg .. | .dimgp .. | .rfsh _ | .rfshr | .pwroff | .hiber => false

/-- `i` is a command of a block built with `HAS_PREV = hasPrev`: on a block with one plane the 4G opcodes are reserved (R172). -/
def Instr.wf (hasPrev : Bool) (i : Instr) : Bool :=
  hasPrev || !i.isFourGrey

end Sys2Proof
end

