-- ==== Sys2Proof/Decode.lean ====
section
/-! DEFINITION. The command word (30_encoding.md): decoding, total on every word, and after it the encoder, both from the
tables R71 to R73 and R79. -/

namespace Sys2Proof

/-- A row of the opcode map matches a word: `(cw AND mask) = match` (R73). -/
def matchesRow (mask pat w : Word) : Bool :=
  w &&& mask == pat

/-- Field `OPC`, bits 7:0 (R71). -/
def opcField (w : Word) : Byte := w.extractLsb' 0 8

/-- Field `INV`, bit 8 (R71). -/
def invField (w : Word) : Bool := w.getLsbD 8

/-- Field `MIR`, bit 9 (R71). -/
def mirField (w : Word) : Bool := w.getLsbD 9

/-- Field `PGM`, bit 10 (R71). -/
def pgmField (w : Word) : Bool := w.getLsbD 10

/-- The code of field `BPP`: `bpp = 1 << BPP` (R72). -/
def bppOfCode (lo hi : Bool) : Bpp :=
  match hi, lo with
  | false, false => .one
  | false, true => .two
  | true, false => .four
  | true, true => .eight

/-- Field `BPP`, bits 12:11 (R71, R72). -/
def bppField (w : Word) : Bpp := bppOfCode (w.getLsbD 11) (w.getLsbD 12)

/-- Field `PAR`, bit 13 (R71). -/
def parField (w : Word) : Bool := w.getLsbD 13

/-- Field `VAL`, bits 23:16 (R71). -/
def valField (w : Word) : Byte := w.extractLsb' 16 8

/-- The opcode map (R73), one line per row; `none` for a reserved word (R74, R75). The rows exclude each other because `OPC` is
in every mask, so their order does not matter. -/
def decode (w : Word) : Option Instr :=
  if matchesRow 0xFF00FFFF#32 0x00000001#32 w then some (.clrs (valField w))
  else if matchesRow 0xFF00FFFF#32 0x00000002#32 w then some (.wsb (valField w))
  else if matchesRow 0xFF00FFFF#32 0x00000003#32 w then some (.wsba (valField w))
  else if matchesRow 0xFFFFF8FF#32 0x00000004#32 w then some (.wimg (invField w) (mirField w) (pgmField w))
  else if matchesRow 0xFFFFF8FF#32 0x00000005#32 w then some (.wimgp (invField w) (mirField w) (pgmField w))
  else if matchesRow 0xFFFFE0FF#32 0x00000006#32 w then some (.wimg4 (bppField w) (invField w) (mirField w) (pgmField w))
  else if matchesRow 0xFFFFE0FF#32 0x00000007#32 w then some (.wimgp4 (bppField w) (invField w) (mirField w) (pgmField w))
  else if matchesRow 0xFFFFF8FF#32 0x00000008#32 w then some (.dimg (invField w) (mirField w) (pgmField w))
  else if matchesRow 0xFFFFF8FF#32 0x00000009#32 w then some (.dimgp (invField w) (mirField w) (pgmField w))
  else if matchesRow 0xFFFFE0FF#32 0x0000000A#32 w then some (.dimg4 (bppField w) (invField w) (mirField w) (pgmField w))
  else if matchesRow 0xFFFFE0FF#32 0x0000000B#32 w then some (.dimgp4 (bppField w) (invField w) (mirField w) (pgmField w))
  else if matchesRow 0xFFFFDFFF#32 0x0000000C#32 w then some (.rfsh (parField w))
  else if matchesRow 0xFFFFFFFF#32 0x0000000D#32 w then some .rfshr
  else if matchesRow 0xFFFFFFFF#32 0x0000000E#32 w then some .pwroff
  else if matchesRow 0xFFFFFFFF#32 0x0000000F#32 w then some .hiber
  else none

/-- The command that a block with `HAS_PREV = hasPrev` reads from a word: the opcode map less the rows reserved on it (R78, R172). -/
def decodeFor (hasPrev : Bool) (w : Word) : Option Instr :=
  (decode w).filter (Instr.wf hasPrev)

/-- The host's reading of an opcode-table row: the word is the one 32-bit format of R70, bit for bit. -/
def decodeTableWord (nbits w : Nat) : Option Instr :=
  decode (BitVec.ofNat 32 (w % 2 ^ nbits))

/-- One flag bit at its place in the word. -/
def bitAt (n : Nat) (b : Bool) : Word :=
  if b then BitVec.twoPow 32 n else 0#32

/-- `flags = (INV ? 0x100 : 0) | (MIR ? 0x200 : 0) | (PGM ? 0x400 : 0)` (R79). -/
def flagBits (inv mir pgm : Bool) : Word :=
  bitAt 8 inv ||| bitAt 9 mir ||| bitAt 10 pgm

/-- `code(bpp) << 11` (R79). -/
def bppBits : Bpp → Word
  | .one => 0x0000#32
  | .two => 0x0800#32
  | .four => 0x1000#32
  | .eight => 0x1800#32

/-- `val << 16` (R79). -/
def valBits (val : Byte) : Word :=
  val.setWidth 32 <<< 16

/-- The word of a command (R79). -/
def encode : Instr → Word
  | .clrs val => 0x00000001#32 ||| valBits val
  | .wsb val => 0x00000002#32 ||| valBits val
  | .wsba val => 0x00000003#32 ||| valBits val
  | .wimg inv mir pgm => 0x00000004#32 ||| flagBits inv mir pgm
  | .wimgp inv mir pgm => 0x00000005#32 ||| flagBits inv mir pgm
  | .wimg4 bpp inv mir pgm => 0x00000006#32 ||| bppBits bpp ||| flagBits inv mir pgm
  | .wimgp4 bpp inv mir pgm => 0x00000007#32 ||| bppBits bpp ||| flagBits inv mir pgm
  | .dimg inv mir pgm => 0x00000008#32 ||| flagBits inv mir pgm
  | .dimgp inv mir pgm => 0x00000009#32 ||| flagBits inv mir pgm
  | .dimg4 bpp inv mir pgm => 0x0000000A#32 ||| bppBits bpp ||| flagBits inv mir pgm
  | .dimgp4 bpp inv mir pgm => 0x0000000B#32 ||| bppBits bpp ||| flagBits inv mir pgm
  | .rfsh par => 0x0000000C#32 ||| bitAt 13 par
  | .rfshr => 0x0000000D#32
  | .pwroff => 0x0000000E#32
  | .hiber => 0x0000000F#32

end Sys2Proof
end

