-- ==== Sys2Proof/Machine/State.lean ====
section
/-! DEFINITION. The state of the block (10_state.md), its environment as plain data (20_memory.md), the reasons a step can stop,
and block reset. -/

namespace Sys2Proof.Machine

/-- The refresh mode (R20, R130). -/
inductive Mode where
  | fullRefresh
  | fastRefresh
  | greyRefresh
  | forcedFullRefresh
  deriving DecidableEq, Repr

/-- The four sticky diagnostic flags (R17, R211). -/
structure Diag where
  drop : Bool
  timeout : Bool
  illegal : Bool
  busyWr : Bool
  deriving DecidableEq, Repr

/-- `MODE` and the five lifecycle flags, in the order 95_test_vectors.md writes them. -/
structure Life where
  mode : Mode
  powerIsOn : Bool
  hibernating : Bool
  initialWrite : Bool
  initialRefresh : Bool
  initDone : Bool
  deriving DecidableEq, Repr

/-- What a running command can change of the registers the host reads (R16, R17, R18): one moment of it (R31; log 8). -/
structure Live where
  life : Life
  diag : Diag
  xferCnt : Word
  deriving DecidableEq, Repr

/-- One event of the transport trace, at the structured level R47 recommends; `Event.expand` gives the eight primitives. -/
inductive Event where
  | seq (name : SeqName)
  | window (r : Rect)
  | planeSel (p : Plane)
  | start
  | xfer (b : Byte)
  | stop
  | wait (c : WaitClass)
  | reset
  deriving DecidableEq, Repr

/-- The transport's answer to a `Wait` (R53). -/
inductive Answer where
  | ready
  | timedOut
  deriving DecidableEq, Repr

/-- The controller as the events drive it: the reference planes of R56 and R57 and what the controller holds (R28, R130, R202). It is
no part of the block and no command reads it. -/
structure Controller where
  /-- known bytes of `PL[CUR]`, by byte number; any other byte is unspecified (R56, R57). -/
  cur : List Host.Cell
  /-- known bytes of `PL[PREV]`. -/
  prev : List Host.Cell
  /-- `(wx, wy, ww, wh)` (R56). -/
  window : Rect
  /-- `sel` (R56). -/
  sel : Plane
  /-- `n` (R56). -/
  count : Nat
  /-- the init sequence last sent and still held, none where nothing is relied on (R28, R130). -/
  loaded : Option SeqName
  /-- driving voltages on (R202). -/
  powered : Bool
  /-- in deep sleep (R202). -/
  asleep : Bool
  /-- unspecified as a whole, after a timed-out `Wait` (R57, U2; log 12) or a block reset outside R233(c) (U15; log 14); from its next event on the
  other fields say nothing of it. -/
  lost : Bool
  /-- which draw of free bytes the unspecified bytes are (the model's own; log 12). -/
  epoch : Nat
  deriving DecidableEq, Repr

/-- A byte the host stores into a source memory (R60). -/
structure HostStore where
  space : Space
  addr : Word
  byte : Byte
  deriving DecidableEq, Repr

/-- A host access that lands while a command runs (R31, R60; log 7). Registers are named by word index, byte offset `4 * word`: every
access is a whole aligned 32-bit word (R14). -/
inductive Overlap where
  | write (word : Nat) (value : Word)
  | read (word : Nat)
  | store (st : HostStore)
  deriving DecidableEq, Repr

/-- What the host does next (R8, R230; log 4). -/
inductive HostAction where
  /-- a register write; a write of `CMD` that launches a command carries the accesses that land while it runs. -/
  | write (word : Nat) (value : Word) (during : List Overlap)
  /-- a register read. -/
  | read (word : Nat)
  /-- a store into a source memory. -/
  | store (st : HostStore)
  /-- block reset between commands; `controllerToo` when the controller is brought to its power-up state as R246 asks. -/
  | blockReset (controllerToo : Bool)
  /-- a `CMD` write whose command is aborted by a block reset (R230; log 15). -/
  | abortedCommand (value : Word) (controllerToo : Bool)
  deriving DecidableEq, Repr

/-- The state. First the block's own (R10), field by field; then its environment and output, which R10 lists as no state of the block;
then the model's own fields. -/
structure State where
  /-- operand register `X` (R11). -/
  x : Half
  /-- operand register `Y` (R11). -/
  y : Half
  /-- operand register `W` (R11). -/
  w : Half
  /-- operand register `H` (R11). -/
  h : Half
  /-- operand register `XPART` (R11). -/
  xPart : Half
  /-- operand register `YPART` (R11). -/
  yPart : Half
  /-- operand register `WBITMAP` (R11). -/
  wBitmap : Half
  /-- operand register `HBITMAP` (R11). -/
  hBitmap : Half
  /-- operand register `SRC` (R11). -/
  src : Word
  /-- `CMD` (R15). -/
  cmd : Word
  /-- `MODE` (R20). -/
  mode : Mode
  /-- `power_is_on` (R21). -/
  powerIsOn : Bool
  /-- `hibernating` (R22). -/
  hibernating : Bool
  /-- `initial_write` (R23). -/
  initialWrite : Bool
  /-- `initial_refresh` (R24). -/
  initialRefresh : Bool
  /-- `init_done` (R25). -/
  initDone : Bool
  /-- `BUSY` (R26). -/
  busy : Bool
  /-- `DIAG` (R17). -/
  diag : Diag
  /-- `XFERCNT` (R18). -/
  xferCnt : Word
  /-- the panel descriptor (R5, R6): no state, written by no step (log 1). -/
  panel : Panel
  /-- source space `RAM` (R40, R41). -/
  ram : List Host.Cell
  /-- source space `PGM` (R40, R41). -/
  pgm : List Host.Cell
  /-- the transport trace `TR` (R47). -/
  trace : List Event
  /-- the reference controller (R56, R57). -/
  ctl : Controller
  /-- the answers of the transport still to come (R53; log 6). -/
  answers : List Answer
  /-- the host's actions still to come (R8; log 4). -/
  hostq : List HostAction
  /-- the host's stores that race with the running command (R60; log 9). -/
  racing : List HostStore
  /-- the moments of the running command so far, oldest first: what a read while `BUSY = 1` may see (R31; log 8). -/
  seen : List Live
  /-- the value the last host read returned (R14; log 8). -/
  rdata : Word
  /-- the counter that the free values are applied to (log 6, log 8, log 9). -/
  draws : Nat
  deriving DecidableEq, Repr

/-- The mode and flags of a state (R20 to R25). -/
def State.life (s : State) : Life :=
  ⟨s.mode, s.powerIsOn, s.hibernating, s.initialWrite, s.initialRefresh, s.initDone⟩

/-- What a read of the registers sees of a state while a command runs (R31). -/
def State.live (s : State) : Live := ⟨s.life, s.diag, s.xferCnt⟩

/-- The reasons a step stops with a fault: none. "A model needs no fault outcome for any admitted command" (R210). -/
inductive Fault where
  deriving DecidableEq, Repr

/-- The reasons a step is refused. -/
inductive Refusal where
  /-- raised by `exec` for an instruction without a meaning; no arm raises it. Safe. -/
  | notModelled (mnemonic : String)
  /-- raised by a command that packs pixels, when a byte of its read footprint has no memory behind it or lies past 2^32 - 1 (R41,
  U6). Safe: nothing can be proved of such a command. -/
  | unreadableSource
  deriving DecidableEq, Repr

/-- The controller when it has been brought to its own power-up state (R233(c)): nothing specified, nothing loaded, off, awake. The
window, selection and counter have no stated value (DESIGN CHOICE; log 12). -/
def Controller.powerUp (epoch : Nat) : Controller where
  cur := []
  prev := []
  window := ⟨0, 0, 0, 0⟩
  sel := .cur
  count := 0
  loaded := none
  powered := false
  asleep := false
  lost := false
  epoch := epoch

/-- The state right after block reset of a block built with descriptor `p` (R29, R230), with no source memory and no host action. -/
def State.resetFor (p : Panel) : State where
  x := 0
  y := 0
  w := 0
  h := 0
  xPart := 0
  yPart := 0
  wBitmap := 0
  hBitmap := 0
  src := 0
  cmd := 0
  mode := .fullRefresh
  powerIsOn := false
  hibernating := false
  initialWrite := true
  initialRefresh := true
  initDone := false
  busy := false
  diag := ⟨false, false, false, false⟩
  xferCnt := 0
  panel := p
  ram := []
  pgm := []
  trace := []
  ctl := Controller.powerUp 0
  answers := []
  hostq := []
  racing := []
  seen := []
  rdata := 0
  draws := 0

/-- The machine right after reset (R29, R230), with the panel of log 2. -/
def State.reset : State := State.resetFor Panel.reference

end Sys2Proof.Machine
end

