-- ==== Sys2Proof/Machine/Flags.lean ====
section
/-! DEFINITION. The status and diagnostic bits: `STATUS` (10_state.md R16), `DIAG` (R17) and the four `diag(F)` operations
(00_scope.md R9, 60_exceptions.md R211). -/

namespace Sys2Proof.Machine

/-- The 2-bit encoding of `MODE` (R20). -/
def Mode.code : Mode → BitVec 2
  | .fullRefresh => 0
  | .fastRefresh => 1
  | .greyRefresh => 2
  | .forcedFullRefresh => 3

/-- `STATUS`, a live view of the state fields (R16). -/
def statusWord (s : State) : Word :=
  bitAt 0 s.busy ||| (s.mode.code.setWidth 32 <<< 1) ||| bitAt 3 s.powerIsOn ||| bitAt 4 s.hibernating
    ||| bitAt 5 s.initialWrite ||| bitAt 6 s.initialRefresh ||| bitAt 7 s.initDone

/-- `DIAG` as the host reads it (R17). -/
def Diag.word (d : Diag) : Word :=
  bitAt 0 d.drop ||| bitAt 1 d.timeout ||| bitAt 2 d.illegal ||| bitAt 3 d.busyWr

/-- A host write of `v` to `DIAG`: a 1 clears its bit, a 0 leaves it (R17). -/
def Diag.clear (d : Diag) (v : Word) : Diag where
  drop := d.drop && !v.getLsbD 0
  timeout := d.timeout && !v.getLsbD 1
  illegal := d.illegal && !v.getLsbD 2
  busyWr := d.busyWr && !v.getLsbD 3

/-- `diag(DROP)` (R96, R212). -/
def setDrop (s : State) : State := { s with diag := { s.diag with drop := true } }

/-- `DIAG.TIMEOUT <- 1` (R214). -/
def setTimeout (s : State) : State := { s with diag := { s.diag with timeout := true } }

/-- `diag(ILLEGAL)` (R75, R172, R213). -/
def setIllegal (s : State) : State := { s with diag := { s.diag with illegal := true } }

/-- `DIAG.BUSYWR <- 1` (R31, R216). -/
def setBusyWr (s : State) : State := { s with diag := { s.diag with busyWr := true } }

end Sys2Proof.Machine
end

