-- ==== Sys2Proof/Machine/Operands.lean ====
section
/-! DEFINITION. The operands of the commands (30_encoding.md R76): the operand registers as integers, the `BPP` and `PGM` fields as
what they select, and the packing of two operands into a host register (10_state.md R11). -/

namespace Sys2Proof.Machine

/-- The destination rectangle `(X, Y, W, H)`, each through `sext_16` (R11, R76). -/
def State.rect (s : State) : Rect := ⟨s.x.toInt, s.y.toInt, s.w.toInt, s.h.toInt⟩

/-- A part of a bitmap as the part commands name it (R11, R93). -/
structure PartOperands where
  xp : Int
  yp : Int
  wb : Int
  hb : Int
  deriving DecidableEq, Repr

/-- `(XPART, YPART, WBITMAP, HBITMAP)`, each through `sext_16` (R11, R76). -/
def State.part (s : State) : PartOperands := ⟨s.xPart.toInt, s.yPart.toInt, s.wBitmap.toInt, s.hBitmap.toInt⟩

/-- `SRC` through `zext_32` (R11, R76). -/
def State.srcAddr (s : State) : Int := s.src.toNat

/-- The source space a command's `PGM` bit selects (R42). -/
def spaceOf (pgm : Bool) : Space := if pgm then .pgm else .ram

/-- Bits per pixel, `1 << BPP` (R72). -/
def bppBitsPer : Bpp → Nat
  | .one => 1
  | .two => 2
  | .four => 4
  | .eight => 8

/-- Pixels per byte, `8 >> BPP` (R72). -/
def pixelsPerByte : Bpp → Nat
  | .one => 8
  | .two => 4
  | .four => 2
  | .eight => 1

/-- `unit(bpp)`: 8 pixels for 1 bpp, pixels per byte for multi-bit (R97). -/
def unitOf : Bpp → Nat
  | .one => 8
  | .two => 4
  | .four => 2
  | .eight => 1

/-- Two operands in one host register, `lo` in bits 15:0 (R11). -/
def packHalves (hi lo : Half) : Word := hi ++ lo

/-- Bits 15:0 of a host register (R11). -/
def loHalf (v : Word) : Half := v.extractLsb' 0 16

/-- Bits 31:16 of a host register (R11). -/
def hiHalf (v : Word) : Half := v.extractLsb' 16 16

end Sys2Proof.Machine
end

