-- ==== Sys2Proof/Machine/Ops.lean ====
section
/-! DEFINITION. The named operations over memory and the transport port (20_memory.md): bytes at addresses in canonical form,
`MemRead` (R41), `emit` (R47), the reference controller's answer to an event (R56, R57), `wait` (R53, R214). The block takes no
exception (60_exceptions.md R210, R219): the flags of `Flags` stand in an exception's place, and there is no return (R220). -/

namespace Sys2Proof.Machine

/-- What `exec` and every meaning answer. -/
abbrev Out := Host.Outcome State Fault Refusal

/-- Go on with `k` where `o` answered a next state. -/
def andThen (o : Out) (k : State → Out) : Out :=
  match o with
  | .next s => k s
  | .fault r => .fault r
  | .refused r => .refused r

/-! ### Bytes at addresses -/

/-- The byte listed at `a`, if any. -/
def cellGet : List Host.Cell → Nat → Option Byte
  | [], _ => none
  | (k, b) :: m, a => if a = k then some b else if a < k then none else cellGet m a

/-- The list with byte `b` at `a`, addresses rising. An unlisted address reads as nothing, so no byte is ever left out. -/
def cellSet : List Host.Cell → Nat → Byte → List Host.Cell
  | [], a, b => [(a, b)]
  | (k, c) :: m, a, b => if a = k then (k, b) :: m else if a < k then (a, b) :: (k, c) :: m else (k, c) :: cellSet m a b

/-- Every address of the list lies above `lo` and addresses rise strictly. -/
def cellsAbove : Nat → List Host.Cell → Bool
  | _, [] => true
  | lo, (k, _) :: m => decide (lo < k) && cellsAbove k m

/-- The canonical form of a memory: addresses strictly rising (R41; log 10). -/
def Memory.wf : List Host.Cell → Bool
  | [] => true
  | (k, _) :: m => cellsAbove k m

/-- The memory of a source space (R40). -/
def State.memory (s : State) : Space → List Host.Cell
  | .ram => s.ram
  | .pgm => s.pgm

/-- A byte the host puts into a source memory (R60). The two spaces are two memories here, and a store reaches the one it names
(DESIGN CHOICE: whether they are one memory is left to the platform, R42, R55; log 25). -/
def hostStore (st : HostStore) (s : State) : State :=
  match st.space with
  | .ram => { s with ram := cellSet s.ram st.addr.toNat st.byte }
  | .pgm => { s with pgm := cellSet s.pgm st.addr.toNat st.byte }

/-- Which read of a command a source read is: the plane being streamed, the window row, the byte column and the pixel in the byte. Only
a racing host store makes two reads of one address differ (R60, U8). -/
structure ReadTag where
  plane : Plane
  row : Nat
  col : Nat
  pixel : Nat
  deriving DecidableEq, Repr

/-- The bytes that racing host stores put at `addr` of `space` while the command runs (R60). -/
def racersAt (s : State) (space : Space) (addr : Nat) : List Byte :=
  (s.racing.filter fun r => r.space = space ∧ r.addr.toNat = addr).map (·.byte)

/-- `MemRead(space, addr, 1)` (R41): the byte listed there; under a racing host store, the old byte or a new one (R60, U8); nothing where
no memory is behind the address or it lies past 2^32 - 1 (R41, U6). An address that lists no byte when the command begins has no old byte, and its
read is refused even where a store races with it: the spec leaves this open between R60 and R41 (DESIGN CHOICE; log 9). -/
def memRead (s : State) (space : Space) (tag : ReadTag) (addr : Int) : Option Byte :=
  if 0 ≤ addr ∧ addr < 2 ^ 32 then
    match cellGet (s.memory space) addr.toNat with
    | none => none
    | some old =>
      match racersAt s space addr.toNat with
      | [] => some old
      | b :: bs =>
        let choices := old :: b :: bs
        some (choices.getD (Config.racePick s.draws tag.plane tag.row tag.col tag.pixel % choices.length) old)
  else none

/-- All of a list of reads, or nothing when one of them failed. -/
def allSome {α : Type} : List (Option α) → Option (List α)
  | [] => some []
  | none :: _ => none
  | some a :: l =>
    match allSome l with
    | none => none
    | some as => some (a :: as)

/-! ### The panel's derived sizes (they bound the planes as well as the geometry) -/

/-- `floor8(a) = a - (a mod 8)` (R9). -/
def floor8 (a : Int) : Int := a - a % 8

/-- `ceil8(a) = floor8(a + 7)` (R9). -/
def ceil8 (a : Int) : Int := floor8 (a + 7)

/-- `floorU(a, u) = a - (a mod u)` (R9). -/
def floorU (a : Int) (u : Nat) : Int := a - a % u

/-- `PLANE_W = ceil8(WIDTH)` (R6, R91). -/
def planeW (p : Panel) : Int := ceil8 p.width

/-- `PLANE_WB = PLANE_W / 8` (R6, R91). -/
def planeWB (p : Panel) : Nat := (planeW p / 8).toNat

/-! ### The reference controller (R56, R57) -/

/-- The known bytes of a plane. -/
def Controller.plane (c : Controller) : Plane → List Host.Cell
  | .cur => c.cur
  | .prev => c.prev

/-- Set the known bytes of a plane. -/
def Controller.setPlane (c : Controller) (p : Plane) (m : List Host.Cell) : Controller :=
  match p with
  | .cur => { c with cur := m }
  | .prev => { c with prev := m }

/-- `PL[p][k]`: the byte as the events wrote it; otherwise, and in a controller that is lost, unspecified (R57; log 12). -/
def Controller.byteAt (c : Controller) (p : Plane) (k : Nat) : Byte :=
  if c.lost then Config.planeByte c.epoch p k
  else
    match cellGet (c.plane p) k with
    | some b => b
    | none => Config.planeByte c.epoch p k

/-- Every byte of both planes becomes unspecified (R57). -/
def Controller.forget (c : Controller) : Controller :=
  { c with cur := [], prev := [], epoch := c.epoch + 1 }

/-- The byte number `Xfer` number `n` of a window writes: `(wy + n div (ww/8)) * PLANE_WB + wx/8 + n mod (ww/8)` (R56). -/
def planeIndex (p : Panel) (r : Rect) (n : Nat) : Nat :=
  ((r.y + (n : Int) / (r.w / 8)) * planeWB p + r.x / 8 + (n : Int) % (r.w / 8)).toNat

/-- `Xfer(b)` at the controller (R56). -/
def Controller.xfer (p : Panel) (b : Byte) (c : Controller) : Controller :=
  let c' := if (c.count : Int) < c.window.w / 8 * c.window.h then
      c.setPlane c.sel (cellSet (c.plane c.sel) (planeIndex p c.window c.count) b)
    else c
  { c' with count := c.count + 1 }

/-- `Seq(name)` at the controller: what it then holds (R28, R130), its power (R202), deep sleep (R56, R57). On a family where power-off
loses the mode, the LUT is not trusted afterwards (R144). -/
def Controller.seq (p : Panel) (name : SeqName) (c : Controller) : Controller :=
  match name with
  | .initFull => { c with loaded := some .initFull }
  | .initPart => { c with loaded := some .initPart }
  | .initGrey => { c with loaded := some .initGrey }
  | .powerOn => { c with powered := true }
  | .powerOff => { c with powered := false, loaded := if p.powerOffForcesFull then none else c.loaded }
  | .deepSleep => { c.forget with asleep := true, loaded := none }
  | .updateFull => c
  | .updatePart => c
  | .updateGrey => c

/-- The controller after a timed-out `Wait`, unspecified as a whole (R57, U2): its bytes, its power and its sleep are free values, drawn
anew (DESIGN CHOICE; log 12), and nothing is relied on as loaded. -/
def Controller.lose (c : Controller) : Controller :=
  { c.forget with
    lost := true
    loaded := none
    powered := Config.lostPower (c.epoch + 1)
    asleep := Config.lostSleep (c.epoch + 1) }

/-- One event at the controller (R56, R57). A lost controller stays unspecified, whatever is sent to it. -/
def Controller.act (p : Panel) (c : Controller) (e : Event) : Controller :=
  if c.lost then c.lose
  else
    match e with
    | .window r => { c with window := r }
    | .planeSel q => { c with sel := q, count := 0 }
    | .xfer b => c.xfer p b
    | .seq name => c.seq p name
    | .reset => { c.forget with asleep := false, loaded := none }
    | .start => c
    | .stop => c
    | .wait _ => c

/-! ### The transport port -/

/-- The event is an `Xfer`. -/
def Event.isXfer : Event → Bool
  | .xfer _ => true
  | .seq _ | .window _ | .planeSel _ | .start | .stop | .wait _ | .reset => false

/-- One more moment of the running command: the registers as they stand (R31; log 8). -/
def note (s : State) : State := { s with seen := s.seen ++ [s.live] }

/-- The moments at which a list of events is sent, from the registers `v` on: before each event, its `Xfer`s counted one by one (R18,
R31). -/
def moments : Live → List Event → List Live
  | _, [] => []
  | v, e :: evs => v :: moments (if e.isXfer then { v with xferCnt := v.xferCnt + 1 } else v) evs

/-- `emit` of a list of events, in order (R47): each is appended to `TR`, each `Xfer` adds 1 to `XFERCNT` modulo 2^32 (R18), the
controller takes each of them in trace order (R58(d)), and a read may fall at each of them (R31). -/
def emitAll (evs : List Event) (s : State) : State :=
  { s with
    trace := s.trace ++ evs
    xferCnt := s.xferCnt + BitVec.ofNat 32 (evs.countP Event.isXfer)
    seen := s.seen ++ moments s.live evs
    ctl := evs.foldl (Controller.act s.panel) s.ctl }

/-- `emit E` (R47). -/
def emit (e : Event) (s : State) : State := emitAll [e] s

/-- The transport's next answer, and the state with it taken: the next of the list, or a free one when the list is empty (R53, U10). -/
def takeAnswer (s : State) : Bool × State :=
  match s.answers with
  | .ready :: rest => (false, { s with answers := rest })
  | .timedOut :: rest => (true, { s with answers := rest })
  | [] => (Config.waitTimesOut s.draws, { s with draws := s.draws + 1 })

/-- `wait(class)`: `Wait(class)` is emitted and one answer read; timed out sets `DIAG.TIMEOUT`, and the controller is unspecified from
then on; control continues in both cases (R9, R53, R57, R214). -/
def wait (c : WaitClass) (s : State) : State :=
  let r := takeAnswer (emit (.wait c) s)
  note { r.2 with
    diag := { r.2.diag with timeout := r.2.diag.timeout || r.1 }
    ctl := bif r.1 then r.2.ctl.lose else r.2.ctl }

/-! ### Expansion to the eight primitives (R47 to R51) -/

/-- The eight transport primitives a structured event stands for. -/
inductive Prim where
  | cmd (b : Byte)
  | data (b : Byte)
  | dataBuf (bytes : List Byte) (pad : Nat)
  | start
  | xfer (b : Byte)
  | stop
  | wait (c : WaitClass) (timeoutMs : Nat)
  | reset
  deriving DecidableEq, Repr

/-- The numeric tag of a primitive on a physical port (R48). -/
def Prim.tag : Prim → BitVec 3
  | .cmd _ => 0
  | .data _ => 1
  | .dataBuf .. => 2
  | .start => 3
  | .xfer _ => 4
  | .stop => 5
  | .wait .. => 6
  | .reset => 7

/-- The numeric code of a `Wait` class (R48). -/
def waitCode : WaitClass → BitVec 3
  | .pon => 0
  | .poff => 1
  | .full => 2
  | .part => 3
  | .grey => 4

/-- An entry of a `SEQ_*` list as a primitive (R49). -/
def primOf : SeqItem → Prim
  | .cmd b => .cmd b
  | .data b => .data b
  | .dataBuf bytes pad => .dataBuf bytes pad

/-- The descriptor's list `SEQ_<name>` (R6, R49). -/
def seqOf (p : Panel) : SeqName → List SeqItem
  | .initFull => p.seqInitFull
  | .initPart => p.seqInitPart
  | .initGrey => p.seqInitGrey
  | .powerOn => p.seqPowerOn
  | .powerOff => p.seqPowerOff
  | .deepSleep => p.seqDeepSleep
  | .updateFull => p.seqUpdateFull
  | .updatePart => p.seqUpdatePart
  | .updateGrey => p.seqUpdateGrey

/-- `OP_PLANE_CUR` or `OP_PLANE_PREV` (R6, R51). -/
def planeOpOf (p : Panel) : Plane → Byte
  | .cur => p.opPlaneCur
  | .prev => p.opPlanePrev

/-- `T_<class>` (R6, R47). -/
def timeoutOf (p : Panel) : WaitClass → Nat
  | .pon => p.tPon
  | .poff => p.tPoff
  | .full => p.tFull
  | .part => p.tPart
  | .grey => p.tGrey

/-- `SEQ_WINDOW(x, y, w, h)`: what the descriptor lists for the window, and a free value where it lists nothing (R6, R50, R62;
log 3). -/
def windowSeq (p : Panel) (r : Rect) : List SeqItem :=
  match p.seqWindow.find? fun entry => entry.1 = r with
  | some entry => entry.2
  | none => Config.seqWindow p r

/-- An event as the primitives the descriptor gives it (R47, R49, R50, R51). -/
def Event.expand (p : Panel) : Event → List Prim
  | .seq name => (seqOf p name).map primOf
  | .window r => (windowSeq p r).map primOf
  | .planeSel q => [.cmd (planeOpOf p q)]
  | .start => [.start]
  | .xfer b => [.xfer b]
  | .stop => [.stop]
  | .wait c => [.wait c (timeoutOf p c)]
  | .reset => [.reset]

/-- Everything sent over the physical port so far (R47). -/
def State.port (s : State) : List Prim := s.trace.flatMap (Event.expand s.panel)

end Sys2Proof.Machine
end

