-- ==== Sys2Proof/Machine/Geometry.lean ====
section
/-! DEFINITION. The geometry micro-operations (40_geometry.md): pure functions on mathematical integers (R90). -/

namespace Sys2Proof.Machine

/-- A non-empty result of `GeomWrite` or `GeomPart`: the aligned rectangle, what was cut off left and top, and the source descriptor
(R92, R93). -/
structure Geom where
  x1 : Int
  y1 : Int
  w1 : Int
  h1 : Int
  dx : Int
  dy : Int
  wb : Int
  hb : Int
  xs : Int
  ys : Int
  deriving DecidableEq, Repr

/-- The window of a geometry result. -/
def Geom.rect (g : Geom) : Rect := ⟨g.x1, g.y1, g.w1, g.h1⟩

/-- The common tail of R92 and R93: a source rectangle of `w` by `h` pixels that starts at `(xs, ys)` of a `wb` by `hb` bitmap, aligned
and clipped to the plane at `(x, y)`; `none` for `EMPTY`. -/
def geomPlace (p : Panel) (x y w h wb hb xs ys : Int) : Option Geom :=
  let xa := floor8 x
  let wa := ceil8 w
  let x1 := max xa 0
  let y1 := max y 0
  let xe := min (xa + wa) (planeW p)
  let ye := min (y + h) p.height
  if xe - x1 ≤ 0 ∨ ye - y1 ≤ 0 then none
  else some
    { x1 := x1, y1 := y1, w1 := xe - x1, h1 := ye - y1, dx := x1 - xa, dy := y1 - y, wb := wb, hb := hb, xs := xs, ys := ys }

/-- `GeomWrite(x, y, w, h)` (R92). -/
def geomWrite (p : Panel) (r : Rect) : Option Geom :=
  geomPlace p r.x r.y r.w r.h r.w r.h 0 0

/-- `GeomPart(x, y, w, h, xp, yp, wb, hb, u)` (R93). -/
def geomPart (p : Panel) (r : Rect) (q : PartOperands) (u : Nat) : Option Geom :=
  if q.wb ≤ 0 ∨ q.hb ≤ 0 ∨ r.w ≤ 0 ∨ r.h ≤ 0 then none
  else if q.xp < 0 ∨ q.wb ≤ q.xp ∨ q.yp < 0 ∨ q.hb ≤ q.yp then none
  else
    let xs := floorU q.xp u
    geomPlace p r.x r.y (min r.w (q.wb - xs)) (min r.h (q.hb - q.yp)) q.wb q.hb xs q.yp

/-- `GeomRefresh(x, y, w, h)` (R94). -/
def geomRefresh (p : Panel) (r : Rect) : Option Rect :=
  let x1 := max r.x 0
  let y1 := max r.y 0
  let xe := min (r.x + r.w) p.width
  let ye := min (r.y + r.h) p.height
  if xe - x1 ≤ 0 ∨ ye - y1 ≤ 0 then none
  else some ⟨floor8 x1, y1, ceil8 xe - floor8 x1, ye - y1⟩

/-- The rectangle of the whole plane, `(0, 0, PLANE_W, HEIGHT)` (R111, R190). -/
def planeRect (p : Panel) : Rect := ⟨0, 0, planeW p, p.height⟩

/-- The rectangle of the whole panel, `(0, 0, WIDTH, HEIGHT)` (R186). -/
def panelRect (p : Panel) : Rect := ⟨0, 0, p.width, p.height⟩

end Sys2Proof.Machine
end

