-- ==== Sys2Proof/Machine/Packing.lean ====
section
/-! DEFINITION. The packing micro-operations (41_packing.md): from source bytes to the byte stream of a plane. They read and write no
mode or lifecycle state. -/

namespace Sys2Proof.Machine

/-- The fields of an image command that say how its bytes are read (R71): `INV`, `MIR` and the space of `PGM`. -/
structure ReadMode where
  inv : Bool
  mir : Bool
  space : Space
  deriving DecidableEq, Repr

/-- The bytes of a window in row-major order, rows top to bottom, bytes left to right (R110); nothing when a byte cannot be read. -/
def windowBytes (g : Geom) (byteOf : Nat → Nat → Option Byte) : Option (List Byte) :=
  allSome ((List.range g.h1.toNat).flatMap fun (i : Nat) => (List.range (g.w1 / 8).toNat).map fun (jb : Nat) => byteOf i jb)

/-- The events of one plane stream: `Window, PlaneSel, Start, Xfer(b_0), ..., Xfer(b_{n-1}), End` (R52, R110). -/
def planeStream (q : Plane) (r : Rect) (bytes : List Byte) : List Event :=
  .window r :: .planeSel q :: .start :: (bytes.map .xfer ++ [.stop])

/-- `StreamPlane` with the bytes given (R110). -/
def streamPlane (q : Plane) (r : Rect) (bytes : List Byte) (s : State) : State :=
  emitAll (planeStream q r bytes) s

/-- The number of bytes of a plane, `PLANE_WB * HEIGHT` (R56, R111). -/
def planeBytes (p : Panel) : Nat := planeWB p * p.height

/-- `Fill(q, v)` (R111). -/
def fill (q : Plane) (v : Byte) (s : State) : State :=
  streamPlane q (planeRect s.panel) (List.replicate (planeBytes s.panel) v) s

/-- `SrcRow(i)` (R112). -/
def srcRow (g : Geom) (mir : Bool) (i : Nat) : Int :=
  let r := g.ys + g.dy + i
  if mir then g.hb - 1 - r else r

/-- The row stride of a source bitmap `wb` pixels wide, in bytes (R44). -/
def stride (wb : Int) (bpp : Nat) : Int := ceil8 wb / 8 * bpp

/-- The address of the byte that holds column `c` of source row `r` (R44). -/
def pixelAddr (s : State) (g : Geom) (b : Bpp) (r c : Int) : Int :=
  s.srcAddr + r * stride g.wb (bppBitsPer b) + c / pixelsPerByte b

/-- `INV` on a byte: complemented or as it is (R113, R115). -/
def applyInv (inv : Bool) (b : Byte) : Byte := if inv then ~~~b else b

/-- `MonoByte(i, jb)` (R113), read for plane `q`. -/
def monoByte (s : State) (q : Plane) (g : Geom) (m : ReadMode) (i jb : Nat) : Option Byte :=
  let r := srcRow g m.mir i
  let c := g.xs + g.dx + 8 * jb
  (memRead s m.space ⟨q, i, jb, 0⟩ (pixelAddr s g .one r c)).map (applyInv m.inv)

/-- The value at position `k` of a byte, 0 the leftmost: `(byte >> (8 - bpp*(k + 1))) AND (2^bpp - 1)` (R43, R115). -/
def byteField (b : Bpp) (byte : Byte) (k : Nat) : Nat :=
  (byte.toNat >>> (8 - bppBitsPer b * (k + 1))) % 2 ^ bppBitsPer b

/-- `PixelValue(r, c)` (R115), the read being the one `tag` names. -/
def pixelValue (s : State) (g : Geom) (b : Bpp) (m : ReadMode) (tag : ReadTag) (r c : Int) : Option Nat :=
  (memRead s m.space tag (pixelAddr s g b r c)).map fun byte =>
    byteField b (applyInv m.inv byte) (c % pixelsPerByte b).toNat

/-- The four output tones (R116). -/
inductive Tone where
  | white
  | grey1
  | grey2
  | black
  deriving DecidableEq, Repr

/-- `GREY_TH(bpp)` (R6, R116). At 1 bpp no value reaches the test, so the 1 there is never used. -/
def greyTh (p : Panel) : Bpp → Nat
  | .one => 1
  | .two => p.greyTh2
  | .four => p.greyTh4
  | .eight => p.greyTh8

/-- `Tone(v)`, tested in the order of R116. -/
def toneOf (p : Panel) (b : Bpp) (v : Nat) : Tone :=
  if v = 2 ^ bppBitsPer b - 1 then .white
  else if v = 0 then .black
  else if greyTh p b ≤ v then .grey1
  else .grey2

/-- `PlaneBit(q, tone)`, the pairing table of R117. -/
def planeBit (p : Panel) (q : Plane) (t : Tone) : Bool :=
  match t, q with
  | .white, _ => true
  | .grey1, .cur => p.grey1Cur
  | .grey1, .prev => !p.grey1Cur
  | .grey2, .cur => !p.grey1Cur
  | .grey2, .prev => p.grey1Cur
  | .black, _ => false

/-- Eight bits as a byte, the first in bit 7: `out <- (out << 1) OR bit` from 0 (R118). -/
def packBits (bits : List Bool) : Byte :=
  bits.foldl (fun out bit => (out <<< 1) ||| (BitVec.ofBool bit).setWidth 8) 0#8

/-- `GreyByte(q, i, jb)` (R118). -/
def greyByte (s : State) (q : Plane) (g : Geom) (b : Bpp) (m : ReadMode) (i jb : Nat) : Option Byte :=
  let r := srcRow g m.mir i
  (allSome ((List.range 8).map fun (k : Nat) =>
    (pixelValue s g b m ⟨q, i, jb, k⟩ r (g.xs + g.dx + 8 * jb + k)).map fun v =>
      planeBit s.panel q (toneOf s.panel b v))).map packBits

/-- The bytes `WriteMono` streams (R161). -/
def monoBytes (s : State) (q : Plane) (g : Geom) (m : ReadMode) : Option (List Byte) :=
  windowBytes g (monoByte s q g m)

/-- The bytes `WriteGrey` streams to plane `q` (R162). -/
def greyBytes (s : State) (q : Plane) (g : Geom) (b : Bpp) (m : ReadMode) : Option (List Byte) :=
  windowBytes g (greyByte s q g b m)

/-- A plane stream of an image, refused when a byte of its footprint cannot be read (R41, R121, U6). -/
def streamImage (q : Plane) (g : Geom) (bytes : Option (List Byte)) (s : State) : Out :=
  match bytes with
  | none => .refused .unreadableSource
  | some l => .next (streamPlane q g.rect l s)

/-- `WriteMono(q, g)` (R161). -/
def writeMono (q : Plane) (g : Geom) (m : ReadMode) (s : State) : Out :=
  streamImage q g (monoBytes s q g m) s

/-- `WriteGrey(g)`: current plane, then previous (R162). -/
def writeGrey (g : Geom) (b : Bpp) (m : ReadMode) (s : State) : Out :=
  andThen (streamImage .cur g (greyBytes s .cur g b m) s) fun t => streamImage .prev g (greyBytes t .prev g b m) t

end Sys2Proof.Machine
end

