-- ==== Sys2Proof/Machine/ModeMachine.lean ====
section
/-! DEFINITION. The controller-mode state machine (42_mode_machine.md) and the two refresh procedures that drive it
(44_draw_refresh_commands.md R190, R191). -/

namespace Sys2Proof.Machine

/-- `Wake()` (R131). -/
def wake (s : State) : State :=
  if s.hibernating then { emit .reset s with hibernating := false } else s

/-- The common form of the four init micro-operations (R132 to R135): wake, send the sequence, note what the controller holds. -/
def initWith (name : SeqName) (mode : Mode) (s : State) : State :=
  let t := { emit (.seq name) (wake s) with initDone := true }
  { note t with mode := mode }

/-- `InitFull()` (R132). -/
def initFull (s : State) : State := initWith .initFull .fullRefresh s

/-- `InitPart()` (R133). -/
def initPart (s : State) : State := initWith .initPart .fastRefresh s

/-- `InitGrey()` (R134). -/
def initGrey (s : State) : State := initWith .initGrey .greyRefresh s

/-- `ForceFull()` (R135). -/
def forceFull (s : State) : State := initWith .initFull .forcedFullRefresh s

/-- `EnsureInit()` (R136). -/
def ensureInit (s : State) : State := if s.initDone then s else initFull s

/-- `ModeStepFill()` (R137). -/
def modeStepFill (s : State) : State :=
  let t := ensureInit s
  match t.mode with
  | .greyRefresh => forceFull t
  | .fullRefresh | .fastRefresh | .forcedFullRefresh => t

/-- `ModeStepMono()` (R138). -/
def modeStepMono (s : State) : State :=
  let t := ensureInit s
  match t.mode with
  | .greyRefresh => forceFull t
  | .fullRefresh => initPart t
  | .fastRefresh | .forcedFullRefresh => t

/-- `ModeStepGrey()` (R139). -/
def modeStepGrey (s : State) : State := initGrey (ensureInit s)

/-- Fill the previous plane where there is one (R140, R181). -/
def fillPrev (v : Byte) (s : State) : State := if s.panel.hasPrev then fill .prev v s else s

/-- `InitialFill()` (R140). -/
def initialFill (s : State) : State :=
  if s.initialWrite then
    fillPrev s.panel.initFill (fill .cur s.panel.initFill (modeStepFill { s with initialWrite := false }))
  else s

/-- `EnsurePower()` (R143). -/
def ensurePower (s : State) : State :=
  if s.powerIsOn then s else { wait .pon (emit (.seq .powerOn) s) with powerIsOn := true }

/-- `PowerOffProc()` (R144). -/
def powerOffProc (s : State) : State :=
  if s.powerIsOn then
    let t := { wait .poff (emit (.seq .powerOff) s) with powerIsOn := false }
    if s.panel.powerOffForcesFull then
      let u := { note t with mode := .fullRefresh }
      { note u with initDone := false }
    else t
  else s

/-- The first lines of `RefreshFull()`, up to the update: init, out of fast mode, power (R190). -/
def refreshFullReady (s : State) : State :=
  let t := ensureInit s
  ensurePower (match t.mode with
    | .fastRefresh => initFull t
    | .fullRefresh | .greyRefresh | .forcedFullRefresh => t)

/-- The update of `RefreshFull()`: greyscale over the whole plane, otherwise full, which ends `forced_full_refresh` (R190). -/
def updateFull (s : State) : State :=
  match s.mode with
  | .greyRefresh => wait .grey (emitAll [.window (planeRect s.panel), .seq .updateGrey] s)
  | .fullRefresh | .fastRefresh | .forcedFullRefresh => { wait .full (emit (.seq .updateFull) s) with mode := .fullRefresh }

/-- `RefreshFull()` (R190). -/
def refreshFull (s : State) : State :=
  { note (updateFull (refreshFullReady s)) with initialRefresh := false }

/-- The lines of `RefreshRect` between its geometry and its window: init, out of full mode, power (R191). -/
def refreshRectReady (s : State) : State :=
  let t := ensureInit s
  ensurePower (match t.mode with
    | .fullRefresh => initPart t
    | .fastRefresh | .greyRefresh | .forcedFullRefresh => t)

/-- The window and update of `RefreshRect`: greyscale in `grey_refresh`, otherwise partial (R191). -/
def updateRect (r : Rect) (s : State) : State :=
  match s.mode with
  | .greyRefresh => wait .grey (emitAll [.window r, .seq .updateGrey] s)
  | .fullRefresh | .fastRefresh | .forcedFullRefresh => wait .part (emitAll [.window r, .seq .updatePart] s)

/-- A rectangle refresh is redirected to the full refresh (R191, R215). -/
def redirected (s : State) : Bool := s.initialRefresh || s.mode == .forcedFullRefresh

/-- `RefreshRect(x, y, w, h)` (R191). -/
def refreshRect (r : Rect) (s : State) : State :=
  if redirected s then refreshFull s
  else
    match geomRefresh s.panel r with
    | none => setDrop s
    | some g => updateRect g (refreshRectReady s)

end Sys2Proof.Machine
end

