-- ==== Sys2Proof/Machine/Write.lean ====
section
/-! DEFINITION. The write commands (43_write_commands.md): geometry, automatic first fill, mode step, streams, in that order (R160). -/

namespace Sys2Proof.Machine

/-- What the full-screen fill commands share: the mode step and the current plane (R163, R181). -/
def fillScreen (val : Byte) (s : State) : State :=
  fill .cur val (modeStepFill { s with initialWrite := false })

/-- `WSB val` (R163). -/
def execWsb (val : Byte) (s : State) : Out := .next (fillScreen val s)

/-- `WSBA val` (R164). -/
def execWsba (val : Byte) (s : State) : Out :=
  let t := modeStepFill s
  .next (if s.panel.hasPrev then fill .prev val t else fill .cur val t)

/-- A rectangle command on geometry result `g`: on `EMPTY` it sets `DROP` and ends (R96, R160). -/
def onGeom (g : Option Geom) (k : Geom → State → Out) (s : State) : Out :=
  match g with
  | none => .next (setDrop s)
  | some g => k g s

/-- A command that needs two planes: reserved where the block has one (R172). -/
def needsPrev (k : State → Out) (s : State) : Out :=
  if s.panel.hasPrev then k s else .next (setIllegal s)

/-- Steps (3) to (5) of a mono write (R160, R165, R166). -/
def monoWrite (m : ReadMode) (g : Geom) (s : State) : Out :=
  writeMono .cur g m (modeStepMono (initialFill s))

/-- Steps (3) to (5) of a 4G write (R160, R167, R168). -/
def greyWrite (b : Bpp) (m : ReadMode) (g : Geom) (s : State) : Out :=
  writeGrey g b m (modeStepGrey (initialFill s))

/-- The geometry of a whole-image command (R165, R167, R182, R184). -/
def imageGeom (s : State) : Option Geom := geomWrite s.panel s.rect

/-- The geometry of a part command with unit `u` (R166, R168, R183, R185). -/
def partGeom (s : State) (u : Nat) : Option Geom := geomPart s.panel s.rect s.part u

/-- `WIMG` (R165). -/
def execWimg (inv mir pgm : Bool) (s : State) : Out :=
  onGeom (imageGeom s) (monoWrite ⟨inv, mir, spaceOf pgm⟩) s

/-- `WIMGP` (R166). -/
def execWimgp (inv mir pgm : Bool) (s : State) : Out :=
  onGeom (partGeom s 8) (monoWrite ⟨inv, mir, spaceOf pgm⟩) s

/-- `WIMG4` (R167). -/
def execWimg4 (bpp : Bpp) (inv mir pgm : Bool) (s : State) : Out :=
  needsPrev (fun t => onGeom (imageGeom t) (greyWrite bpp ⟨inv, mir, spaceOf pgm⟩) t) s

/-- `WIMGP4` (R168). -/
def execWimgp4 (bpp : Bpp) (inv mir pgm : Bool) (s : State) : Out :=
  needsPrev (fun t => onGeom (partGeom t (unitOf bpp)) (greyWrite bpp ⟨inv, mir, spaceOf pgm⟩) t) s

end Sys2Proof.Machine
end

