-- ==== Sys2Proof/Machine/Draw.lean ====
section
/-! DEFINITION. The refresh and draw commands (44_draw_refresh_commands.md). -/

namespace Sys2Proof.Machine

/-- `RFSH FULL | PART` (R186). -/
def execRfsh (par : Bool) (s : State) : Out :=
  .next (if par then refreshRect (panelRect s.panel) s else refreshFull s)

/-- `RFSHR` (R187). -/
def execRfshr (s : State) : Out := .next (refreshRect s.rect s)

/-- `CLRS val` (R181). -/
def execClrs (val : Byte) (s : State) : Out :=
  .next (refreshFull (fillPrev val (fillScreen val s)))

/-- `DrawAgain(g)` (R192). -/
def drawAgain (m : ReadMode) (g : Geom) (s : State) : Out :=
  if s.panel.diffUpdate && s.panel.hasPrev then writeMono .prev g m (modeStepMono s) else .next s

/-- A mono draw on geometry result `g`: write, refresh of the rectangle as given, second write (R182, R183). -/
def monoDraw (m : ReadMode) (g : Geom) (s : State) : Out :=
  andThen (monoWrite m g s) fun t => drawAgain m g (refreshRect s.rect t)

/-- A 4G draw on geometry result `g`: write, refresh of the rectangle as given (R184, R185). -/
def greyDraw (b : Bpp) (m : ReadMode) (g : Geom) (s : State) : Out :=
  andThen (greyWrite b m g s) fun t => .next (refreshRect s.rect t)

/-- `DIMG` (R182). -/
def execDimg (inv mir pgm : Bool) (s : State) : Out :=
  onGeom (imageGeom s) (monoDraw ⟨inv, mir, spaceOf pgm⟩) s

/-- `DIMGP` (R183). -/
def execDimgp (inv mir pgm : Bool) (s : State) : Out :=
  onGeom (partGeom s 8) (monoDraw ⟨inv, mir, spaceOf pgm⟩) s

/-- `DIMG4` (R184). -/
def execDimg4 (bpp : Bpp) (inv mir pgm : Bool) (s : State) : Out :=
  needsPrev (fun t => onGeom (imageGeom t) (greyDraw bpp ⟨inv, mir, spaceOf pgm⟩) t) s

/-- `DIMGP4` (R185). -/
def execDimgp4 (bpp : Bpp) (inv mir pgm : Bool) (s : State) : Out :=
  needsPrev (fun t => onGeom (partGeom t (unitOf bpp)) (greyDraw bpp ⟨inv, mir, spaceOf pgm⟩) t) s

end Sys2Proof.Machine
end

