-- ==== Sys2Proof/Machine/Lifecycle.lean ====
section
/-! DEFINITION. The lifecycle commands (45_lifecycle_commands.md). -/

namespace Sys2Proof.Machine

/-- `PWROFF` (R200). -/
def execPwroff (s : State) : Out := .next (powerOffProc s)

/-- The deep-sleep step of `HIBER` (R201). -/
def deepSleep (s : State) : State :=
  let t := { emit (.seq .deepSleep) s with hibernating := true }
  let u := { note t with initDone := false }
  { note u with mode := .fullRefresh }

/-- `HIBER` (R201). -/
def execHiber (s : State) : Out :=
  .next (if s.hibernating then s
    else
      let t := powerOffProc s
      if s.panel.hasReset then deepSleep t else t)

end Sys2Proof.Machine
end

