-- ==== Sys2Proof/Machine/Dispatch.lean ====
section
/-! DEFINITION. One arm per command (30_encoding.md R73). -/

namespace Sys2Proof.Machine

/-- The effect of a command once it has been accepted (R78). -/
def exec (i : Instr) (s : State) : Host.Outcome State Fault Refusal :=
  match i with
  | .clrs val => Sys2Proof.Machine.execClrs val s
  | .wsb val => Sys2Proof.Machine.execWsb val s
  | .wsba val => Sys2Proof.Machine.execWsba val s
  | .wimg inv mir pgm => Sys2Proof.Machine.execWimg inv mir pgm s
  | .wimgp inv mir pgm => Sys2Proof.Machine.execWimgp inv mir pgm s
  | .wimg4 bpp inv mir pgm => Sys2Proof.Machine.execWimg4 bpp inv mir pgm s
  | .wimgp4 bpp inv mir pgm => Sys2Proof.Machine.execWimgp4 bpp inv mir pgm s
  | .dimg inv mir pgm => Sys2Proof.Machine.execDimg inv mir pgm s
  | .dimgp inv mir pgm => Sys2Proof.Machine.execDimgp inv mir pgm s
  | .dimg4 bpp inv mir pgm => Sys2Proof.Machine.execDimg4 bpp inv mir pgm s
  | .dimgp4 bpp inv mir pgm => Sys2Proof.Machine.execDimgp4 bpp inv mir pgm s
  | .rfsh par => Sys2Proof.Machine.execRfsh par s
  | .rfshr => Sys2Proof.Machine.execRfshr s
  | .pwroff => Sys2Proof.Machine.execPwroff s
  | .hiber => Sys2Proof.Machine.execHiber s

end Sys2Proof.Machine
end

