-- ==== Sys2Proof/Machine/HostPort.lean ====
section
/-! DEFINITION. The host side: the nine registers (10_state.md R14 to R19), a `CMD` write (30_encoding.md R78), accesses while `BUSY = 1`
(R31), and block reset (70_reset_and_hazards.md R230). -/

namespace Sys2Proof.Machine

/-- The host registers (R14). -/
inductive HostReg where
  | cmd
  | status
  | diag
  | src
  | xy
  | wh
  | pxy
  | bwh
  | xferCnt
  | reserved
  deriving DecidableEq, Repr

/-- The register at byte offset `4 * word`; offsets 0x24 and above are reserved (R14). -/
def regOfWord : Nat → HostReg
  | 0 => .cmd
  | 1 => .status
  | 2 => .diag
  | 3 => .src
  | 4 => .xy
  | 5 => .wh
  | 6 => .pxy
  | 7 => .bwh
  | 8 => .xferCnt
  | _ => .reserved

/-- What a register reads as (R14 to R19); a reserved offset reads as zero. -/
def readReg (r : HostReg) (s : State) : Word :=
  match r with
  | .cmd => s.cmd
  | .status => statusWord s
  | .diag => s.diag.word
  | .src => s.src
  | .xy => packHalves s.y s.x
  | .wh => packHalves s.h s.w
  | .pxy => packHalves s.yPart s.xPart
  | .bwh => packHalves s.hBitmap s.wBitmap
  | .xferCnt => s.xferCnt
  | .reserved => 0

/-- A write to a register other than `CMD` while `BUSY = 0`: operand registers take the value, `DIAG` clears, the read-only registers and
the reserved offsets ignore it (R14, R16 to R19). `CMD` is `writeCmd`. -/
def writeReg (r : HostReg) (v : Word) (s : State) : State :=
  match r with
  | .src => { s with src := v }
  | .xy => { s with x := loHalf v, y := hiHalf v }
  | .wh => { s with w := loHalf v, h := hiHalf v }
  | .pxy => { s with xPart := loHalf v, yPart := hiHalf v }
  | .bwh => { s with wBitmap := loHalf v, hBitmap := hiHalf v }
  | .diag => { s with diag := s.diag.clear v }
  | .cmd | .status | .xferCnt | .reserved => s

/-- A write while `BUSY = 1`: to any of the nine registers it only sets `BUSYWR`; a reserved offset is no register (R14, R31, R216). -/
def writeBusy (r : HostReg) (s : State) : State :=
  match r with
  | .reserved => s
  | .cmd | .status | .diag | .src | .xy | .wh | .pxy | .bwh | .xferCnt => setBusyWr s

/-- The registers at moment `v` of a command whose other registers are those of `s`: the fields a command changes as they were then, and
`BUSYWR`, which no command changes, as the host's writes have left it (R31). -/
def State.at (s : State) (v : Live) : State :=
  { s with
    mode := v.life.mode
    powerIsOn := v.life.powerIsOn
    hibernating := v.life.hibernating
    initialWrite := v.life.initialWrite
    initialRefresh := v.life.initialRefresh
    initDone := v.life.initDone
    diag := { v.diag with busyWr := s.diag.busyWr }
    xferCnt := v.xferCnt }

/-- The moments from which a read on can fall: the command has run on by a free number of moments since the last read (log 8). -/
def runOn (s : State) (ms : List Live) : List Live := ms.drop (Config.liveMoment s.draws % ms.length)

/-- The accesses that land while a command runs, in the host's order, `ms` being the moments of the command still to come (R31, R60, R216): a
write only sets `BUSYWR`, a read returns the live value of one moment, none earlier than that of a read before it, a store lands. -/
def busyAccesses (ms : List Live) (during : List Overlap) (s : State) : State :=
  match during with
  | [] => s
  | .write word _ :: rest => busyAccesses ms rest (writeBusy (regOfWord word) s)
  | .read word :: rest =>
    let now := runOn s ms
    busyAccesses now rest { s with rdata := readReg (regOfWord word) (s.at (now.headD s.live)), draws := s.draws + 1 }
  | .store st :: rest => busyAccesses ms rest (hostStore st s)

/-- The stores among the accesses that overlap a command. -/
def storesOf (during : List Overlap) : List HostStore :=
  during.filterMap fun o =>
    match o with
    | .store st => some st
    | .write .. | .read _ => none

/-- `CMD <- cw ; XFERCNT <- 0`, first of all at a `CMD` write while `BUSY = 0` (R78). -/
def storeCmd (cw : Word) (s : State) : State := { s with cmd := cw, xferCnt := 0 }

/-- `BUSY <- 1` (R78), with the host's stores that race with the command (R60). -/
def beginCommand (during : List Overlap) (s : State) : State := { s with busy := true, racing := storesOf during, seen := [] }

/-- The moments of a command that began with registers `first` and ended in `s`: its first, those it noted, its last. -/
def momentsOf (first : Live) (s : State) : List Live := first :: (s.seen ++ [s.live])

/-- The accesses that overlap the command take their effect and `BUSY <- 0` (R31, R78; log 7). -/
def endCommand (first : Live) (during : List Overlap) (s : State) : State :=
  let t := busyAccesses (momentsOf first s) during s
  { t with busy := false, racing := [], seen := [], draws := t.draws + t.racing.length }

/-- An overlapping access as an ordinary host action, for a write that launches nothing. -/
def Overlap.action : Overlap → HostAction
  | .write word value => .write word value []
  | .read word => .read word
  | .store st => .store st

/-- Accesses said to overlap a write that launches no command follow it: there is no busy period (log 7). -/
def deferAll (during : List Overlap) (s : State) : State := { s with hostq := during.map Overlap.action ++ s.hostq }

/-- `BUSY <- 1 ; execute that row's rule ; BUSY <- 0` (R78). -/
def runCommand (i : Instr) (during : List Overlap) (s : State) : Out :=
  andThen (exec i (beginCommand during s)) fun t => .next (endCommand s.live during t)

/-- A write of `CMD` while `BUSY = 0` (R78): a command runs; a reserved word sets `ILLEGAL` and nothing else happens (R74, R75, R172). -/
def writeCmd (cw : Word) (during : List Overlap) (s : State) : Out :=
  match decodeFor s.panel.hasPrev cw with
  | some i => runCommand i during (storeCmd cw s)
  | none => .next (deferAll during (setIllegal (storeCmd cw s)))

/-- A host register write; `BUSY` is examined first (R217(1)). -/
def hostWrite (word : Nat) (value : Word) (during : List Overlap) (s : State) : Out :=
  if s.busy then .next (deferAll during (writeBusy (regOfWord word) s))
  else
    match regOfWord word with
    | .cmd => writeCmd value during s
    | r => .next (deferAll during (writeReg r value s))

/-- The controller after block reset. The host may bring it to its power-up state with it (R233(c), R246). Otherwise block reset does not touch it
(R230, R232): window, selection, counter, power and sleep stay, its planes count as unspecified (R29, R57) and nothing is relied on as loaded
(R29). Where it is powered or asleep it is not in its power-up state, and nothing it does afterwards is said (R233(c), U15; log 14). -/
def Controller.afterBlockReset (controllerToo : Bool) (c : Controller) : Controller :=
  if controllerToo then Controller.powerUp (c.epoch + 1)
  else { c.forget with loaded := none, lost := c.lost || c.asleep || c.powered }

/-- Block reset (R29, R230): the block's state and trace as at reset; the descriptor and the environment are unaffected. -/
def blockReset (controllerToo : Bool) (s : State) : State :=
  { State.resetFor s.panel with
    ram := s.ram
    pgm := s.pgm
    ctl := s.ctl.afterBlockReset controllerToo
    answers := s.answers
    hostq := s.hostq
    rdata := s.rdata
    draws := s.draws }

/-- A `CMD` write whose command block reset aborts (R230): of the block nothing is left but its reset state; the controller has seen an
unknown part of the command (log 15). -/
def abortCommand (cw : Word) (controllerToo : Bool) (s : State) : State :=
  blockReset controllerToo (if !s.busy && (decodeFor s.panel.hasPrev cw).isSome then { s with ctl := s.ctl.lose } else s)

/-- One host action. -/
def hostStep (a : HostAction) (s : State) : Out :=
  match a with
  | .write word value during => hostWrite word value during s
  | .read word => .next { s with rdata := readReg (regOfWord word) s }
  | .store st => .next (hostStore st s)
  | .blockReset controllerToo => .next (blockReset controllerToo s)
  | .abortedCommand value controllerToo => .next (abortCommand value controllerToo s)

end Sys2Proof.Machine
end

