-- ==== Sys2Proof/Machine/Step.lean ====
section
/-! DEFINITION. One step of the machine: the next host action; with none, the block is idle (70_reset_and_hazards.md R231). -/

namespace Sys2Proof.Machine

/-- The block has no program counter and fetches nothing (R13): it sees one host action at a time, in the host's order, and waits where
there is none (R231; log 4). -/
def step (s : State) : Host.Outcome State Fault Refusal :=
  match s.hostq with
  | [] => .next s
  | a :: rest => hostStep a { s with hostq := rest }

/-- `s` with a write of the command word `w` to `CMD` as the host's next action, the block being idle (log 5). -/
def State.withFetchWord (s : State) (nbits w : Nat) : State :=
  { s with busy := false, hostq := .write 0 (BitVec.ofNat 32 (w % 2 ^ nbits)) [] :: s.hostq }

end Sys2Proof.Machine
end

