-- ==== Sys2Proof/Safety.lean ====
section
/-! DEFINITION. What the claims are stated in: the spec's invariants of the state (10_state.md R27, 42_mode_machine.md R130), the rules of the
transport trace (20_memory.md R50 to R54, R59), the tables of the mode machine, and the frames. -/

namespace Sys2Proof.Machine

/-! ### The descriptor, the memories, the state -/

/-- `WIDTH` and `HEIGHT` lie in 1..32767 (R6). -/
abbrev PanelOk (p : Panel) : Prop := 1 ≤ p.width ∧ p.width ≤ 32767 ∧ 1 ≤ p.height ∧ p.height ≤ 32767

/-- Both source memories are in canonical form (log 10). -/
abbrev MemoriesOk (s : State) : Prop := Memory.wf s.ram = true ∧ Memory.wf s.pgm = true

/-- Invariants (I-a), (I-b) and (I-c) of R27. -/
abbrev Coherent (s : State) : Prop :=
  (s.initDone = false → s.mode = .fullRefresh) ∧
  (s.hibernating = true → s.powerIsOn = false ∧ s.initDone = false) ∧
  (s.hibernating = true → s.panel.hasReset = true)

/-- A `RefreshFull` has completed within the trace: its update and its `Wait` stand there (R27 (I-d), R190). -/
def fullRefreshIn (p : Panel) (tr : List Event) : Prop :=
  [.seq .updateFull, .wait .full] <:+: tr ∨ [.window (planeRect p), .seq .updateGrey, .wait .grey] <:+: tr

/-- The init sequence that `MODE` says the controller holds (R130). -/
def initSeqOf : Mode → SeqName
  | .fullRefresh => .initFull
  | .fastRefresh => .initPart
  | .greyRefresh => .initGrey
  | .forcedFullRefresh => .initFull

/-- While the controller is not lost, the engine's belief about it is right: what it holds (R28, R130), its power and its sleep
(R202). -/
def BeliefRight (s : State) : Prop :=
  s.ctl.lost = false →
    s.ctl.powered = s.powerIsOn ∧ s.ctl.asleep = s.hibernating ∧
    (s.initDone = true → s.ctl.loaded = some (initSeqOf s.mode))

/-! ### The rules of the trace -/

/-- A window the engine may emit (R50). -/
abbrev WindowOk (p : Panel) (r : Rect) : Prop :=
  r.x % 8 = 0 ∧ r.w % 8 = 0 ∧ 0 ≤ r.x ∧ r.x + r.w ≤ planeW p ∧ 0 ≤ r.y ∧ r.y + r.h ≤ p.height ∧ 0 < r.w ∧ 0 < r.h

/-- Where in the transport protocol the trace stands. -/
inductive Phase where
  | idle
  /-- a window has been sent. -/
  | windowed (r : Rect)
  /-- a plane has been selected for the window. -/
  | selected (r : Rect)
  /-- inside a bracket, with so many `Xfer` still to come (R52). -/
  | streaming (left : Nat)
  /-- a sequence has been sent whose `Wait` must follow (R53, R59). -/
  | owing (c : WaitClass)
  /-- the controller has been reset and must be initialised (R131). -/
  | mustInit
  deriving DecidableEq, Repr

/-- One event of the protocol; `none` for a breach of it. Windows are valid (R50); `PlaneSel(PREV)` needs a previous plane (R51); a stream
is `Window, PlaneSel, Start`, exactly `(w/8) * h` times `Xfer`, `End` (R52); a power or update sequence is followed by its `Wait` (R53, R59);
a partial or greyscale update follows its window (R190, R191); `Reset` is followed by the full init (R54, R131). -/
def Phase.next (p : Panel) (ph : Phase) (e : Event) : Option Phase :=
  match ph, e with
  | .idle, .seq .initFull => some .idle
  | .idle, .seq .initPart => some .idle
  | .idle, .seq .initGrey => some .idle
  | .idle, .seq .deepSleep => some .idle
  | .idle, .seq .powerOn => some (.owing .pon)
  | .idle, .seq .powerOff => some (.owing .poff)
  | .idle, .seq .updateFull => some (.owing .full)
  | .idle, .window r => if WindowOk p r then some (.windowed r) else none
  | .idle, .reset => some .mustInit
  | .windowed r, .planeSel .cur => some (.selected r)
  | .windowed r, .planeSel .prev => if p.hasPrev then some (.selected r) else none
  | .windowed _, .seq .updatePart => some (.owing .part)
  | .windowed _, .seq .updateGrey => some (.owing .grey)
  | .selected r, .start => some (.streaming (r.w / 8 * r.h).toNat)
  | .streaming (n + 1), .xfer _ => some (.streaming n)
  | .streaming 0, .stop => some .idle
  | .owing c, .wait d => if c = d then some .idle else none
  | .mustInit, .seq .initFull => some .idle
  | _, _ => none

/-- Where the protocol stands after a list of events. -/
def protocolRun (p : Panel) (tr : List Event) (ph : Option Phase) : Option Phase :=
  tr.foldl (fun o e => o.bind fun q => q.next p e) ph

/-- The trace is a run of the protocol from idle to idle. -/
abbrev ProtocolOk (s : State) : Prop := protocolRun s.panel s.trace (some .idle) = some .idle

/-- What the trace alone says the controller holds and whether it is powered. -/
structure Link where
  loaded : Option SeqName
  powered : Bool
  deriving DecidableEq, Repr

/-- One event at the link; `none` for an update that the controller is not ready for: without power (R143), or with another LUT than
the update's (R130, R190, R191, R244(a)). -/
def Link.next (p : Panel) (l : Link) (e : Event) : Option Link :=
  match e with
  | .seq .initFull => some { l with loaded := some .initFull }
  | .seq .initPart => some { l with loaded := some .initPart }
  | .seq .initGrey => some { l with loaded := some .initGrey }
  | .seq .powerOn => some { l with powered := true }
  | .seq .powerOff => some ⟨if p.powerOffForcesFull then none else l.loaded, false⟩
  | .seq .deepSleep => some { l with loaded := none }
  | .reset => some { l with loaded := none }
  | .seq .updateFull => if l = ⟨some .initFull, true⟩ then some l else none
  | .seq .updatePart => if l = ⟨some .initPart, true⟩ then some l else none
  | .seq .updateGrey => if l = ⟨some .initGrey, true⟩ then some l else none
  | .window _ | .planeSel _ | .start | .xfer _ | .stop | .wait _ => some l

/-- The link after a list of events. -/
def linkRun (p : Panel) (tr : List Event) (l : Option Link) : Option Link :=
  tr.foldl (fun o e => o.bind fun q => q.next p e) l

/-- Every update in the trace found the controller powered and holding its LUT, and the state agrees with the trace on both. -/
def UpdatesOk (s : State) : Prop :=
  ∃ l, linkRun s.panel s.trace (some ⟨none, false⟩) = some l ∧ l.powered = s.powerIsOn ∧
    (s.initDone = true → l.loaded = some (initSeqOf s.mode))

/-! ### The tables of the mode machine, under R27 -/

/-- What `EnsureInit` sends (R131, R132, R136). -/
def ensureEvents (l : Life) : List Event :=
  if l.initDone then [] else if l.hibernating then [.reset, .seq .initFull] else [.seq .initFull]

/-- `ModeStepFill` by `MODE`: what it sends after `EnsureInit`, and `MODE` after it (R137, R141). -/
def fillTable : Mode → List Event × Mode
  | .fullRefresh => ([], .fullRefresh)
  | .fastRefresh => ([], .fastRefresh)
  | .greyRefresh => ([.seq .initFull], .forcedFullRefresh)
  | .forcedFullRefresh => ([], .forcedFullRefresh)

/-- `ModeStepMono` by `MODE` (R138, R141). -/
def monoTable : Mode → List Event × Mode
  | .fullRefresh => ([.seq .initPart], .fastRefresh)
  | .fastRefresh => ([], .fastRefresh)
  | .greyRefresh => ([.seq .initFull], .forcedFullRefresh)
  | .forcedFullRefresh => ([], .forcedFullRefresh)

/-- The events of a fill of plane `q` with byte `v`, over the whole plane (R111). -/
def fillEvents (p : Panel) (q : Plane) (v : Byte) : List Event :=
  planeStream q (planeRect p) (List.replicate (planeBytes p) v)

/-- The fills of `InitialFill` and `CLRS`: current plane, and previous where there is one (R140, R181). -/
def bothFills (p : Panel) (v : Byte) : List Event :=
  fillEvents p .cur v ++ (if p.hasPrev then fillEvents p .prev v else [])

/-- Everything a rectangle write sends before its mode step: the controller's init where it is due, and the automatic first fill (R136,
R140). -/
def preludeEvents (p : Panel) (l : Life) : List Event :=
  ensureEvents l ++ (if l.initialWrite then (fillTable l.mode).1 ++ bothFills p p.initFill else [])

/-- `MODE` at the mode step of a rectangle write (R140, R141). -/
def preludeMode (l : Life) : Mode := if l.initialWrite then (fillTable l.mode).2 else l.mode

/-- Everything a mono rectangle write sends before its stream (R138, R160). -/
def monoLead (p : Panel) (l : Life) : List Event := preludeEvents p l ++ (monoTable (preludeMode l)).1

/-- Mode and flags after a mono rectangle write (R138, R160, R165). -/
def monoLife (l : Life) : Life :=
  ⟨(monoTable (preludeMode l)).2, l.powerIsOn, false, false, l.initialRefresh, true⟩

/-- Everything a 4G write sends before its streams (R139, R160). -/
def greyLead (p : Panel) (l : Life) : List Event := preludeEvents p l ++ [.seq .initGrey]

/-- Mode and flags after a 4G write (R139, R160, R167). -/
def greyLife (l : Life) : Life := ⟨.greyRefresh, l.powerIsOn, false, false, l.initialRefresh, true⟩

/-- What `EnsurePower` sends (R143). -/
def powerEvents (l : Life) : List Event := if l.powerIsOn then [] else [.seq .powerOn, .wait .pon]

/-- `RefreshFull` by `MODE`: what it sends after `EnsureInit` and before `EnsurePower`, what after, and `MODE` after it (R190, R141). -/
def fullTable (p : Panel) : Mode → List Event × List Event × Mode
  | .fullRefresh => ([], [.seq .updateFull, .wait .full], .fullRefresh)
  | .fastRefresh => ([.seq .initFull], [.seq .updateFull, .wait .full], .fullRefresh)
  | .greyRefresh => ([], [.window (planeRect p), .seq .updateGrey, .wait .grey], .greyRefresh)
  | .forcedFullRefresh => ([], [.seq .updateFull, .wait .full], .fullRefresh)

/-- All that `RefreshFull` sends (R190). -/
def fullEvents (p : Panel) (l : Life) : List Event :=
  ensureEvents l ++ (fullTable p l.mode).1 ++ powerEvents l ++ (fullTable p l.mode).2.1

/-- Mode and flags after `RefreshFull` (R190). -/
def fullLife (p : Panel) (l : Life) : Life := ⟨(fullTable p l.mode).2.2, true, false, l.initialWrite, false, true⟩

/-- `RefreshRect` by `MODE`, where it is not redirected: what it sends after `EnsureInit` and before `EnsurePower`, what after its window,
and `MODE` after it (R191, R141). -/
def rectTable : Mode → List Event × List Event × Mode
  | .fullRefresh => ([.seq .initPart], [.seq .updatePart, .wait .part], .fastRefresh)
  | .fastRefresh => ([], [.seq .updatePart, .wait .part], .fastRefresh)
  | .greyRefresh => ([], [.seq .updateGrey, .wait .grey], .greyRefresh)
  | .forcedFullRefresh => ([], [.seq .updatePart, .wait .part], .forcedFullRefresh)

/-- All that `RefreshRect` sends for the window `g`, where it is not redirected (R191). -/
def rectEvents (l : Life) (g : Rect) : List Event :=
  ensureEvents l ++ (rectTable l.mode).1 ++ powerEvents l ++ .window g :: (rectTable l.mode).2.1

/-- The lifecycle redirect is due (R191, R215). -/
def redirectDue (l : Life) : Bool := l.initialRefresh || l.mode == .forcedFullRefresh

/-- All that `RefreshRect` sends (R191). -/
def refreshEvents (p : Panel) (l : Life) (r : Rect) : List Event :=
  if redirectDue l then fullEvents p l
  else
    match geomRefresh p r with
    | none => []
    | some g => rectEvents l g

/-- Mode and flags after `RefreshRect` (R191). -/
def refreshLife (p : Panel) (l : Life) (r : Rect) : Life :=
  if redirectDue l then fullLife p l
  else
    match geomRefresh p r with
    | none => l
    | some _ => ⟨(rectTable l.mode).2.2, true, false, l.initialWrite, l.initialRefresh, true⟩

/-- `RefreshRect` sets `DROP` (R191, R212). -/
def refreshDrops (p : Panel) (l : Life) (r : Rect) : Bool := !redirectDue l && (geomRefresh p r).isNone

/-- What `PowerOffProc` sends (R144). -/
def powerOffEvents (l : Life) : List Event := if l.powerIsOn then [.seq .powerOff, .wait .poff] else []

/-- Mode and flags after `PowerOffProc` (R144). -/
def powerOffLife (p : Panel) (l : Life) : Life :=
  if l.powerIsOn then
    if p.powerOffForcesFull then { l with powerIsOn := false, mode := .fullRefresh, initDone := false }
    else { l with powerIsOn := false }
  else l

/-! ### Pixels, as the packing rules compute them from the source memory -/

/-- The byte listed at an address of a source space; 0 where there is none, which `Readable` rules out. -/
def sourceByte (s : State) (sp : Space) (a : Int) : Byte := (cellGet (s.memory sp) a.toNat).getD 0

/-- The read footprint of a write is readable: every byte `SRC + r * stride + q` of it has memory behind it and lies below 2^32
(R121, R242). -/
def Readable (s : State) (sp : Space) (g : Geom) (mir : Bool) (b : Bpp) : Prop :=
  ∀ i : Nat, (i : Int) < g.h1 → ∀ q : Int,
    (g.xs + g.dx) / pixelsPerByte b ≤ q → q ≤ (g.xs + g.dx + g.w1 - 1) / pixelsPerByte b →
      let a := s.srcAddr + srcRow g mir i * stride g.wb (bppBitsPer b) + q
      0 ≤ a ∧ a < 2 ^ 32 ∧ (cellGet (s.memory sp) a.toNat).isSome = true

/-- The bytes of a mono write, row-major: the source byte of the row `SrcRow(i)`, complemented under `INV` (R112, R113). -/
def monoPixels (s : State) (m : ReadMode) (g : Geom) : List Byte :=
  (List.range g.h1.toNat).flatMap fun (i : Nat) => (List.range (g.w1 / 8).toNat).map fun (jb : Nat) =>
    applyInv m.inv (sourceByte s m.space (s.srcAddr + srcRow g m.mir i * stride g.wb 1 + (g.xs + g.dx + 8 * jb) / 8))

/-- The tone of the source pixel in row `r` and column `c` (R115, R116). -/
def sourceTone (s : State) (b : Bpp) (m : ReadMode) (g : Geom) (r c : Int) : Tone :=
  toneOf s.panel b (byteField b
    (applyInv m.inv (sourceByte s m.space (s.srcAddr + r * stride g.wb (bppBitsPer b) + c / pixelsPerByte b)))
    (c % pixelsPerByte b).toNat)

/-- The bytes of a 4G write for plane `q`, row-major, the leftmost of eight pixels in bit 7 (R117, R118). -/
def greyPixels (s : State) (q : Plane) (b : Bpp) (m : ReadMode) (g : Geom) : List Byte :=
  (List.range g.h1.toNat).flatMap fun (i : Nat) => (List.range (g.w1 / 8).toNat).map fun (jb : Nat) =>
    packBits ((List.range 8).map fun (k : Nat) => planeBit s.panel q (sourceTone s b m g (srcRow g m.mir i) (g.xs + g.dx + 8 * jb + k)))

/-! ### Frames -/

/-- What no command touches: the operand registers and `CMD` (R12, R15), the descriptor (R5), every byte of both source memories (R9,
R41), `BUSY`, and the host's side of the model. -/
structure SameHostSide (s t : State) : Prop where
  x : t.x = s.x
  y : t.y = s.y
  w : t.w = s.w
  h : t.h = s.h
  xPart : t.xPart = s.xPart
  yPart : t.yPart = s.yPart
  wBitmap : t.wBitmap = s.wBitmap
  hBitmap : t.hBitmap = s.hBitmap
  src : t.src = s.src
  cmd : t.cmd = s.cmd
  busy : t.busy = s.busy
  panel : t.panel = s.panel
  ram : t.ram = s.ram
  pgm : t.pgm = s.pgm
  hostq : t.hostq = s.hostq
  racing : t.racing = s.racing
  rdata : t.rdata = s.rdata

/-- The event is a `Wait`. -/
def Event.isWait : Event → Bool
  | .wait _ => true
  | .seq _ | .window _ | .planeSel _ | .start | .xfer _ | .stop | .reset => false

/-- `n` `Wait`s were answered, and of `DIAG` they can have changed nothing but `TIMEOUT` (R214): where the transport's answers are listed they
are taken in order, and `TIMEOUT` is set when one of them was timed out. -/
structure Waited (n : Nat) (s t : State) : Prop where
  illegal : t.diag.illegal = s.diag.illegal
  busyWr : t.diag.busyWr = s.diag.busyWr
  sticky : s.diag.timeout = true → t.diag.timeout = true
  listed : n ≤ s.answers.length →
    t.answers = s.answers.drop n ∧ t.draws = s.draws ∧
    t.diag.timeout = (s.diag.timeout || (s.answers.take n).any (· == .timedOut))

/-- What a command does besides its mode and flags: the frame; the trace grows by exactly `evs`, and `XFERCNT` by the number of `Xfer` among
them, modulo 2^32 (R18, R47); its `Wait`s are answered (R53, R214); `DROP` is set when `dropped` (R212) and not changed otherwise; and the
controller has taken exactly these events, where it is not lost afterwards, and where nothing was waited for (R56, R57, R58(d)). -/
structure Did (evs : List Event) (dropped : Bool) (s t : State) : Prop where
  host : SameHostSide s t
  trace : t.trace = s.trace ++ evs
  count : t.xferCnt = s.xferCnt + BitVec.ofNat 32 (evs.countP Event.isXfer)
  drop : t.diag.drop = (s.diag.drop || dropped)
  waits : Waited (evs.countP Event.isWait) s t
  planes : t.ctl.lost = false → s.ctl.lost = false ∧ t.ctl = evs.foldl (Controller.act s.panel) s.ctl
  unwaited : evs.countP Event.isWait = 0 → t.ctl = evs.foldl (Controller.act s.panel) s.ctl

/-- `i` completes at `s`: `exec` answers a next state, having sent exactly `evs`, with the mode and flags `l`. -/
def Completes (i : Instr) (s : State) (evs : List Event) (dropped : Bool) (l : Life) : Prop :=
  ∃ t, exec i s = .next t ∧ Did evs dropped s t ∧ t.life = l

/-! ### The second write of a mono draw -/

/-- What `DrawAgain` sends, `stream` being the image stream to the previous plane (R192). -/
def againEvents (p : Panel) (l : Life) (stream : List Event) : List Event :=
  if p.diffUpdate && p.hasPrev then (monoTable l.mode).1 ++ stream else []

/-- Mode and flags after `DrawAgain` (R192). -/
def againLife (p : Panel) (l : Life) : Life :=
  if p.diffUpdate && p.hasPrev then { l with mode := (monoTable l.mode).2 } else l

/-- What `HIBER` sends (R201). -/
def hiberEvents (p : Panel) (l : Life) : List Event :=
  if l.hibernating then [] else powerOffEvents l ++ (if p.hasReset then [.seq .deepSleep] else [])

/-- Mode and flags after `HIBER` (R201). -/
def hiberLife (p : Panel) (l : Life) : Life :=
  if l.hibernating then l
  else if p.hasReset then ⟨.fullRefresh, false, true, l.initialWrite, l.initialRefresh, false⟩
  else powerOffLife p l

/-! ### What a command reads -/

/-- What an image command packs: where, how its bytes are read, at how many bits per pixel. -/
structure Picture where
  geom : Geom
  read : ReadMode
  bpp : Bpp
  deriving DecidableEq, Repr

/-- The picture of a command, none for a command that packs no pixels: an `EMPTY` rectangle (R96), a 4G command without a previous
plane (R172), a command without a bitmap (R76). -/
def pictureOf (i : Instr) (s : State) : Option Picture :=
  match i with
  | .wimg inv mir pgm | .dimg inv mir pgm => (imageGeom s).map fun g => ⟨g, ⟨inv, mir, spaceOf pgm⟩, .one⟩
  | .wimgp inv mir pgm | .dimgp inv mir pgm => (partGeom s 8).map fun g => ⟨g, ⟨inv, mir, spaceOf pgm⟩, .one⟩
  | .wimg4 b inv mir pgm | .dimg4 b inv mir pgm =>
    if s.panel.hasPrev then (imageGeom s).map fun g => ⟨g, ⟨inv, mir, spaceOf pgm⟩, b⟩ else none
  | .wimgp4 b inv mir pgm | .dimgp4 b inv mir pgm =>
    if s.panel.hasPrev then (partGeom s (unitOf b)).map fun g => ⟨g, ⟨inv, mir, spaceOf pgm⟩, b⟩ else none
  | .clrs _ | .wsb _ | .wsba _ | .rfsh _ | .rfshr | .pwroff | .hiber => none

/-- Every byte the picture needs can be read (R121). -/
def Picture.Readable (c : Picture) (s : State) : Prop := Machine.Readable s c.read.space c.geom c.read.mir c.bpp

/-- The command reads `X`, `Y`, `W`, `H` (R76). -/
def usesRect : Instr → Bool
  | .wimg .. | .wimgp .. | .wimg4 .. | .wimgp4 .. | .dimg .. | .dimgp .. | .dimg4 .. | .dimgp4 .. | .rfshr => true
  | .clrs _ | .wsb _ | .wsba _ | .rfsh _ | .pwroff | .hiber => false

/-- The command reads `SRC` and a source memory (R40, R76). -/
def usesSource : Instr → Bool
  | .wimg .. | .wimgp .. | .wimg4 .. | .wimgp4 .. | .dimg .. | .dimgp .. | .dimg4 .. | .dimgp4 .. => true
  | .clrs _ | .wsb _ | .wsba _ | .rfsh _ | .rfshr | .pwroff | .hiber => false

/-- The command reads `XPART`, `YPART`, `WBITMAP`, `HBITMAP` (R76). -/
def usesPart : Instr → Bool
  | .wimgp .. | .wimgp4 .. | .dimgp .. | .dimgp4 .. => true
  | .clrs _ | .wsb _ | .wsba _ | .wimg .. | .wimg4 .. | .dimg .. | .dimg4 .. | .rfsh _ | .rfshr | .pwroff | .hiber => false

/-- Two states in which a command finds the same descriptor, mode and flags, operands it uses and source memory, and no host store races
with it (R8, R12, R76). -/
structure SameInputs (i : Instr) (s t : State) : Prop where
  panel : t.panel = s.panel
  life : t.life = s.life
  rect : usesRect i = true → t.rect = s.rect
  part : usesPart i = true → t.part = s.part
  src : usesSource i = true → t.src = s.src
  ram : usesSource i = true → t.ram = s.ram
  pgm : usesSource i = true → t.pgm = s.pgm
  quiet : s.racing = []
  quiet' : t.racing = []

/-! ### Reserved words -/

/-- The bits of the fields a command uses, `OPC` among them, by opcode (R71, R73). -/
def usedBits (opc : Byte) : Word :=
  match opc.toNat with
  | 0x01 | 0x02 | 0x03 => 0x00FF00FF#32
  | 0x04 | 0x05 | 0x08 | 0x09 => 0x000007FF#32
  | 0x06 | 0x07 | 0x0A | 0x0B => 0x00001FFF#32
  | 0x0C => 0x000020FF#32
  | 0x0D | 0x0E | 0x0F => 0x000000FF#32
  | _ => 0#32

/-- A reserved command word: no opcode (R75), a 1 outside the command's used fields (R74), a 4G opcode on a block with one plane
(R172). -/
def ReservedWord (hasPrev : Bool) (w : Word) : Prop :=
  let opc := w.extractLsb' 0 8
  opc.toNat = 0 ∨ 0x10 ≤ opc.toNat ∨ w &&& ~~~usedBits opc ≠ 0#32 ∨
    (hasPrev = false ∧ (opc = 0x06#8 ∨ opc = 0x07#8 ∨ opc = 0x0A#8 ∨ opc = 0x0B#8))

/-! ### Transformations of a state, for claims that compare two runs -/

/-- `f` on the next state. -/
def mapNext (f : State → State) : Out → Out
  | .next s => .next (f s)
  | .fault r => .fault r
  | .refused r => .refused r

/-- The other source space. -/
def otherSpace : Space → Space
  | .ram => .pgm
  | .pgm => .ram

/-- The state with the contents of the two source memories exchanged. -/
def State.swapSpaces (s : State) : State :=
  { s with ram := s.pgm, pgm := s.ram, racing := s.racing.map fun r => { r with space := otherSpace r.space } }

/-- The state with every byte of both source memories complemented (R114). -/
def State.complementSource (s : State) : State :=
  { s with
    ram := s.ram.map fun c => (c.1, ~~~c.2)
    pgm := s.pgm.map fun c => (c.1, ~~~c.2)
    racing := s.racing.map fun r => { r with byte := ~~~r.byte } }

/-- A partial update in the trace always follows a full refresh (R191, R244(a)). -/
def PartialAfterFull (p : Panel) (tr : List Event) : Prop :=
  ∀ before after, tr = before ++ .seq .updatePart :: after → fullRefreshIn p before

/-! ### The planes as a stream leaves them (R56) -/

/-- The byte number of byte column `col` of row `row` of a window: `(row * PLANE_WB + col8)` of the plane (R56). -/
def planeNo (p : Panel) (r : Rect) (row col : Nat) : Nat := (r.y.toNat + row) * planeWB p + (r.x / 8).toNat + col

/-- Plane `q` of `c'` holds `bytes`, row-major, in window `r`, and everywhere else what it holds in `c`. -/
def Lands (p : Panel) (q : Plane) (r : Rect) (bytes : List Byte) (c c' : Controller) : Prop :=
  (∀ row col : Nat, row < r.h.toNat → col < (r.w / 8).toNat →
    c'.byteAt q (planeNo p r row col) = bytes.getD (row * (r.w / 8).toNat + col) 0) ∧
  ∀ k : Nat, (∀ row col : Nat, row < r.h.toNat → col < (r.w / 8).toNat → k ≠ planeNo p r row col) → c'.byteAt q k = c.byteAt q k

/-- Plane `q` is the same in both. -/
def SamePlane (q : Plane) (c c' : Controller) : Prop := ∀ k : Nat, c'.byteAt q k = c.byteAt q k

/-! ### What the host's accesses during a command amount to (R31, R60) -/

/-- A write to one of the nine registers. -/
def Overlap.writesRegister : Overlap → Bool
  | .write word _ => decide (word ≤ 8)
  | .read _ => false
  | .store _ => false

/-- Moment `b` comes after moment `a` of one command: sticky flags stay set (R17), first-time flags stay clear (R23, R24), `BUSYWR` is not the
command's (R216), and power, init and sleep change one way only: off, undone and asleep by `PWROFF` and `HIBER` (`off`), otherwise on, done and
awake (R131 to R136, R143, R144, R201). -/
structure Live.Before (off : Bool) (a b : Live) : Prop where
  drop : a.diag.drop = true → b.diag.drop = true
  timeout : a.diag.timeout = true → b.diag.timeout = true
  illegal : a.diag.illegal = true → b.diag.illegal = true
  busyWr : b.diag.busyWr = a.diag.busyWr
  write : a.life.initialWrite = false → b.life.initialWrite = false
  refresh : a.life.initialRefresh = false → b.life.initialRefresh = false
  power : a.life.powerIsOn = !off → b.life.powerIsOn = !off
  init : a.life.initDone = !off → b.life.initDone = !off
  sleep : a.life.hibernating = off → b.life.hibernating = off

/-- Between the two states the trace grew, through moments in which the registers went one way only and `XFERCNT` counted up the `Xfer`s sent (R18,
R31; log 8). -/
def Passed (off : Bool) (s t : State) : Prop :=
  ∃ (evs : List Event) (ms : List Live) (counts : List Nat),
    t.trace = s.trace ++ evs ∧ t.xferCnt = s.xferCnt + BitVec.ofNat 32 (evs.countP Event.isXfer) ∧
    t.seen = s.seen ++ ms ∧ (s.live :: (ms ++ [t.live])).Pairwise (Live.Before off) ∧
    ms.map Live.xferCnt = counts.map (fun k => s.xferCnt + BitVec.ofNat 32 k) ∧
    (counts ++ [evs.countP Event.isXfer]).Pairwise (· ≤ ·)

/-- Result `o` of a write geometry: the source rectangle of `w` by `h` pixels that starts at `(xs, ys)` of a `wb` by `hb` bitmap, placed at `(x, y)`.
With `x` rounded down and `w` rounded up, each by itself, it is empty exactly when no pixel of it is in the plane; otherwise its window is exactly
those pixels, and `dx`, `dy` are what was cut off left and top (R92, R93). -/
def Placed (p : Panel) (x y w h wb hb xs ys : Int) (o : Option Geom) : Prop :=
  let inside := fun a b : Int =>
    floor8 x ≤ a ∧ a < floor8 x + ceil8 w ∧ y ≤ b ∧ b < y + h ∧ 0 ≤ a ∧ a < planeW p ∧ 0 ≤ b ∧ b < p.height
  (o = none ↔ ∀ a b, ¬ inside a b) ∧
  ∀ g, o = some g →
    (∀ a b, inside a b ↔ g.x1 ≤ a ∧ a < g.x1 + g.w1 ∧ g.y1 ≤ b ∧ b < g.y1 + g.h1) ∧
    g.dx = g.x1 - floor8 x ∧ g.dy = g.y1 - y ∧ g.wb = wb ∧ g.hb = hb ∧ g.xs = xs ∧ g.ys = ys

/-- The default grey threshold, `2^(bpp - 1)` (R6, R116). -/
def defaultThreshold (b : Bpp) : Nat := 2 ^ (bppBitsPer b - 1)

/-- The tone of the complemented value where the greys swap as well (R119). -/
def Tone.swap : Tone → Tone
  | .white => .black
  | .grey1 => .grey2
  | .grey2 => .grey1
  | .black => .white

end Sys2Proof.Machine
end

