-- ==== Sys2Proof/Certificates/Slice0/Obligations.lean ====
section
/-! DEFINITION. The statements for the provers. "Stated" ones formalise rules of spec/ whole; the others say which sections they rest on.
Where a clause rests on a choice of the model, the docstring names the log entry. -/

open Sys2Proof Sys2Proof.Machine

/-! ### The command word -/

/-- One word of each command, written out from the encoding of R73 and R79. -/
def Obligations.WrittenWordsDecode : Prop :=
  decode 0x00FF0001#32 = some (.clrs 0xFF) ∧
  decode 0x00A50002#32 = some (.wsb 0xA5) ∧
  decode 0x00000003#32 = some (.wsba 0x00) ∧
  decode 0x00000104#32 = some (.wimg true false false) ∧
  decode 0x00000205#32 = some (.wimgp false true false) ∧
  decode 0x00000C06#32 = some (.wimg4 .two false false true) ∧
  decode 0x00001007#32 = some (.wimgp4 .four false false false) ∧
  decode 0x00000408#32 = some (.dimg false false true) ∧
  decode 0x00000709#32 = some (.dimgp true true true) ∧
  decode 0x0000190A#32 = some (.dimg4 .eight true false false) ∧
  decode 0x0000020B#32 = some (.dimgp4 .one false true false) ∧
  decode 0x0000200C#32 = some (.rfsh true) ∧
  decode 0x0000000D#32 = some .rfshr ∧
  decode 0x0000000E#32 = some .pwroff ∧
  decode 0x0000000F#32 = some .hiber

/-- A word decodes to a command exactly when it is that command's word: no bit of an encoding is dropped and no word has two readings (R70 to
R73, R79). -/
def Obligations.DecodeInvertsEncode : Prop :=
  ∀ (w : Word) (i : Instr), decode w = some i ↔ w = encode i

/-- The words without a meaning are exactly the reserved words of R74, R75 and R172. -/
def Obligations.ReservedWords : Prop :=
  ∀ (hasPrev : Bool) (w : Word), decodeFor hasPrev w = none ↔ ReservedWord hasPrev w

/-- A reserved word is stored in `CMD`, clears `XFERCNT` and sets `ILLEGAL`, and nothing else happens (R75, R213). -/
def Obligations.ReservedWordIgnored : Prop :=
  ∀ (s : State) (w : Word) (rest : List HostAction), s.busy = false → ReservedWord s.panel.hasPrev w →
    step { s with hostq := .write 0 w [] :: rest } =
      .next { s with hostq := rest, cmd := w, xferCnt := 0, diag := { s.diag with illegal := true } }

/-! ### The step and the host registers -/

/-- A write of `CMD` while `BUSY = 0` stores the word, clears `XFERCNT` and runs the command it decodes to with `BUSY = 1`; at the end
`BUSY` is 0; a reserved word sets `ILLEGAL` (R78). (`racing` is empty: no access overlaps this command; `seen`, the moments a read could fall on,
starts and ends empty, log 8.) -/
def Obligations.StepRunsTheCommand : Prop :=
  ∀ (s : State) (w : Word) (rest : List HostAction), s.busy = false →
    (∀ i, decodeFor s.panel.hasPrev w = some i →
      step { s with hostq := .write 0 w [] :: rest } =
        match exec i { s with hostq := rest, cmd := w, xferCnt := 0, busy := true, racing := [], seen := [] } with
        | .next t => .next { t with busy := false, racing := [], seen := [], draws := t.draws + t.racing.length }
        | .fault r => .fault r
        | .refused r => .refused r) ∧
    (decodeFor s.panel.hasPrev w = none →
      step { s with hostq := .write 0 w [] :: rest } =
        .next { s with hostq := rest, cmd := w, xferCnt := 0, diag := { s.diag with illegal := true } })

/-- The nine registers: what each reads as and is after reset; the read-only ones and the reserved offsets ignore writes, `SRC` to `BWH` hold what
is written, `DIAG` is cleared where a 1 is written, `CMD` stores the word (R14). A read changes nothing but the value returned (R46). Registers are
named by word index, byte offset / 4. -/
def Obligations.RegisterMap : Prop :=
  (∀ (s : State) (n : Nat) (rest : List HostAction), ∃ v,
    step { s with hostq := .read n :: rest } = .next { s with hostq := rest, rdata := v } ∧
    (n = 0 → v = s.cmd) ∧ (n = 1 → v = statusWord s) ∧ (n = 2 → v = s.diag.word) ∧ (n = 3 → v = s.src) ∧
    (n = 4 → v = s.y ++ s.x) ∧ (n = 5 → v = s.h ++ s.w) ∧ (n = 6 → v = s.yPart ++ s.xPart) ∧ (n = 7 → v = s.hBitmap ++ s.wBitmap) ∧
    (n = 8 → v = s.xferCnt) ∧ (9 ≤ n → v = 0)) ∧
  (∀ (s : State) (n : Nat) (v : Word) (rest : List HostAction), s.busy = false → n = 1 ∨ 8 ≤ n →
    step { s with hostq := .write n v [] :: rest } = .next { s with hostq := rest }) ∧
  (∀ (s : State) (n : Nat) (v : Word) (rest : List HostAction), s.busy = false → 3 ≤ n → n ≤ 7 →
    ∃ t, step { s with hostq := .write n v [] :: rest } = .next t ∧ readReg (regOfWord n) t = v) ∧
  (∀ (s : State) (v : Word) (rest : List HostAction), s.busy = false →
    ∃ t, step { s with hostq := .write 2 v [] :: rest } = .next t ∧ readReg .diag t = readReg .diag s &&& ~~~v) ∧
  (∀ (s t : State) (v : Word) (rest : List HostAction), s.busy = false → step { s with hostq := .write 0 v [] :: rest } = .next t →
    readReg .cmd t = v) ∧
  (∀ (p : Panel) (n : Nat), readReg (regOfWord n) (State.resetFor p) = if n = 1 then 0x00000060#32 else 0#32)

/-- `STATUS` bit by bit, zero above bit 7, 0x60 after reset, and no host write to it has an effect (R16). -/
def Obligations.StatusIsLiveView : Prop :=
  (∀ s : State,
    (statusWord s).getLsbD 0 = s.busy ∧ (statusWord s).extractLsb' 1 2 = s.mode.code ∧ (statusWord s).getLsbD 3 = s.powerIsOn ∧
    (statusWord s).getLsbD 4 = s.hibernating ∧ (statusWord s).getLsbD 5 = s.initialWrite ∧
    (statusWord s).getLsbD 6 = s.initialRefresh ∧ (statusWord s).getLsbD 7 = s.initDone ∧
    ∀ n, 8 ≤ n → (statusWord s).getLsbD n = false) ∧
  (∀ (s : State) (rest : List HostAction), step { s with hostq := .read 1 :: rest } = .next { s with hostq := rest, rdata := statusWord s }) ∧
  (∀ (s : State) (v : Word) (rest : List HostAction), s.busy = false →
    step { s with hostq := .write 1 v [] :: rest } = .next { s with hostq := rest }) ∧
  (Mode.fullRefresh.code = 0 ∧ Mode.fastRefresh.code = 1 ∧ Mode.greyRefresh.code = 2 ∧ Mode.forcedFullRefresh.code = 3) ∧
  (∀ p : Panel, statusWord (State.resetFor p) = 0x00000060#32)

/-- `DIAG`: each flag reads at its bit, the rest reads zero; a write clears the flags whose bit is 1 and changes nothing else (R17, R220). -/
def Obligations.DiagWriteOneClears : Prop :=
  (∀ d : Diag, d.word.getLsbD 0 = d.drop ∧ d.word.getLsbD 1 = d.timeout ∧ d.word.getLsbD 2 = d.illegal ∧ d.word.getLsbD 3 = d.busyWr ∧
    ∀ n, 4 ≤ n → d.word.getLsbD n = false) ∧
  ∀ (s : State) (v : Word) (rest : List HostAction), s.busy = false →
    ∃ d, step { s with hostq := .write 2 v [] :: rest } = .next { s with hostq := rest, diag := d } ∧
      d.word = s.diag.word &&& ~~~v

/-- A write of `SRC`, `XY`, `WH`, `PXY` or `BWH` while `BUSY = 0` puts the two halves where R11 places them, changes nothing else, and reads
back as written, whatever the 32 bits are (R19). -/
def Obligations.OperandRegistersHoldAnyWord : Prop :=
  ∀ (s : State) (v : Word) (rest : List HostAction), s.busy = false →
    let lo := v.extractLsb' 0 16
    let hi := v.extractLsb' 16 16
    step { s with hostq := .write 3 v [] :: rest } = .next { s with hostq := rest, src := v } ∧
    step { s with hostq := .write 4 v [] :: rest } = .next { s with hostq := rest, x := lo, y := hi } ∧
    step { s with hostq := .write 5 v [] :: rest } = .next { s with hostq := rest, w := lo, h := hi } ∧
    step { s with hostq := .write 6 v [] :: rest } = .next { s with hostq := rest, xPart := lo, yPart := hi } ∧
    step { s with hostq := .write 7 v [] :: rest } = .next { s with hostq := rest, wBitmap := lo, hBitmap := hi } ∧
    readReg .src { s with src := v } = v ∧ readReg .xy { s with x := lo, y := hi } = v ∧ readReg .wh { s with w := lo, h := hi } = v ∧
    readReg .pxy { s with xPart := lo, yPart := hi } = v ∧ readReg .bwh { s with wBitmap := lo, hBitmap := hi } = v

/-- With `BUSY = 1` a write to any of the nine registers, `CMD` and `DIAG` among them, only sets `BUSYWR`, and a read returns the live value
(R31, R216). What is said here of a `BUSY` that stands between two steps, `OverlappingAccesses` says of a command that runs. -/
def Obligations.BusyWriteOnlySetsFlag : Prop :=
  ∀ (s : State) (n : Nat) (v : Word) (rest : List HostAction), s.busy = true → n ≤ 8 →
    step { s with hostq := .write n v [] :: rest } = .next { s with hostq := rest, diag := { s.diag with busyWr := true } } ∧
    step { s with hostq := .read n :: rest } = .next { s with hostq := rest, rdata := readReg (regOfWord n) s }

/-- Accesses that land while a command runs leave its effect alone: they add `BUSYWR` where a register was written, the stored bytes, the last
read value and free draws, and nothing else. A read returns the live value: `CMD` and the operand registers as they are, `STATUS` with `BUSY = 1`,
its other fields, `DIAG` and `XFERCNT` as they stand at a moment of the command, `BUSYWR` as the writes before it have left it (R16, R31, R60,
R216). The model's own in this: that the accesses are attached to the `CMD` write (log 7), which moments there are (log 8), that the stored bytes
are in memory after the command (log 9), and that a write to a reserved offset sets no `BUSYWR` (log 22). -/
def Obligations.OverlappingAccesses : Prop :=
  ∀ (s t : State) (w : Word) (i : Instr) (during : List Overlap) (rest : List HostAction), s.busy = false →
    decodeFor s.panel.hasPrev w = some i →
    let s₀ : State := { s with hostq := rest, cmd := w, xferCnt := 0, busy := true, racing := storesOf during, seen := [] }
    exec i s₀ = .next t →
    ∃ u, step { s with hostq := .write 0 w during :: rest } = .next u ∧
      u = { t with
        busy := false
        racing := []
        seen := []
        diag := { t.diag with busyWr := t.diag.busyWr || during.any Overlap.writesRegister }
        ram := u.ram, pgm := u.pgm, rdata := u.rdata, draws := u.draws } ∧
      (∀ sp, u.memory sp = ((storesOf during).foldl (fun v st => hostStore st v) t).memory sp) ∧
      ((∀ o ∈ during, ∀ n, o ≠ .read n) → u.rdata = t.rdata) ∧
      ∀ before n after, during = before ++ .read n :: after → (∀ o ∈ after, ∀ k, o ≠ .read k) →
        ∃ v ∈ momentsOf s₀.live t,
          (n = 0 → u.rdata = w) ∧
          (n = 1 → u.rdata.getLsbD 0 = true ∧ u.rdata.extractLsb' 1 2 = v.life.mode.code ∧ u.rdata.getLsbD 3 = v.life.powerIsOn ∧
            u.rdata.getLsbD 4 = v.life.hibernating ∧ u.rdata.getLsbD 5 = v.life.initialWrite ∧
            u.rdata.getLsbD 6 = v.life.initialRefresh ∧ u.rdata.getLsbD 7 = v.life.initDone ∧ ∀ k, 8 ≤ k → u.rdata.getLsbD k = false) ∧
          (n = 2 → u.rdata = Diag.word { v.diag with busyWr := s.diag.busyWr || before.any Overlap.writesRegister }) ∧
          (n = 3 → u.rdata = s.src) ∧ (n = 4 → u.rdata = s.y ++ s.x) ∧ (n = 5 → u.rdata = s.h ++ s.w) ∧
          (n = 6 → u.rdata = s.yPart ++ s.xPart) ∧ (n = 7 → u.rdata = s.hBitmap ++ s.wBitmap) ∧ (n = 8 → u.rdata = v.xferCnt) ∧
          (9 ≤ n → u.rdata = 0)

/-- What a command shows of itself while it runs: from its first moment to its last the flags, power, init and sleep go one way only and `XFERCNT`
counts its `Xfer`s up; and of two reads in one busy period the later one sees no earlier moment (R16, R17, R18, R31; that a read falls on one of
these moments is log 8). -/
def Obligations.LiveReadsFollowTheCommand : Prop :=
  (∀ (i : Instr) (s t : State), exec i s = .next t → Passed (i == .pwroff || i == .hiber) s t) ∧
  ∀ (ms : List Live) (s : State) (a b : List Overlap) (n k : Nat), ms ≠ [] →
    ∃ j₁ j₂, j₁ ≤ j₂ ∧ j₂ < ms.length ∧
      (busyAccesses ms (a ++ [.read n]) s).rdata = readReg (regOfWord n) ((busyAccesses ms a s).at (ms.getD j₁ s.live)) ∧
      (busyAccesses ms (a ++ .read n :: (b ++ [.read k])) s).rdata =
        readReg (regOfWord k) ((busyAccesses ms (a ++ .read n :: b) s).at (ms.getD j₂ s.live))

/-- Block reset, alone or in the middle of a command, gives every piece of the block's state its reset value, starts an empty trace and sends
nothing; the descriptor and the source memories are unaffected (R230). The planes are unspecified and no loaded sequence is relied on (R29, R57).
Between commands it does not touch the controller otherwise (R230, R232): window, selection, counter, power and sleep are as before, unless the
host brings the controller to its power-up state with it (R246), whose window, selection and counter are the model's choice (log 12). What an
aborted command leaves in the controller is not stated (log 15). -/
def Obligations.BlockResetState : Prop :=
  ∀ (s : State) (a : HostAction) (rest : List HostAction) (b : Bool), (a = .blockReset b ∨ ∃ v, a = .abortedCommand v b) →
    ∃ t, step { s with hostq := a :: rest } = .next t ∧
      t.mode = .fullRefresh ∧ t.initialWrite = true ∧ t.initialRefresh = true ∧ t.powerIsOn = false ∧ t.hibernating = false ∧
      t.initDone = false ∧ t.busy = false ∧ t.diag = ⟨false, false, false, false⟩ ∧ t.xferCnt = 0 ∧ t.cmd = 0 ∧ t.src = 0 ∧
      t.x = 0 ∧ t.y = 0 ∧ t.w = 0 ∧ t.h = 0 ∧ t.xPart = 0 ∧ t.yPart = 0 ∧ t.wBitmap = 0 ∧ t.hBitmap = 0 ∧ t.trace = [] ∧
      t.panel = s.panel ∧ t.ram = s.ram ∧ t.pgm = s.pgm ∧ t.hostq = rest ∧
      (∀ q k, t.ctl.byteAt q k = Config.planeByte t.ctl.epoch q k) ∧ t.ctl.loaded = none ∧
      (a = .blockReset false → t.ctl.window = s.ctl.window ∧ t.ctl.sel = s.ctl.sel ∧ t.ctl.count = s.ctl.count ∧
        t.ctl.powered = s.ctl.powered ∧ t.ctl.asleep = s.ctl.asleep) ∧
      (b = true → t.ctl = Controller.powerUp t.ctl.epoch)

/-- The state after block reset, for every descriptor: every row of the table of R29, the planes unspecified and nothing relied on as loaded. -/
def Obligations.ResetState : Prop :=
  ∀ p : Panel,
    let s := State.resetFor p
    s.mode = .fullRefresh ∧ s.initialWrite = true ∧ s.initialRefresh = true ∧ s.powerIsOn = false ∧ s.hibernating = false ∧
    s.initDone = false ∧ s.busy = false ∧ s.diag = ⟨false, false, false, false⟩ ∧ s.xferCnt = 0 ∧ s.cmd = 0 ∧ s.src = 0 ∧
    s.x = 0 ∧ s.y = 0 ∧ s.w = 0 ∧ s.h = 0 ∧ s.xPart = 0 ∧ s.yPart = 0 ∧ s.wBitmap = 0 ∧ s.hBitmap = 0 ∧ s.trace = [] ∧
    s.panel = p ∧ (∀ q k, s.ctl.byteAt q k = Config.planeByte s.ctl.epoch q k) ∧ s.ctl.loaded = none

/-- Without a host action the block waits: a step changes nothing (R231; log 4). So it does after reset, whose panel is the reference build
(log 2). -/
def Obligations.IdleBlockWaits : Prop :=
  (∀ s : State, s.hostq = [] → step s = .next s) ∧ State.reset = State.resetFor Panel.reference ∧ step State.reset = .next State.reset

/-! ### Source memory -/

/-- A byte the host stores is what a later read of that address of that space gives; every other byte and all other state stay as they were,
and a read below 0 or past 2^32 - 1 gives nothing (R41, R60). The model's choice, not the spec's: that the byte of the other space at the stored
address stays as it was, since RAM and PGM are two memories (log 25; R42, R55 leave it to the platform), and that a read outside the address space
gives nothing (log 10, log 11). -/
def Obligations.HostStoreThenRead : Prop :=
  ∀ (s : State) (st : HostStore) (rest : List HostAction), s.racing = [] → ∃ t,
    step { s with hostq := .store st :: rest } = .next t ∧
    t = { s with hostq := rest, ram := t.ram, pgm := t.pgm } ∧
    (∀ tag, memRead t st.space tag st.addr.toNat = some st.byte) ∧
    (∀ sp tag a, ¬ (sp = st.space ∧ a = (st.addr.toNat : Int)) → memRead t sp tag a = memRead s sp tag a) ∧
    (∀ sp tag a, (a < 0 ∨ 2 ^ 32 ≤ a) → memRead t sp tag a = none)

/-- Where a byte is listed, a read of a command gives that old byte or one that a racing store puts there, and the old one where no store races with
it (R60, R241). That an address without one has no old byte, and its read is refused, is the model's choice and not stated (log 9). -/
def Obligations.RacingReadOldOrNew : Prop :=
  ∀ (s : State) (sp : Space) (tag : ReadTag) (a : Int) (old : Byte), 0 ≤ a → a < 2 ^ 32 → cellGet (s.memory sp) a.toNat = some old →
    ∃ b, memRead s sp tag a = some b ∧
      (b = old ∨ ∃ st ∈ s.racing, st.space = sp ∧ (st.addr.toNat : Int) = a ∧ st.byte = b) ∧
      ((∀ st ∈ s.racing, ¬ (st.space = sp ∧ (st.addr.toNat : Int) = a)) → b = old)

/-! ### Geometry -/

/-- What always holds of a non-empty geometry result (R95). -/
def Obligations.GeometryResultInside : Prop :=
  (∀ (p : Panel) (r : Rect) (g : Geom), geomWrite p r = some g →
    WindowOk p g.rect ∧ 8 ≤ g.w1 ∧ 1 ≤ g.h1 ∧ g.dx % 8 = 0 ∧ 0 ≤ g.dx ∧ g.dx + g.w1 ≤ ceil8 r.w ∧ 0 ≤ g.dy ∧ g.dy + g.h1 ≤ r.h ∧
    0 ≤ g.ys + g.dy ∧ g.ys + g.dy + g.h1 ≤ g.hb) ∧
  (∀ (p : Panel) (r : Rect) (q : PartOperands) (b : Bpp) (g : Geom), geomPart p r q (unitOf b) = some g →
    WindowOk p g.rect ∧ 8 ≤ g.w1 ∧ 1 ≤ g.h1 ∧ g.dx % 8 = 0 ∧ 0 ≤ g.dx ∧ g.dx + g.w1 ≤ ceil8 (min r.w (q.wb - floorU q.xp (unitOf b))) ∧
    0 ≤ g.dy ∧ g.dy + g.h1 ≤ min r.h (q.hb - q.yp) ∧ 0 ≤ g.ys + g.dy ∧ g.ys + g.dy + g.h1 ≤ g.hb) ∧
  (∀ (p : Panel) (r g : Rect), geomRefresh p r = some g → WindowOk p g ∧ 8 ≤ g.w ∧ 1 ≤ g.h)

/-- The window of a rectangle refresh covers every requested pixel that is on the panel, is the smallest byte-aligned one that does, and there is
none exactly when no requested pixel is on the panel (R94). -/
def Obligations.RefreshWindowCovers : Prop :=
  ∀ (p : Panel) (r : Rect),
    let asked := fun x y : Int => r.x ≤ x ∧ x < r.x + r.w ∧ r.y ≤ y ∧ y < r.y + r.h ∧ 0 ≤ x ∧ x < p.width ∧ 0 ≤ y ∧ y < p.height
    (geomRefresh p r = none ↔ ∀ x y, ¬ asked x y) ∧
    ∀ g, geomRefresh p r = some g →
      (∀ x y, asked x y → g.x ≤ x ∧ x < g.x + g.w ∧ g.y ≤ y ∧ y < g.y + g.h) ∧
      ∀ a : Rect, a.x % 8 = 0 → a.w % 8 = 0 → (∀ x y, asked x y → a.x ≤ x ∧ x < a.x + a.w ∧ a.y ≤ y ∧ y < a.y + a.h) →
        a.x ≤ g.x ∧ g.x + g.w ≤ a.x + a.w ∧ a.y ≤ g.y ∧ g.y + g.h ≤ a.y + a.h

/-- The geometry of a write and of a part write, of the operand registers as signed numbers: where it is `EMPTY`, and otherwise its window, what was
cut off, and where in the bitmap the source starts. A part starts at `XPART` rounded down to the unit and ends at the bitmap's edges; it is empty
where the bitmap or the rectangle has no area or the part starts outside the bitmap (R92, R93). -/
def Obligations.WriteWindowIsTheAlignedPart : Prop :=
  (∀ s : State, imageGeom s = geomWrite s.panel ⟨s.x.toInt, s.y.toInt, s.w.toInt, s.h.toInt⟩) ∧
  (∀ (s : State) (u : Nat), partGeom s u = geomPart s.panel ⟨s.x.toInt, s.y.toInt, s.w.toInt, s.h.toInt⟩
    ⟨s.xPart.toInt, s.yPart.toInt, s.wBitmap.toInt, s.hBitmap.toInt⟩ u) ∧
  (∀ (p : Panel) (r : Rect), Placed p r.x r.y r.w r.h r.w r.h 0 0 (geomWrite p r)) ∧
  ∀ (p : Panel) (r : Rect) (q : PartOperands) (b : Bpp),
    let nothing := q.wb ≤ 0 ∨ q.hb ≤ 0 ∨ r.w ≤ 0 ∨ r.h ≤ 0 ∨ q.xp < 0 ∨ q.wb ≤ q.xp ∨ q.yp < 0 ∨ q.hb ≤ q.yp
    (nothing → geomPart p r q (unitOf b) = none) ∧
    (¬ nothing → ∀ xs : Int, xs % unitOf b = 0 → xs ≤ q.xp → q.xp < xs + unitOf b →
      Placed p r.x r.y (min r.w (q.wb - xs)) (min r.h (q.hb - q.yp)) q.wb q.hb xs q.yp (geomPart p r q (unitOf b)))

/-- A rectangle command whose geometry is `EMPTY` sets `DROP` and changes nothing else at all: no event, no mode, no flag, no memory (R96). -/
def Obligations.EmptyRectangleDoesNothing : Prop :=
  ∀ (s : State) (inv mir pgm : Bool) (b : Bpp),
    let dropped := Host.Outcome.next (φ := Fault) (ρ := Refusal) { s with diag := { s.diag with drop := true } }
    (imageGeom s = none → exec (.wimg inv mir pgm) s = dropped ∧ exec (.dimg inv mir pgm) s = dropped ∧
      (s.panel.hasPrev = true → exec (.wimg4 b inv mir pgm) s = dropped ∧ exec (.dimg4 b inv mir pgm) s = dropped)) ∧
    (partGeom s 8 = none → exec (.wimgp inv mir pgm) s = dropped ∧ exec (.dimgp inv mir pgm) s = dropped) ∧
    (partGeom s (unitOf b) = none → s.panel.hasPrev = true →
      exec (.wimgp4 b inv mir pgm) s = dropped ∧ exec (.dimgp4 b inv mir pgm) s = dropped) ∧
    (s.initialRefresh = false → s.mode ≠ .forcedFullRefresh → geomRefresh s.panel s.rect = none → exec .rfshr s = dropped)

/-! ### Packing -/

/-- `SrcRow(i)` is `ys + dy + i`, or its mirror image about the whole bitmap's height (`H`, or `HBITMAP` for a part), and lies inside the bitmap;
`MIR` moves whole rows and never a column (R112). -/
def Obligations.SourceRowInsideBitmap : Prop :=
  ∀ (s : State) (g : Geom) (i : Nat), (imageGeom s = some g ∨ ∃ b, partGeom s (unitOf b) = some g) → (i : Int) < g.h1 →
    srcRow g false i = g.ys + g.dy + i ∧ srcRow g true i = g.hb - 1 - (g.ys + g.dy + i) ∧
    (∀ mir, 0 ≤ srcRow g mir i ∧ srcRow g mir i ≤ g.hb - 1) ∧
    (imageGeom s = some g → g.hb = s.rect.h) ∧ (∀ b, partGeom s (unitOf b) = some g → g.hb = s.part.hb) ∧
    ∀ (q : Plane) (inv : Bool) (sp : Space) (i' jb : Nat), s.racing = [] → srcRow g true i = srcRow g false i' →
      monoByte s q g ⟨inv, true, sp⟩ i jb = monoByte s q g ⟨inv, false, sp⟩ i' jb ∧
      ∀ b, greyByte s q g b ⟨inv, true, sp⟩ i jb = greyByte s q g b ⟨inv, false, sp⟩ i' jb

/-- `INV` complements every byte of a mono stream; a mono command with `INV` does to a bitmap what the same command without it does to the
complemented bitmap, and complementing twice gives the bitmap back (R114). -/
def Obligations.MonoInversionIsComplement : Prop :=
  (∀ (s : State) (mir pgm : Bool),
    exec (.wimg false mir pgm) s.complementSource = mapNext State.complementSource (exec (.wimg true mir pgm) s) ∧
    exec (.wimgp false mir pgm) s.complementSource = mapNext State.complementSource (exec (.wimgp true mir pgm) s) ∧
    exec (.dimg false mir pgm) s.complementSource = mapNext State.complementSource (exec (.dimg true mir pgm) s) ∧
    exec (.dimgp false mir pgm) s.complementSource = mapNext State.complementSource (exec (.dimgp true mir pgm) s)) ∧
  (∀ (s : State) (mir : Bool) (sp : Space) (g : Geom),
    monoPixels s ⟨true, mir, sp⟩ g = (monoPixels s ⟨false, mir, sp⟩ g).map (~~~·)) ∧
  ∀ s : State, s.complementSource.complementSource = s

/-- `INV` in a 4G command replaces every value `v` by `FS - v`, which swaps white and black, and at the default threshold the greys; every output
byte of both planes is then complemented; at another threshold the greys need not swap (R119). -/
def Obligations.GreyInversion : Prop :=
  (∀ (b : Bpp) (byte : Byte) (k : Nat), k < pixelsPerByte b → byteField b (~~~byte) k = 2 ^ bppBitsPer b - 1 - byteField b byte k) ∧
  (∀ (p : Panel) (b : Bpp), toneOf p b (2 ^ bppBitsPer b - 1) = .white ∧ toneOf p b 0 = .black) ∧
  (∀ (p : Panel) (b : Bpp) (v : Nat), greyTh p b = defaultThreshold b → v ≤ 2 ^ bppBitsPer b - 1 →
    toneOf p b (2 ^ bppBitsPer b - 1 - v) = (toneOf p b v).swap) ∧
  (∃ (p : Panel) (b : Bpp) (v : Nat), v ≤ 2 ^ bppBitsPer b - 1 ∧ toneOf p b (2 ^ bppBitsPer b - 1 - v) ≠ (toneOf p b v).swap) ∧
  ∀ (s : State) (q : Plane) (b : Bpp) (mir : Bool) (sp : Space) (g : Geom), greyTh s.panel b = defaultThreshold b →
    greyPixels s q b ⟨true, mir, sp⟩ g = (greyPixels s q b ⟨false, mir, sp⟩ g).map (~~~·)

/-- The threshold policy and the pairing table (R116, R117). -/
def Obligations.TonesAndPlaneBits : Prop :=
  (∀ (p : Panel) (b : Bpp) (v : Nat), v < 2 ^ bppBitsPer b →
    (toneOf p b v = .white ↔ v = 2 ^ bppBitsPer b - 1) ∧ (toneOf p b v = .black ↔ v = 0) ∧
    (toneOf p b v = .grey1 ↔ v ≠ 2 ^ bppBitsPer b - 1 ∧ v ≠ 0 ∧ greyTh p b ≤ v) ∧
    (toneOf p b v = .grey2 ↔ v ≠ 2 ^ bppBitsPer b - 1 ∧ v ≠ 0 ∧ v < greyTh p b)) ∧
  (∀ p : Panel, greyTh p .two = p.greyTh2 ∧ greyTh p .four = p.greyTh4 ∧ greyTh p .eight = p.greyTh8) ∧
  (defaultThreshold .two = 2 ∧ defaultThreshold .four = 8 ∧ defaultThreshold .eight = 128) ∧
  (∀ (p : Panel) (v : Nat), v < 2 → toneOf p .one v = if v = 1 then .white else .black) ∧
  ∀ p : Panel,
    (planeBit p .cur .white = true ∧ planeBit p .prev .white = true) ∧
    (planeBit p .cur .grey1 = p.grey1Cur ∧ planeBit p .prev .grey1 = !p.grey1Cur) ∧
    (planeBit p .cur .grey2 = (!p.grey1Cur) ∧ planeBit p .prev .grey2 = p.grey1Cur) ∧
    (planeBit p .cur .black = false ∧ planeBit p .prev .black = false)

/-- The leftmost pixel occupies the most significant bits: `byteField` of position `k` is bits `[7 - bpp*k : 8 - bpp*(k+1)]` of the byte, and pixel
`k` of eight lands in bit `7 - k` of the output byte (R43, R115, R118). -/
def Obligations.LeftmostPixelIsHighest : Prop :=
  (∀ (b : Bpp) (byte : Byte) (k j : Nat), k < pixelsPerByte b → j < bppBitsPer b →
    (byteField b byte k).testBit j = byte.getLsbD (8 - bppBitsPer b * (k + 1) + j)) ∧
  (∀ (b : Bpp) (byte : Byte) (k : Nat), byteField b byte k < 2 ^ bppBitsPer b) ∧
  ∀ bits : List Bool, bits.length = 8 → ∀ k, k < 8 → (packBits bits).getLsbD (7 - k) = bits.getD k false

/-- At 1 bpp a 4G write puts the same bytes into both planes as a mono write puts into one (R118, R167). -/
def Obligations.OneBitGreyIsMono : Prop :=
  ∀ (s : State) (q : Plane) (m : ReadMode) (g : Geom), s.racing = [] → (g.xs + g.dx) % 8 = 0 →
    greyBytes s q g .one m = monoBytes s .cur g m

/-- The footprint of every mono command, of the whole-image 4G commands, and of part commands whose `xs` is a multiple of 8 lies inside the bitmap;
otherwise its last column is at most `ceil8(Wb) + 6` (R121). -/
def Obligations.FootprintInsideBitmap : Prop :=
  ∀ (s : State) (b : Bpp) (g : Geom), (imageGeom s = some g ∨ partGeom s (unitOf b) = some g) →
    (∀ (mir : Bool) (i : Nat) (c : Int), (i : Int) < g.h1 → g.xs + g.dx ≤ c → c ≤ g.xs + g.dx + g.w1 - 1 → g.xs % 8 = 0 →
      s.srcAddr ≤ pixelAddr s g b (srcRow g mir i) c ∧
        pixelAddr s g b (srcRow g mir i) c ≤ s.srcAddr + stride g.wb (bppBitsPer b) * g.hb - 1) ∧
    g.xs + g.dx + g.w1 - 1 ≤ ceil8 g.wb + 6

/-- The length of the streams: a fill is `PLANE_WB * HEIGHT` bytes, an image stream `(w1/8) * h1`, and each byte is one `Xfer` (R110, R111,
R120(a)). -/
def Obligations.StreamLengths : Prop :=
  (∀ (p : Panel) (q : Plane) (v : Byte), (fillEvents p q v).countP Event.isXfer = planeWB p * p.height) ∧
  (∀ (s : State) (q : Plane) (m : ReadMode) (g : Geom),
    (planeStream q g.rect (monoPixels s m g)).countP Event.isXfer = (g.w1 / 8).toNat * g.h1.toNat) ∧
  ∀ (s : State) (q : Plane) (b : Bpp) (m : ReadMode) (g : Geom),
    (planeStream q g.rect (greyPixels s q b m g)).countP Event.isXfer = (g.w1 / 8).toNat * g.h1.toNat

/-! ### What each command does -/

/-- `WSB val`: init where it is due, out of grey mode, `val` into the whole current plane; `initial_write` is cleared (R163). Twice is as once:
the plane holds `val` everywhere. -/
def Obligations.WsbFillsCurrentPlane : Prop :=
  ∀ (s : State) (v : Byte), Coherent s →
    opcField (encode (.wsb v)) = 0x02#8 ∧
    Completes (.wsb v) s (ensureEvents s.life ++ (fillTable s.mode).1 ++ fillEvents s.panel .cur v) false
      ⟨(fillTable s.mode).2, s.powerIsOn, false, false, s.initialRefresh, true⟩ ∧
    ∀ t, exec (.wsb v) s = .next t → t.ctl.lost = false → ∀ k, k < planeBytes s.panel → t.ctl.byteAt .cur k = v

/-- `WSBA val`: the same for the previous plane, or the only one; `initial_write` stays (R164). -/
def Obligations.WsbaFillsPreviousPlane : Prop :=
  ∀ (s : State) (v : Byte), Coherent s →
    let q := if s.panel.hasPrev then Plane.prev else Plane.cur
    opcField (encode (.wsba v)) = 0x03#8 ∧
    Completes (.wsba v) s (ensureEvents s.life ++ (fillTable s.mode).1 ++ fillEvents s.panel q v) false
      ⟨(fillTable s.mode).2, s.powerIsOn, false, s.initialWrite, s.initialRefresh, true⟩ ∧
    ∀ t, exec (.wsba v) s = .next t → t.ctl.lost = false → ∀ k, k < planeBytes s.panel → t.ctl.byteAt q k = v

/-- `CLRS val`: fills, then a full refresh; it always ends in `full_refresh`, powered, both first-time flags cleared, the planes filled
(R181). -/
def Obligations.ClrsClearsAndRefreshes : Prop :=
  ∀ (s : State) (v : Byte), Coherent s →
    let l : Life := ⟨(fillTable s.mode).2, s.powerIsOn, false, false, s.initialRefresh, true⟩
    opcField (encode (.clrs v)) = 0x01#8 ∧
    Completes (.clrs v) s
      (ensureEvents s.life ++ (fillTable s.mode).1 ++ bothFills s.panel v ++ (fullTable s.panel l.mode).1 ++ powerEvents s.life ++
        [.seq .updateFull, .wait .full])
      false ⟨.fullRefresh, true, false, false, false, true⟩ ∧
    ∀ t, exec (.clrs v) s = .next t → t.ctl.lost = false → ∀ k, k < planeBytes s.panel →
      t.ctl.byteAt .cur k = v ∧ (s.panel.hasPrev = true → t.ctl.byteAt .prev k = v)

/-- `WIMG` and `WIMGP` (R165, R166). Without a racing store the bytes are the source's; with one they are as `RacingReadOldOrNew` says. -/
def Obligations.MonoWriteResult : Prop :=
  ∀ (s : State) (inv mir pgm : Bool), Coherent s →
    let m : ReadMode := ⟨inv, mir, spaceOf pgm⟩
    let dropped := Host.Outcome.next (φ := Fault) (ρ := Refusal) { s with diag := { s.diag with drop := true } }
    (opcField (encode (.wimg inv mir pgm)) = 0x04#8 ∧ opcField (encode (.wimgp inv mir pgm)) = 0x05#8) ∧
    (imageGeom s = none → exec (.wimg inv mir pgm) s = dropped) ∧
    (∀ g, imageGeom s = some g → Readable s m.space g mir .one → s.racing = [] →
      Completes (.wimg inv mir pgm) s (monoLead s.panel s.life ++ planeStream .cur g.rect (monoPixels s m g)) false (monoLife s.life)) ∧
    (partGeom s 8 = none → exec (.wimgp inv mir pgm) s = dropped) ∧
    (∀ g, partGeom s 8 = some g → Readable s m.space g mir .one → s.racing = [] →
      Completes (.wimgp inv mir pgm) s (monoLead s.panel s.life ++ planeStream .cur g.rect (monoPixels s m g)) false (monoLife s.life))

/-- `WIMG4` and `WIMGP4`: always `Seq(INIT_GREY)`, then both planes, current first (R167, R168); reserved without a previous plane (R172). -/
def Obligations.GreyWriteResult : Prop :=
  ∀ (s : State) (b : Bpp) (inv mir pgm : Bool), Coherent s →
    let m : ReadMode := ⟨inv, mir, spaceOf pgm⟩
    let dropped := Host.Outcome.next (φ := Fault) (ρ := Refusal) { s with diag := { s.diag with drop := true } }
    let illegal := Host.Outcome.next (φ := Fault) (ρ := Refusal) { s with diag := { s.diag with illegal := true } }
    let streams := fun g : Geom => planeStream .cur g.rect (greyPixels s .cur b m g) ++ planeStream .prev g.rect (greyPixels s .prev b m g)
    (opcField (encode (.wimg4 b inv mir pgm)) = 0x06#8 ∧ opcField (encode (.wimgp4 b inv mir pgm)) = 0x07#8) ∧
    (s.panel.hasPrev = false → exec (.wimg4 b inv mir pgm) s = illegal ∧ exec (.wimgp4 b inv mir pgm) s = illegal) ∧
    (s.panel.hasPrev = true →
      (imageGeom s = none → exec (.wimg4 b inv mir pgm) s = dropped) ∧
      (∀ g, imageGeom s = some g → Readable s m.space g mir b → s.racing = [] →
        Completes (.wimg4 b inv mir pgm) s (greyLead s.panel s.life ++ streams g) false (greyLife s.life)) ∧
      (partGeom s (unitOf b) = none → exec (.wimgp4 b inv mir pgm) s = dropped) ∧
      (∀ g, partGeom s (unitOf b) = some g → Readable s m.space g mir b → s.racing = [] →
        Completes (.wimgp4 b inv mir pgm) s (greyLead s.panel s.life ++ streams g) false (greyLife s.life)))

/-- `DIMG` and `DIMGP`: the write, the refresh of the rectangle as given, and on differential controllers the second write (R182, R183,
R192). -/
def Obligations.MonoDrawResult : Prop :=
  ∀ (s : State) (inv mir pgm : Bool), Coherent s →
    let m : ReadMode := ⟨inv, mir, spaceOf pgm⟩
    let dropped := Host.Outcome.next (φ := Fault) (ρ := Refusal) { s with diag := { s.diag with drop := true } }
    let l := refreshLife s.panel (monoLife s.life) s.rect
    let events := fun g : Geom =>
      monoLead s.panel s.life ++ planeStream .cur g.rect (monoPixels s m g) ++ refreshEvents s.panel (monoLife s.life) s.rect ++
        againEvents s.panel l (planeStream .prev g.rect (monoPixels s m g))
    (opcField (encode (.dimg inv mir pgm)) = 0x08#8 ∧ opcField (encode (.dimgp inv mir pgm)) = 0x09#8) ∧
    (imageGeom s = none → exec (.dimg inv mir pgm) s = dropped) ∧
    (∀ g, imageGeom s = some g → Readable s m.space g mir .one → s.racing = [] →
      Completes (.dimg inv mir pgm) s (events g) (refreshDrops s.panel (monoLife s.life) s.rect) (againLife s.panel l)) ∧
    (partGeom s 8 = none → exec (.dimgp inv mir pgm) s = dropped) ∧
    (∀ g, partGeom s 8 = some g → Readable s m.space g mir .one → s.racing = [] →
      Completes (.dimgp inv mir pgm) s (events g) (refreshDrops s.panel (monoLife s.life) s.rect) (againLife s.panel l))

/-- `DIMG4` and `DIMGP4`: the 4G write and the refresh of the rectangle as given, which is a greyscale update (R184, R185); reserved without
a previous plane (R172). -/
def Obligations.GreyDrawResult : Prop :=
  ∀ (s : State) (b : Bpp) (inv mir pgm : Bool), Coherent s →
    let m : ReadMode := ⟨inv, mir, spaceOf pgm⟩
    let dropped := Host.Outcome.next (φ := Fault) (ρ := Refusal) { s with diag := { s.diag with drop := true } }
    let illegal := Host.Outcome.next (φ := Fault) (ρ := Refusal) { s with diag := { s.diag with illegal := true } }
    let events := fun g : Geom =>
      greyLead s.panel s.life ++
        (planeStream .cur g.rect (greyPixels s .cur b m g) ++ planeStream .prev g.rect (greyPixels s .prev b m g)) ++
        refreshEvents s.panel (greyLife s.life) s.rect
    (opcField (encode (.dimg4 b inv mir pgm)) = 0x0A#8 ∧ opcField (encode (.dimgp4 b inv mir pgm)) = 0x0B#8) ∧
    (s.panel.hasPrev = false → exec (.dimg4 b inv mir pgm) s = illegal ∧ exec (.dimgp4 b inv mir pgm) s = illegal) ∧
    (s.panel.hasPrev = true →
      (imageGeom s = none → exec (.dimg4 b inv mir pgm) s = dropped) ∧
      (∀ g, imageGeom s = some g → Readable s m.space g mir b → s.racing = [] →
        Completes (.dimg4 b inv mir pgm) s (events g) (refreshDrops s.panel (greyLife s.life) s.rect)
          (refreshLife s.panel (greyLife s.life) s.rect)) ∧
      (partGeom s (unitOf b) = none → exec (.dimgp4 b inv mir pgm) s = dropped) ∧
      (∀ g, partGeom s (unitOf b) = some g → Readable s m.space g mir b → s.racing = [] →
        Completes (.dimgp4 b inv mir pgm) s (events g) (refreshDrops s.panel (greyLife s.life) s.rect)
          (refreshLife s.panel (greyLife s.life) s.rect)))

/-- `RFSH FULL` is `RefreshFull`; `RFSH PART` is `RefreshRect` of the whole panel, so its window is the whole plane and it never sets `DROP`
(R186, R190). -/
def Obligations.RfshResult : Prop :=
  ∀ s : State, Coherent s →
    (∀ par, opcField (encode (.rfsh par)) = 0x0C#8) ∧
    Completes (.rfsh false) s (fullEvents s.panel s.life) false (fullLife s.panel s.life) ∧
    (PanelOk s.panel →
      Completes (.rfsh true) s (if redirectDue s.life then fullEvents s.panel s.life else rectEvents s.life (planeRect s.panel)) false
        (if redirectDue s.life then fullLife s.panel s.life
          else ⟨(rectTable s.mode).2.2, true, false, s.initialWrite, s.initialRefresh, true⟩))

/-- `RFSHR`: redirected to the full refresh when it is due, whatever the rectangle; otherwise dropped when empty; otherwise the window and the
update of the mode (R187, R191, R215). -/
def Obligations.RfshrResult : Prop :=
  ∀ s : State, Coherent s →
    opcField (encode .rfshr) = 0x0D#8 ∧
    Completes .rfshr s (refreshEvents s.panel s.life s.rect) (refreshDrops s.panel s.life s.rect) (refreshLife s.panel s.life s.rect) ∧
    (s.initialRefresh = true ∨ s.mode = .forcedFullRefresh → exec .rfshr s = exec (.rfsh false) s ∧ exec (.rfsh true) s = exec (.rfsh false) s)

/-- `PWROFF`: nothing when power is off; otherwise the sequence and its wait, `power_is_on` cleared, and on the families that lose the mode
`MODE` and `init_done` reset; the next refresh turns power on again (R144, R200). -/
def Obligations.PwroffResult : Prop :=
  ∀ s : State,
    opcField (encode .pwroff) = 0x0E#8 ∧
    Completes .pwroff s (powerOffEvents s.life) false (powerOffLife s.panel s.life) ∧
    powerEvents (powerOffLife s.panel s.life) = [.seq .powerOn, .wait .pon] ∧
    (s.powerIsOn = false → exec .pwroff s = .next s)

/-- `HIBER`: nothing when asleep, as `PWROFF`; `PWROFF` without a reset line; otherwise power-off, deep sleep, what the controller holds
forgotten, and the next `EnsureInit` resets the controller (R201). -/
def Obligations.HiberResult : Prop :=
  ∀ s : State,
    opcField (encode .hiber) = 0x0F#8 ∧
    Completes .hiber s (hiberEvents s.panel s.life) false (hiberLife s.panel s.life) ∧
    (s.hibernating = true → exec .hiber s = .next s ∧ (Coherent s → exec .pwroff s = .next s)) ∧
    (s.hibernating = false → s.panel.hasReset = true → ensureEvents (hiberLife s.panel s.life) = [.reset, .seq .initFull]) ∧
    (s.hibernating = false → s.panel.hasReset = false → exec .hiber s = exec .pwroff s)

/-- Every command goes on to a next state, in every state, but for one reason: a byte of the picture it packs cannot be read; then it is refused
under that one name (R210, R41; the refusal is U6, log 10 and log 11). -/
def Obligations.OnlyUnreadableSourceStops : Prop :=
  ∀ (i : Instr) (s : State), Coherent s →
    ((∃ t, exec i s = .next t) ↔ ∀ c, pictureOf i s = some c → c.Readable s) ∧
    (∀ r, exec i s = .refused r → r = .unreadableSource)

/-! ### Frames -/

/-- What no command does: it leaves the operand registers, `CMD`, the descriptor, every byte of both source memories and the host's side alone;
the trace only grows, `XFERCNT` by its `Xfer` events; `BUSYWR` stays, `ILLEGAL` changes only for a 4G command without a previous plane, `TIMEOUT`
only where a `Wait` was sent; no first-time flag is ever set again (R12, R17, R18, R23, R24, R41, R47, R58, R172, R214, R216; that the meaning of a
4G command without a previous plane sets `ILLEGAL` itself is log 17). -/
def Obligations.CommandFrame : Prop :=
  ∀ (i : Instr) (s t : State), exec i s = .next t →
    SameHostSide s t ∧ (∀ sp a, cellGet (t.memory sp) a = cellGet (s.memory sp) a) ∧
    (∃ evs, t.trace = s.trace ++ evs ∧ t.xferCnt = s.xferCnt + BitVec.ofNat 32 (evs.countP Event.isXfer) ∧
      (evs.countP Event.isWait = 0 → t.diag.timeout = s.diag.timeout ∧ t.answers = s.answers)) ∧
    t.diag.busyWr = s.diag.busyWr ∧ t.diag.illegal = (s.diag.illegal || i.isFourGrey && !s.panel.hasPrev) ∧
    (s.diag.drop = true → t.diag.drop = true) ∧ (s.diag.timeout = true → t.diag.timeout = true) ∧
    (s.initialWrite = false → t.initialWrite = false) ∧ (s.initialRefresh = false → t.initialRefresh = false)

/-- No write command sends a `Wait`, an update or a power sequence, and none changes `power_is_on`, `initial_refresh` or `TIMEOUT`
(R160). -/
def Obligations.WritesNeitherWaitNorRefresh : Prop :=
  ∀ (i : Instr) (s t : State), Coherent s →
    ((∃ v, i = .wsb v ∨ i = .wsba v) ∨ ∃ b inv mir pgm, i = .wimg inv mir pgm ∨ i = .wimgp inv mir pgm ∨ i = .wimg4 b inv mir pgm ∨
      i = .wimgp4 b inv mir pgm) →
    exec i s = .next t →
    t.powerIsOn = s.powerIsOn ∧ t.initialRefresh = s.initialRefresh ∧ t.diag.timeout = s.diag.timeout ∧ t.answers = s.answers ∧
    ∃ evs, t.trace = s.trace ++ evs ∧ ∀ e ∈ evs, (∀ c, e ≠ .wait c) ∧
      ∀ n, n = .powerOn ∨ n = .powerOff ∨ n = .updateFull ∨ n = .updatePart ∨ n = .updateGrey → e ≠ .seq n

/-- A refresh or lifecycle command streams no byte: `XFERCNT` and `initial_write` stay, and unless the controller is reset, put to sleep or lost,
every byte of both planes stays (R56, R190, R191, R200, R201). The planes are the reference planes of R56 (log 20). -/
def Obligations.RefreshMovesNoPixels : Prop :=
  ∀ (i : Instr) (s t : State), Coherent s → ((∃ par, i = .rfsh par) ∨ i = .rfshr ∨ i = .pwroff ∨ i = .hiber) → exec i s = .next t →
    t.xferCnt = s.xferCnt ∧ t.initialWrite = s.initialWrite ∧
    (t.ctl.lost = false → s.hibernating = false → t.hibernating = false → SamePlane .cur s.ctl t.ctl ∧ SamePlane .prev s.ctl t.ctl)

/-- A plane stream to a controller that is not lost puts its bytes, row-major, into its window of its plane and changes no other byte of either
plane (R52, R56). -/
def Obligations.PlaneStreamLands : Prop :=
  ∀ (p : Panel) (c : Controller) (q q' : Plane) (r : Rect) (bytes : List Byte), WindowOk p r → c.lost = false → q' ≠ q →
    bytes.length = (r.h.toNat * (r.w / 8).toNat) →
    Lands p q r bytes c ((planeStream q r bytes).foldl (Controller.act p) c) ∧
    SamePlane q' c ((planeStream q r bytes).foldl (Controller.act p) c)

/-- An image write changes exactly its window: the bytes of the bitmap are in the plane (for 4G in both), and every other byte of both planes is as
it was (R56, R165 to R168). Awake, and after the first write; no `Wait` has timed out before. -/
def Obligations.ImageLandsInItsWindow : Prop :=
  ∀ (s : State) (b : Bpp) (inv mir pgm : Bool) (g : Geom), Coherent s → s.hibernating = false → s.initialWrite = false →
    s.ctl.lost = false → s.racing = [] →
    let m : ReadMode := ⟨inv, mir, spaceOf pgm⟩
    (∀ t i, ((i = .wimg inv mir pgm ∧ imageGeom s = some g) ∨ (i = .wimgp inv mir pgm ∧ partGeom s 8 = some g)) → exec i s = .next t →
      Lands s.panel .cur g.rect (monoPixels s m g) s.ctl t.ctl ∧ SamePlane .prev s.ctl t.ctl) ∧
    (∀ t i, s.panel.hasPrev = true →
      ((i = .wimg4 b inv mir pgm ∧ imageGeom s = some g) ∨ (i = .wimgp4 b inv mir pgm ∧ partGeom s (unitOf b) = some g)) →
      exec i s = .next t →
      Lands s.panel .cur g.rect (greyPixels s .cur b m g) s.ctl t.ctl ∧ Lands s.panel .prev g.rect (greyPixels s .prev b m g) s.ctl t.ctl)

/-! ### The machine as a whole -/

/-- What a command sends, its mode and flags, `DROP`, and whether it is refused depend on the descriptor, the mode and flags, the operands it uses
and the source memory, and on nothing else: not on `DIAG`, `XFERCNT`, `CMD`, the trace, the controller, the answers to `Wait`s or an operand
register it does not use (R8, R12, R17, R18, R76, R214). -/
def Obligations.OutcomeDependsOnInputsOnly : Prop :=
  ∀ (i : Instr) (s s' : State), Coherent s → SameInputs i s s' →
    (∀ r, exec i s = .refused r → exec i s' = .refused r) ∧
    ∀ t, exec i s = .next t → ∃ t' evs d, exec i s' = .next t' ∧ t'.life = t.life ∧
      t.trace = s.trace ++ evs ∧ t'.trace = s'.trace ++ evs ∧
      t.diag.drop = (s.diag.drop || d) ∧ t'.diag.drop = (s'.diag.drop || d)

/-- A command reads its footprint and nothing else of the source memories (R121): with every byte outside it changed, it does the same. -/
def Obligations.OnlyTheFootprintIsRead : Prop :=
  ∀ (i : Instr) (s : State) (ram pgm : List Host.Cell), s.racing = [] →
    let s' : State := { s with ram := ram, pgm := pgm }
    (∀ c, pictureOf i s = some c → ∀ n : Nat, (n : Int) < c.geom.h1 → ∀ q : Int,
      (c.geom.xs + c.geom.dx) / pixelsPerByte c.bpp ≤ q → q ≤ (c.geom.xs + c.geom.dx + c.geom.w1 - 1) / pixelsPerByte c.bpp →
      let a := s.srcAddr + srcRow c.geom c.read.mir n * stride c.geom.wb (bppBitsPer c.bpp) + q
      cellGet (s'.memory c.read.space) a.toNat = cellGet (s.memory c.read.space) a.toNat) →
    exec i s' = mapNext (fun t => { t with ram := ram, pgm := pgm }) (exec i s)

/-- `PGM` selects the space, 0 for `RAM` and 1 for `PGM`, and nothing else: with the two memories exchanged, the command with the other `PGM`
bit does the same (R42). -/
def Obligations.PgmOnlySelectsTheSpace : Prop :=
  spaceOf false = .ram ∧ spaceOf true = .pgm ∧
  ∀ (s : State) (b : Bpp) (inv mir pgm : Bool),
    exec (.wimg inv mir !pgm) s.swapSpaces = mapNext State.swapSpaces (exec (.wimg inv mir pgm) s) ∧
    exec (.wimgp inv mir !pgm) s.swapSpaces = mapNext State.swapSpaces (exec (.wimgp inv mir pgm) s) ∧
    exec (.wimg4 b inv mir !pgm) s.swapSpaces = mapNext State.swapSpaces (exec (.wimg4 b inv mir pgm) s) ∧
    exec (.wimgp4 b inv mir !pgm) s.swapSpaces = mapNext State.swapSpaces (exec (.wimgp4 b inv mir pgm) s) ∧
    exec (.dimg inv mir !pgm) s.swapSpaces = mapNext State.swapSpaces (exec (.dimg inv mir pgm) s) ∧
    exec (.dimgp inv mir !pgm) s.swapSpaces = mapNext State.swapSpaces (exec (.dimgp inv mir pgm) s) ∧
    exec (.dimg4 b inv mir !pgm) s.swapSpaces = mapNext State.swapSpaces (exec (.dimg4 b inv mir pgm) s) ∧
    exec (.dimgp4 b inv mir !pgm) s.swapSpaces = mapNext State.swapSpaces (exec (.dimgp4 b inv mir pgm) s)

/-- `Reset` is sent only to a controller in deep sleep, and to one in deep sleep nothing is sent before `Reset` and the full init (R54, R131, R201,
R244(c)). -/
def Obligations.WakeBeforeAnythingElse : Prop :=
  ∀ (i : Instr) (s t : State), Coherent s → exec i s = .next t →
    ∃ evs, t.trace = s.trace ++ evs ∧
      (s.hibernating = false → .reset ∉ evs) ∧
      (s.hibernating = true → (evs = [] ∧ t.hibernating = true) ∨
        (t.hibernating = false ∧ ∃ rest, evs = .reset :: .seq .initFull :: rest ∧ .reset ∉ rest))

/-- No single command sets two different flags (R217(5)). -/
def Obligations.OneFlagPerCommand : Prop :=
  ∀ (i : Instr) (s t : State), Coherent s → s.diag = ⟨false, false, false, false⟩ → exec i s = .next t →
    t.diag = ⟨false, false, false, false⟩ ∨ t.diag = ⟨true, false, false, false⟩ ∨ t.diag = ⟨false, true, false, false⟩ ∨
    (t.diag = ⟨false, false, true, false⟩ ∧ i.isFourGrey = true ∧ s.panel.hasPrev = false)

/-- A `Wait` answered timed out sets `TIMEOUT` and leaves the controller unspecified, one answered ready does neither, and nothing else does
either: the answers listed are those of the command's `Wait`s, in order (R53, R57, R214; where the list ends the answers are free, log 6). -/
def Obligations.TimeoutLosesTheController : Prop :=
  ∀ (i : Instr) (s t : State), exec i s = .next t →
    (∃ evs, t.trace = s.trace ++ evs ∧
      (evs.countP Event.isWait ≤ s.answers.length →
        t.answers = s.answers.drop (evs.countP Event.isWait) ∧
        t.diag.timeout = (s.diag.timeout || (s.answers.take (evs.countP Event.isWait)).any (· == .timedOut)))) ∧
    (s.diag.timeout = false → s.ctl.lost = false → (t.diag.timeout = true ↔ t.ctl.lost = true))

/-- What the first command after block reset does, for each command (R234). -/
def Obligations.FirstCommandAfterReset : Prop :=
  ∀ (s : State) (v : Byte) (b : Bpp) (inv mir pgm par : Bool), s.life = (State.resetFor s.panel).life → s.racing = [] →
    let p := s.panel
    let m : ReadMode := ⟨inv, mir, spaceOf pgm⟩
    let fills := fillEvents p .cur p.initFill ++ (if p.hasPrev then fillEvents p .prev p.initFill else [])
    let full : List Event := [.seq .powerOn, .wait .pon, .seq .updateFull, .wait .full]
    let mono := fun g : Geom => .seq .initFull :: (fills ++ .seq .initPart :: planeStream .cur g.rect (monoPixels s m g))
    let grey := fun g : Geom => .seq .initFull :: (fills ++ .seq .initGrey ::
      (planeStream .cur g.rect (greyPixels s .cur b m g) ++ planeStream .prev g.rect (greyPixels s .prev b m g)))
    let again := p.diffUpdate && p.hasPrev
    let second := fun g : Geom => if again then .seq .initPart :: planeStream .prev g.rect (monoPixels s m g) else []
    Completes (.wsb v) s (.seq .initFull :: fillEvents p .cur v) false ⟨.fullRefresh, false, false, false, true, true⟩ ∧
    Completes (.wsba v) s (.seq .initFull :: fillEvents p (if p.hasPrev then .prev else .cur) v) false
      ⟨.fullRefresh, false, false, true, true, true⟩ ∧
    Completes (.clrs v) s (.seq .initFull :: (fillEvents p .cur v ++ (if p.hasPrev then fillEvents p .prev v else []) ++ full)) false
      ⟨.fullRefresh, true, false, false, false, true⟩ ∧
    (∀ g i, ((i = .wimg inv mir pgm ∧ imageGeom s = some g) ∨ (i = .wimgp inv mir pgm ∧ partGeom s 8 = some g)) →
      Readable s m.space g mir .one → Completes i s (mono g) false ⟨.fastRefresh, false, false, false, true, true⟩) ∧
    (∀ g i, p.hasPrev = true →
      ((i = .wimg4 b inv mir pgm ∧ imageGeom s = some g) ∨ (i = .wimgp4 b inv mir pgm ∧ partGeom s (unitOf b) = some g)) →
      Readable s m.space g mir b → Completes i s (grey g) false ⟨.greyRefresh, false, false, false, true, true⟩) ∧
    (∀ g i, ((i = .dimg inv mir pgm ∧ imageGeom s = some g) ∨ (i = .dimgp inv mir pgm ∧ partGeom s 8 = some g)) →
      Readable s m.space g mir .one →
      Completes i s (mono g ++ .seq .initFull :: full ++ second g) false
        ⟨if again then .fastRefresh else .fullRefresh, true, false, false, false, true⟩) ∧
    (∀ g i, p.hasPrev = true →
      ((i = .dimg4 b inv mir pgm ∧ imageGeom s = some g) ∨ (i = .dimgp4 b inv mir pgm ∧ partGeom s (unitOf b) = some g)) →
      Readable s m.space g mir b →
      Completes i s (grey g ++ [.seq .powerOn, .wait .pon, .window ⟨0, 0, planeW p, p.height⟩, .seq .updateGrey, .wait .grey]) false
        ⟨.greyRefresh, true, false, false, false, true⟩) ∧
    (imageGeom s = none → Completes (.wimg inv mir pgm) s [] true s.life ∧ Completes (.dimg inv mir pgm) s [] true s.life ∧
      (p.hasPrev = true → Completes (.wimg4 b inv mir pgm) s [] true s.life ∧ Completes (.dimg4 b inv mir pgm) s [] true s.life)) ∧
    (partGeom s 8 = none → Completes (.wimgp inv mir pgm) s [] true s.life ∧ Completes (.dimgp inv mir pgm) s [] true s.life) ∧
    (partGeom s (unitOf b) = none → p.hasPrev = true →
      Completes (.wimgp4 b inv mir pgm) s [] true s.life ∧ Completes (.dimgp4 b inv mir pgm) s [] true s.life) ∧
    Completes (.rfsh par) s (.seq .initFull :: full) false ⟨.fullRefresh, true, false, true, false, true⟩ ∧
    Completes .rfshr s (.seq .initFull :: full) false ⟨.fullRefresh, true, false, true, false, true⟩ ∧
    Completes .pwroff s [] false s.life ∧
    (p.hasReset = true → Completes .hiber s [.seq .deepSleep] false ⟨.fullRefresh, false, true, true, true, false⟩) ∧
    (p.hasReset = false → Completes .hiber s [] false s.life)

/-! ### Invariants that every step keeps -/

/-- (I-a), (I-b) and (I-c) of R27, and that no command is left running (R26). -/
def Obligations.CoherenceKept : Prop :=
  ∀ s t : State, Coherent s → s.busy = false → step s = .next t → Coherent t ∧ t.busy = false

/-- Both source memories stay in canonical form (log 10). -/
def Obligations.MemoriesKept : Prop :=
  ∀ s t : State, MemoriesOk s → step s = .next t → MemoriesOk t

/-- The trace stays a run of the transport protocol: windows valid, streams bracketed and of the window's length, `PREV` only where there is one,
every power and update sequence followed by its `Wait` (R50 to R53, R59), a partial or greyscale update right after its window (R190, R191),
`Reset` by the full init (R54, R131, R132). -/
def Obligations.ProtocolKept : Prop :=
  ∀ s t : State, PanelOk s.panel → Coherent s → ProtocolOk s → step s = .next t → PanelOk t.panel ∧ ProtocolOk t

/-- Every update in the trace stays one for which the controller was powered and held the update's LUT, and the state agrees with the trace on both
(R130, R143, R190, R191). -/
def Obligations.UpdatesKept : Prop :=
  ∀ s t : State, Coherent s → UpdatesOk s → step s = .next t → UpdatesOk t

/-- The engine's belief about the controller stays right (R28, R130, R202). The controller is the reference model of R56, R57; log 13. -/
def Obligations.BeliefKept : Prop :=
  ∀ s t : State, Coherent s → BeliefRight s → step s = .next t → BeliefRight t

/-- `initial_refresh = 0` means that a full refresh has completed since block reset (R27 (I-d)), and every partial update in the trace comes after a
full refresh (R191, R244(a)). -/
def Obligations.FullRefreshComesFirst : Prop :=
  ∀ s t : State, Coherent s → (s.initialRefresh = false → fullRefreshIn s.panel s.trace) → PartialAfterFull s.panel s.trace →
    step s = .next t → (t.initialRefresh = false → fullRefreshIn t.panel t.trace) ∧ PartialAfterFull t.panel t.trace

/-- Every invariant above holds after reset, for every descriptor of R6. -/
def Obligations.ResetMeetsInvariants : Prop :=
  ∀ p : Panel, PanelOk p →
    let s := State.resetFor p
    Coherent s ∧ s.busy = false ∧ MemoriesOk s ∧ PanelOk s.panel ∧ ProtocolOk s ∧ UpdatesOk s ∧ BeliefRight s ∧
    (s.initialRefresh = false → fullRefreshIn s.panel s.trace) ∧ PartialAfterFull s.panel s.trace
end

