-- ==== Sys2Proof/Laws/State.lean ====
section
/-! SUPPORT. One lemma per field per update of State, so that no proof unfolds a record update. -/

namespace Sys2Proof.Machine

variable (s : State)

/-! ### `note` changes the moments and nothing else -/

@[simp] theorem note_x : (note s).x = s.x := rfl
@[simp] theorem note_y : (note s).y = s.y := rfl
@[simp] theorem note_w : (note s).w = s.w := rfl
@[simp] theorem note_h : (note s).h = s.h := rfl
@[simp] theorem note_xPart : (note s).xPart = s.xPart := rfl
@[simp] theorem note_yPart : (note s).yPart = s.yPart := rfl
@[simp] theorem note_wBitmap : (note s).wBitmap = s.wBitmap := rfl
@[simp] theorem note_hBitmap : (note s).hBitmap = s.hBitmap := rfl
@[simp] theorem note_src : (note s).src = s.src := rfl
@[simp] theorem note_cmd : (note s).cmd = s.cmd := rfl
@[simp] theorem note_mode : (note s).mode = s.mode := rfl
@[simp] theorem note_powerIsOn : (note s).powerIsOn = s.powerIsOn := rfl
@[simp] theorem note_hibernating : (note s).hibernating = s.hibernating := rfl
@[simp] theorem note_initialWrite : (note s).initialWrite = s.initialWrite := rfl
@[simp] theorem note_initialRefresh : (note s).initialRefresh = s.initialRefresh := rfl
@[simp] theorem note_initDone : (note s).initDone = s.initDone := rfl
@[simp] theorem note_busy : (note s).busy = s.busy := rfl
@[simp] theorem note_diag : (note s).diag = s.diag := rfl
@[simp] theorem note_xferCnt : (note s).xferCnt = s.xferCnt := rfl
@[simp] theorem note_panel : (note s).panel = s.panel := rfl
@[simp] theorem note_ram : (note s).ram = s.ram := rfl
@[simp] theorem note_pgm : (note s).pgm = s.pgm := rfl
@[simp] theorem note_trace : (note s).trace = s.trace := rfl
@[simp] theorem note_ctl : (note s).ctl = s.ctl := rfl
@[simp] theorem note_answers : (note s).answers = s.answers := rfl
@[simp] theorem note_hostq : (note s).hostq = s.hostq := rfl
@[simp] theorem note_racing : (note s).racing = s.racing := rfl
@[simp] theorem note_rdata : (note s).rdata = s.rdata := rfl
@[simp] theorem note_draws : (note s).draws = s.draws := rfl
@[simp] theorem note_seen : (note s).seen = s.seen ++ [s.live] := rfl
@[simp] theorem note_life : (note s).life = s.life := rfl
@[simp] theorem note_live : (note s).live = s.live := rfl

/-! ### The moments of a list of events -/

theorem moments_append (v : Live) (a b : List Event) :
    moments v (a ++ b) = moments v a ++ moments { v with xferCnt := v.xferCnt + BitVec.ofNat 32 (a.countP Event.isXfer) } b := by
  induction a generalizing v with
  | nil => simp [moments]
  | cons e l ih =>
    rw [List.cons_append, moments, ih, moments]
    cases h : e.isXfer <;> simp [h, BitVec.ofNat_add, BitVec.add_assoc, BitVec.add_comm 1#32]

/-! ### `emitAll` changes the trace, the counter, the moments and the controller -/

@[simp] theorem emitAll_x (evs : List Event) : (emitAll evs s).x = s.x := rfl
@[simp] theorem emitAll_y (evs : List Event) : (emitAll evs s).y = s.y := rfl
@[simp] theorem emitAll_w (evs : List Event) : (emitAll evs s).w = s.w := rfl
@[simp] theorem emitAll_h (evs : List Event) : (emitAll evs s).h = s.h := rfl
@[simp] theorem emitAll_xPart (evs : List Event) : (emitAll evs s).xPart = s.xPart := rfl
@[simp] theorem emitAll_yPart (evs : List Event) : (emitAll evs s).yPart = s.yPart := rfl
@[simp] theorem emitAll_wBitmap (evs : List Event) : (emitAll evs s).wBitmap = s.wBitmap := rfl
@[simp] theorem emitAll_hBitmap (evs : List Event) : (emitAll evs s).hBitmap = s.hBitmap := rfl
@[simp] theorem emitAll_src (evs : List Event) : (emitAll evs s).src = s.src := rfl
@[simp] theorem emitAll_cmd (evs : List Event) : (emitAll evs s).cmd = s.cmd := rfl
@[simp] theorem emitAll_mode (evs : List Event) : (emitAll evs s).mode = s.mode := rfl
@[simp] theorem emitAll_powerIsOn (evs : List Event) : (emitAll evs s).powerIsOn = s.powerIsOn := rfl
@[simp] theorem emitAll_hibernating (evs : List Event) : (emitAll evs s).hibernating = s.hibernating := rfl
@[simp] theorem emitAll_initialWrite (evs : List Event) : (emitAll evs s).initialWrite = s.initialWrite := rfl
@[simp] theorem emitAll_initialRefresh (evs : List Event) : (emitAll evs s).initialRefresh = s.initialRefresh := rfl
@[simp] theorem emitAll_initDone (evs : List Event) : (emitAll evs s).initDone = s.initDone := rfl
@[simp] theorem emitAll_busy (evs : List Event) : (emitAll evs s).busy = s.busy := rfl
@[simp] theorem emitAll_diag (evs : List Event) : (emitAll evs s).diag = s.diag := rfl
@[simp] theorem emitAll_xferCnt (evs : List Event) :
    (emitAll evs s).xferCnt = s.xferCnt + BitVec.ofNat 32 (evs.countP Event.isXfer) := rfl
@[simp] theorem emitAll_panel (evs : List Event) : (emitAll evs s).panel = s.panel := rfl
@[simp] theorem emitAll_ram (evs : List Event) : (emitAll evs s).ram = s.ram := rfl
@[simp] theorem emitAll_pgm (evs : List Event) : (emitAll evs s).pgm = s.pgm := rfl
@[simp] theorem emitAll_trace (evs : List Event) : (emitAll evs s).trace = s.trace ++ evs := rfl
@[simp] theorem emitAll_ctl (evs : List Event) :
    (emitAll evs s).ctl = evs.foldl (Controller.act s.panel) s.ctl := rfl
@[simp] theorem emitAll_answers (evs : List Event) : (emitAll evs s).answers = s.answers := rfl
@[simp] theorem emitAll_hostq (evs : List Event) : (emitAll evs s).hostq = s.hostq := rfl
@[simp] theorem emitAll_racing (evs : List Event) : (emitAll evs s).racing = s.racing := rfl
@[simp] theorem emitAll_seen (evs : List Event) : (emitAll evs s).seen = s.seen ++ moments s.live evs := rfl
@[simp] theorem emitAll_life (evs : List Event) : (emitAll evs s).life = s.life := rfl
@[simp] theorem emitAll_rdata (evs : List Event) : (emitAll evs s).rdata = s.rdata := rfl
@[simp] theorem emitAll_draws (evs : List Event) : (emitAll evs s).draws = s.draws := rfl

/-- A plane stream leaves mode and flags alone (R110). -/
@[simp] theorem streamPlane_life (q : Plane) (r : Rect) (l : List Byte) : (streamPlane q r l s).life = s.life := rfl

@[simp] theorem emit_eq (e : Event) : emit e s = emitAll [e] s := rfl

/-- Emitting nothing changes nothing. -/
@[simp] theorem emitAll_nil : emitAll [] s = s := by cases s; simp [emitAll, moments]

/-- Two emissions are one (R47: events are appended in order). -/
@[simp] theorem emitAll_emitAll (a b : List Event) : emitAll b (emitAll a s) = emitAll (a ++ b) s := by
  simp [emitAll, moments_append, State.live, State.life, BitVec.ofNat_add, BitVec.add_assoc]

/-! ### The `diag` operations change one flag -/

@[simp] theorem setDrop_x : (setDrop s).x = s.x := rfl
@[simp] theorem setDrop_y : (setDrop s).y = s.y := rfl
@[simp] theorem setDrop_w : (setDrop s).w = s.w := rfl
@[simp] theorem setDrop_h : (setDrop s).h = s.h := rfl
@[simp] theorem setDrop_xPart : (setDrop s).xPart = s.xPart := rfl
@[simp] theorem setDrop_yPart : (setDrop s).yPart = s.yPart := rfl
@[simp] theorem setDrop_wBitmap : (setDrop s).wBitmap = s.wBitmap := rfl
@[simp] theorem setDrop_hBitmap : (setDrop s).hBitmap = s.hBitmap := rfl
@[simp] theorem setDrop_src : (setDrop s).src = s.src := rfl
@[simp] theorem setDrop_cmd : (setDrop s).cmd = s.cmd := rfl
@[simp] theorem setDrop_mode : (setDrop s).mode = s.mode := rfl
@[simp] theorem setDrop_powerIsOn : (setDrop s).powerIsOn = s.powerIsOn := rfl
@[simp] theorem setDrop_hibernating : (setDrop s).hibernating = s.hibernating := rfl
@[simp] theorem setDrop_initialWrite : (setDrop s).initialWrite = s.initialWrite := rfl
@[simp] theorem setDrop_initialRefresh : (setDrop s).initialRefresh = s.initialRefresh := rfl
@[simp] theorem setDrop_initDone : (setDrop s).initDone = s.initDone := rfl
@[simp] theorem setDrop_busy : (setDrop s).busy = s.busy := rfl
@[simp] theorem setDrop_diag : (setDrop s).diag = { s.diag with drop := true } := rfl
@[simp] theorem setDrop_xferCnt : (setDrop s).xferCnt = s.xferCnt := rfl
@[simp] theorem setDrop_panel : (setDrop s).panel = s.panel := rfl
@[simp] theorem setDrop_ram : (setDrop s).ram = s.ram := rfl
@[simp] theorem setDrop_pgm : (setDrop s).pgm = s.pgm := rfl
@[simp] theorem setDrop_trace : (setDrop s).trace = s.trace := rfl
@[simp] theorem setDrop_ctl : (setDrop s).ctl = s.ctl := rfl
@[simp] theorem setDrop_answers : (setDrop s).answers = s.answers := rfl
@[simp] theorem setDrop_hostq : (setDrop s).hostq = s.hostq := rfl
@[simp] theorem setDrop_racing : (setDrop s).racing = s.racing := rfl
@[simp] theorem setDrop_seen : (setDrop s).seen = s.seen := rfl
@[simp] theorem setDrop_rdata : (setDrop s).rdata = s.rdata := rfl
@[simp] theorem setDrop_draws : (setDrop s).draws = s.draws := rfl

@[simp] theorem setTimeout_x : (setTimeout s).x = s.x := rfl
@[simp] theorem setTimeout_y : (setTimeout s).y = s.y := rfl
@[simp] theorem setTimeout_w : (setTimeout s).w = s.w := rfl
@[simp] theorem setTimeout_h : (setTimeout s).h = s.h := rfl
@[simp] theorem setTimeout_xPart : (setTimeout s).xPart = s.xPart := rfl
@[simp] theorem setTimeout_yPart : (setTimeout s).yPart = s.yPart := rfl
@[simp] theorem setTimeout_wBitmap : (setTimeout s).wBitmap = s.wBitmap := rfl
@[simp] theorem setTimeout_hBitmap : (setTimeout s).hBitmap = s.hBitmap := rfl
@[simp] theorem setTimeout_src : (setTimeout s).src = s.src := rfl
@[simp] theorem setTimeout_cmd : (setTimeout s).cmd = s.cmd := rfl
@[simp] theorem setTimeout_mode : (setTimeout s).mode = s.mode := rfl
@[simp] theorem setTimeout_powerIsOn : (setTimeout s).powerIsOn = s.powerIsOn := rfl
@[simp] theorem setTimeout_hibernating : (setTimeout s).hibernating = s.hibernating := rfl
@[simp] theorem setTimeout_initialWrite : (setTimeout s).initialWrite = s.initialWrite := rfl
@[simp] theorem setTimeout_initialRefresh : (setTimeout s).initialRefresh = s.initialRefresh := rfl
@[simp] theorem setTimeout_initDone : (setTimeout s).initDone = s.initDone := rfl
@[simp] theorem setTimeout_busy : (setTimeout s).busy = s.busy := rfl
@[simp] theorem setTimeout_diag : (setTimeout s).diag = { s.diag with timeout := true } := rfl
@[simp] theorem setTimeout_xferCnt : (setTimeout s).xferCnt = s.xferCnt := rfl
@[simp] theorem setTimeout_panel : (setTimeout s).panel = s.panel := rfl
@[simp] theorem setTimeout_ram : (setTimeout s).ram = s.ram := rfl
@[simp] theorem setTimeout_pgm : (setTimeout s).pgm = s.pgm := rfl
@[simp] theorem setTimeout_trace : (setTimeout s).trace = s.trace := rfl
@[simp] theorem setTimeout_ctl : (setTimeout s).ctl = s.ctl := rfl
@[simp] theorem setTimeout_answers : (setTimeout s).answers = s.answers := rfl
@[simp] theorem setTimeout_hostq : (setTimeout s).hostq = s.hostq := rfl
@[simp] theorem setTimeout_racing : (setTimeout s).racing = s.racing := rfl
@[simp] theorem setTimeout_seen : (setTimeout s).seen = s.seen := rfl
@[simp] theorem setTimeout_rdata : (setTimeout s).rdata = s.rdata := rfl
@[simp] theorem setTimeout_draws : (setTimeout s).draws = s.draws := rfl

@[simp] theorem setIllegal_x : (setIllegal s).x = s.x := rfl
@[simp] theorem setIllegal_y : (setIllegal s).y = s.y := rfl
@[simp] theorem setIllegal_w : (setIllegal s).w = s.w := rfl
@[simp] theorem setIllegal_h : (setIllegal s).h = s.h := rfl
@[simp] theorem setIllegal_xPart : (setIllegal s).xPart = s.xPart := rfl
@[simp] theorem setIllegal_yPart : (setIllegal s).yPart = s.yPart := rfl
@[simp] theorem setIllegal_wBitmap : (setIllegal s).wBitmap = s.wBitmap := rfl
@[simp] theorem setIllegal_hBitmap : (setIllegal s).hBitmap = s.hBitmap := rfl
@[simp] theorem setIllegal_src : (setIllegal s).src = s.src := rfl
@[simp] theorem setIllegal_cmd : (setIllegal s).cmd = s.cmd := rfl
@[simp] theorem setIllegal_mode : (setIllegal s).mode = s.mode := rfl
@[simp] theorem setIllegal_powerIsOn : (setIllegal s).powerIsOn = s.powerIsOn := rfl
@[simp] theorem setIllegal_hibernating : (setIllegal s).hibernating = s.hibernating := rfl
@[simp] theorem setIllegal_initialWrite : (setIllegal s).initialWrite = s.initialWrite := rfl
@[simp] theorem setIllegal_initialRefresh : (setIllegal s).initialRefresh = s.initialRefresh := rfl
@[simp] theorem setIllegal_initDone : (setIllegal s).initDone = s.initDone := rfl
@[simp] theorem setIllegal_busy : (setIllegal s).busy = s.busy := rfl
@[simp] theorem setIllegal_diag : (setIllegal s).diag = { s.diag with illegal := true } := rfl
@[simp] theorem setIllegal_xferCnt : (setIllegal s).xferCnt = s.xferCnt := rfl
@[simp] theorem setIllegal_panel : (setIllegal s).panel = s.panel := rfl
@[simp] theorem setIllegal_ram : (setIllegal s).ram = s.ram := rfl
@[simp] theorem setIllegal_pgm : (setIllegal s).pgm = s.pgm := rfl
@[simp] theorem setIllegal_trace : (setIllegal s).trace = s.trace := rfl
@[simp] theorem setIllegal_ctl : (setIllegal s).ctl = s.ctl := rfl
@[simp] theorem setIllegal_answers : (setIllegal s).answers = s.answers := rfl
@[simp] theorem setIllegal_hostq : (setIllegal s).hostq = s.hostq := rfl
@[simp] theorem setIllegal_racing : (setIllegal s).racing = s.racing := rfl
@[simp] theorem setIllegal_seen : (setIllegal s).seen = s.seen := rfl
@[simp] theorem setIllegal_rdata : (setIllegal s).rdata = s.rdata := rfl
@[simp] theorem setIllegal_draws : (setIllegal s).draws = s.draws := rfl

@[simp] theorem setBusyWr_x : (setBusyWr s).x = s.x := rfl
@[simp] theorem setBusyWr_y : (setBusyWr s).y = s.y := rfl
@[simp] theorem setBusyWr_w : (setBusyWr s).w = s.w := rfl
@[simp] theorem setBusyWr_h : (setBusyWr s).h = s.h := rfl
@[simp] theorem setBusyWr_xPart : (setBusyWr s).xPart = s.xPart := rfl
@[simp] theorem setBusyWr_yPart : (setBusyWr s).yPart = s.yPart := rfl
@[simp] theorem setBusyWr_wBitmap : (setBusyWr s).wBitmap = s.wBitmap := rfl
@[simp] theorem setBusyWr_hBitmap : (setBusyWr s).hBitmap = s.hBitmap := rfl
@[simp] theorem setBusyWr_src : (setBusyWr s).src = s.src := rfl
@[simp] theorem setBusyWr_cmd : (setBusyWr s).cmd = s.cmd := rfl
@[simp] theorem setBusyWr_mode : (setBusyWr s).mode = s.mode := rfl
@[simp] theorem setBusyWr_powerIsOn : (setBusyWr s).powerIsOn = s.powerIsOn := rfl
@[simp] theorem setBusyWr_hibernating : (setBusyWr s).hibernating = s.hibernating := rfl
@[simp] theorem setBusyWr_initialWrite : (setBusyWr s).initialWrite = s.initialWrite := rfl
@[simp] theorem setBusyWr_initialRefresh : (setBusyWr s).initialRefresh = s.initialRefresh := rfl
@[simp] theorem setBusyWr_initDone : (setBusyWr s).initDone = s.initDone := rfl
@[simp] theorem setBusyWr_busy : (setBusyWr s).busy = s.busy := rfl
@[simp] theorem setBusyWr_diag : (setBusyWr s).diag = { s.diag with busyWr := true } := rfl
@[simp] theorem setBusyWr_xferCnt : (setBusyWr s).xferCnt = s.xferCnt := rfl
@[simp] theorem setBusyWr_panel : (setBusyWr s).panel = s.panel := rfl
@[simp] theorem setBusyWr_ram : (setBusyWr s).ram = s.ram := rfl
@[simp] theorem setBusyWr_pgm : (setBusyWr s).pgm = s.pgm := rfl
@[simp] theorem setBusyWr_trace : (setBusyWr s).trace = s.trace := rfl
@[simp] theorem setBusyWr_ctl : (setBusyWr s).ctl = s.ctl := rfl
@[simp] theorem setBusyWr_answers : (setBusyWr s).answers = s.answers := rfl
@[simp] theorem setBusyWr_hostq : (setBusyWr s).hostq = s.hostq := rfl
@[simp] theorem setBusyWr_racing : (setBusyWr s).racing = s.racing := rfl
@[simp] theorem setBusyWr_seen : (setBusyWr s).seen = s.seen := rfl
@[simp] theorem setBusyWr_rdata : (setBusyWr s).rdata = s.rdata := rfl
@[simp] theorem setBusyWr_draws : (setBusyWr s).draws = s.draws := rfl

/-! ### Taking an answer changes the list of answers or the counter of free ones -/

@[simp] theorem takeAnswer_x : (takeAnswer s).2.x = s.x := by unfold takeAnswer; split <;> rfl
@[simp] theorem takeAnswer_y : (takeAnswer s).2.y = s.y := by unfold takeAnswer; split <;> rfl
@[simp] theorem takeAnswer_w : (takeAnswer s).2.w = s.w := by unfold takeAnswer; split <;> rfl
@[simp] theorem takeAnswer_h : (takeAnswer s).2.h = s.h := by unfold takeAnswer; split <;> rfl
@[simp] theorem takeAnswer_xPart : (takeAnswer s).2.xPart = s.xPart := by unfold takeAnswer; split <;> rfl
@[simp] theorem takeAnswer_yPart : (takeAnswer s).2.yPart = s.yPart := by unfold takeAnswer; split <;> rfl
@[simp] theorem takeAnswer_wBitmap : (takeAnswer s).2.wBitmap = s.wBitmap := by unfold takeAnswer; split <;> rfl
@[simp] theorem takeAnswer_hBitmap : (takeAnswer s).2.hBitmap = s.hBitmap := by unfold takeAnswer; split <;> rfl
@[simp] theorem takeAnswer_src : (takeAnswer s).2.src = s.src := by unfold takeAnswer; split <;> rfl
@[simp] theorem takeAnswer_cmd : (takeAnswer s).2.cmd = s.cmd := by unfold takeAnswer; split <;> rfl
@[simp] theorem takeAnswer_mode : (takeAnswer s).2.mode = s.mode := by unfold takeAnswer; split <;> rfl
@[simp] theorem takeAnswer_powerIsOn : (takeAnswer s).2.powerIsOn = s.powerIsOn := by unfold takeAnswer; split <;> rfl
@[simp] theorem takeAnswer_hibernating : (takeAnswer s).2.hibernating = s.hibernating := by unfold takeAnswer; split <;> rfl
@[simp] theorem takeAnswer_initialWrite : (takeAnswer s).2.initialWrite = s.initialWrite := by unfold takeAnswer; split <;> rfl
@[simp] theorem takeAnswer_initialRefresh : (takeAnswer s).2.initialRefresh = s.initialRefresh := by unfold takeAnswer; split <;> rfl
@[simp] theorem takeAnswer_initDone : (takeAnswer s).2.initDone = s.initDone := by unfold takeAnswer; split <;> rfl
@[simp] theorem takeAnswer_busy : (takeAnswer s).2.busy = s.busy := by unfold takeAnswer; split <;> rfl
@[simp] theorem takeAnswer_diag : (takeAnswer s).2.diag = s.diag := by unfold takeAnswer; split <;> rfl
@[simp] theorem takeAnswer_xferCnt : (takeAnswer s).2.xferCnt = s.xferCnt := by unfold takeAnswer; split <;> rfl
@[simp] theorem takeAnswer_panel : (takeAnswer s).2.panel = s.panel := by unfold takeAnswer; split <;> rfl
@[simp] theorem takeAnswer_ram : (takeAnswer s).2.ram = s.ram := by unfold takeAnswer; split <;> rfl
@[simp] theorem takeAnswer_pgm : (takeAnswer s).2.pgm = s.pgm := by unfold takeAnswer; split <;> rfl
@[simp] theorem takeAnswer_trace : (takeAnswer s).2.trace = s.trace := by unfold takeAnswer; split <;> rfl
@[simp] theorem takeAnswer_ctl : (takeAnswer s).2.ctl = s.ctl := by unfold takeAnswer; split <;> rfl
@[simp] theorem takeAnswer_hostq : (takeAnswer s).2.hostq = s.hostq := by unfold takeAnswer; split <;> rfl
@[simp] theorem takeAnswer_racing : (takeAnswer s).2.racing = s.racing := by unfold takeAnswer; split <;> rfl
@[simp] theorem takeAnswer_seen : (takeAnswer s).2.seen = s.seen := by unfold takeAnswer; split <;> rfl
@[simp] theorem takeAnswer_rdata : (takeAnswer s).2.rdata = s.rdata := by unfold takeAnswer; split <;> rfl

/-! ### `wait` changes the trace, the answers and their counter, `DIAG`, the moments and the controller -/

@[simp] theorem wait_x (c : WaitClass) : (wait c s).x = s.x := by simp [wait]
@[simp] theorem wait_y (c : WaitClass) : (wait c s).y = s.y := by simp [wait]
@[simp] theorem wait_w (c : WaitClass) : (wait c s).w = s.w := by simp [wait]
@[simp] theorem wait_h (c : WaitClass) : (wait c s).h = s.h := by simp [wait]
@[simp] theorem wait_xPart (c : WaitClass) : (wait c s).xPart = s.xPart := by simp [wait]
@[simp] theorem wait_yPart (c : WaitClass) : (wait c s).yPart = s.yPart := by simp [wait]
@[simp] theorem wait_wBitmap (c : WaitClass) : (wait c s).wBitmap = s.wBitmap := by simp [wait]
@[simp] theorem wait_hBitmap (c : WaitClass) : (wait c s).hBitmap = s.hBitmap := by simp [wait]
@[simp] theorem wait_src (c : WaitClass) : (wait c s).src = s.src := by simp [wait]
@[simp] theorem wait_cmd (c : WaitClass) : (wait c s).cmd = s.cmd := by simp [wait]
@[simp] theorem wait_mode (c : WaitClass) : (wait c s).mode = s.mode := by simp [wait]
@[simp] theorem wait_powerIsOn (c : WaitClass) : (wait c s).powerIsOn = s.powerIsOn := by simp [wait]
@[simp] theorem wait_hibernating (c : WaitClass) : (wait c s).hibernating = s.hibernating := by simp [wait]
@[simp] theorem wait_initialWrite (c : WaitClass) : (wait c s).initialWrite = s.initialWrite := by simp [wait]
@[simp] theorem wait_initialRefresh (c : WaitClass) : (wait c s).initialRefresh = s.initialRefresh := by simp [wait]
@[simp] theorem wait_initDone (c : WaitClass) : (wait c s).initDone = s.initDone := by simp [wait]
@[simp] theorem wait_busy (c : WaitClass) : (wait c s).busy = s.busy := by simp [wait]
@[simp] theorem wait_xferCnt (c : WaitClass) : (wait c s).xferCnt = s.xferCnt := by simp [wait, Event.isXfer]
@[simp] theorem wait_panel (c : WaitClass) : (wait c s).panel = s.panel := by simp [wait]
@[simp] theorem wait_ram (c : WaitClass) : (wait c s).ram = s.ram := by simp [wait]
@[simp] theorem wait_pgm (c : WaitClass) : (wait c s).pgm = s.pgm := by simp [wait]
@[simp] theorem wait_trace (c : WaitClass) : (wait c s).trace = s.trace ++ [.wait c] := by simp [wait]
@[simp] theorem wait_hostq (c : WaitClass) : (wait c s).hostq = s.hostq := by simp [wait]
@[simp] theorem wait_racing (c : WaitClass) : (wait c s).racing = s.racing := by simp [wait]
@[simp] theorem wait_rdata (c : WaitClass) : (wait c s).rdata = s.rdata := by simp [wait]

end Sys2Proof.Machine
end

