-- ==== Sys2Proof/Laws/Cells.lean ====
section
/-! SUPPORT. Bytes at addresses: read after write, and every memory operation keeps the canonical form. -/

namespace Sys2Proof.Machine

/-- A read at the address just written gives the byte written. -/
@[simp] theorem cellGet_cellSet_same (m : List Host.Cell) (a : Nat) (b : Byte) : cellGet (cellSet m a b) a = some b := by
  induction m with
  | nil => simp [cellSet, cellGet]
  | cons c m ih =>
    obtain ⟨k, v⟩ := c
    unfold cellSet
    split
    · simp [cellGet, *]
    · split <;> simp [cellGet, *]

/-- A write leaves every other address alone. -/
theorem cellGet_cellSet_other (m : List Host.Cell) {a k : Nat} (b : Byte) (h : k ≠ a) : cellGet (cellSet m a b) k = cellGet m k := by
  induction m with
  | nil => simp [cellSet, cellGet, h]
  | cons c m ih =>
    obtain ⟨j, v⟩ := c
    unfold cellSet
    split
    · simp [cellGet, show k ≠ j by omega]
    · split
      · by_cases hk : k < a
        · simp [cellGet, hk, h, show k ≠ j by omega, show k < j by omega]
        · simp [cellGet, h, hk]
      · simp [cellGet, ih]

theorem cellGet_cellSet (m : List Host.Cell) (a k : Nat) (b : Byte) :
    cellGet (cellSet m a b) k = if k = a then some b else cellGet m k := by
  split <;> [(subst k; simp); exact cellGet_cellSet_other m b ‹_›]

theorem cellsAbove_cellSet (m : List Host.Cell) (lo a : Nat) (b : Byte) (h : cellsAbove lo m = true) (ha : lo < a) :
    cellsAbove lo (cellSet m a b) = true := by
  induction m generalizing lo with
  | nil => simp [cellSet, cellsAbove, ha]
  | cons c m ih =>
    obtain ⟨k, v⟩ := c
    simp only [cellsAbove, Bool.and_eq_true, decide_eq_true_eq] at h
    unfold cellSet
    split
    · simp [cellsAbove, h]
    · split
      · simp [cellsAbove, *]
      · simp [cellsAbove, h.1, ih k h.2 (by omega)]

/-- The one operation that writes a memory keeps the canonical form. -/
theorem wf_cellSet (m : List Host.Cell) (a : Nat) (b : Byte) (h : Memory.wf m = true) : Memory.wf (cellSet m a b) = true := by
  cases m with
  | nil => rfl
  | cons c m =>
    obtain ⟨k, v⟩ := c
    simp only [Memory.wf] at h
    unfold cellSet
    split
    · simpa [Memory.wf] using h
    · split
      · simp [Memory.wf, cellsAbove, *]
      · exact cellsAbove_cellSet m k a b h (by omega)

/-- A host store keeps both memories canonical. -/
theorem hostStore_memoriesOk {s : State} (st : HostStore) (h : MemoriesOk s) : MemoriesOk (hostStore st s) := by
  unfold hostStore
  split <;> [exact ⟨wf_cellSet _ _ _ h.1, h.2⟩; exact ⟨h.1, wf_cellSet _ _ _ h.2⟩]

theorem reset_memoriesOk (p : Panel) : MemoriesOk (State.resetFor p) := ⟨rfl, rfl⟩

/-- A byte of a source memory after a host store (R60). -/
theorem cellGet_hostStore (s : State) (st : HostStore) (sp : Space) (a : Nat) :
    cellGet ((hostStore st s).memory sp) a = if sp = st.space ∧ a = st.addr.toNat then some st.byte else cellGet (s.memory sp) a := by
  obtain ⟨d, k, b⟩ := st
  cases d <;> cases sp <;> simp [hostStore, State.memory, cellGet_cellSet]

end Sys2Proof.Machine
end

