-- ==== Sys2Proof/Laws/Events.lean ====
section
/-! SUPPORT. `Did`, what a run of events does: it composes, and `emitAll` and `wait` satisfy it. -/

namespace Sys2Proof.Machine

variable {s t u : State}

/-! ### The controller's loss is permanent, and events do not cause it -/

theorem act_lost (p : Panel) (c : Controller) (e : Event) : (c.act p e).lost = c.lost := by
  unfold Controller.act
  split
  · rename_i h; exact h.symm
  · cases e with
    | xfer b => simp only [Controller.xfer]; split <;> [(cases c.sel <;> rfl); rfl]
    | seq n => cases n <;> rfl
    | window _ | planeSel _ | start | stop | wait _ | reset => rfl

@[simp] theorem foldl_act_lost (p : Panel) (evs : List Event) (c : Controller) :
    (evs.foldl (Controller.act p) c).lost = c.lost := by
  induction evs generalizing c with
  | nil => rfl
  | cons e l ih => rw [List.foldl_cons, ih, act_lost]

@[simp] theorem lose_lost (c : Controller) : c.lose.lost = true := rfl

/-- A controller that is not lost takes no notice of a `Wait`. -/
theorem act_wait (p : Panel) (c : Controller) (k : WaitClass) (h : c.lost = false) : c.act p (.wait k) = c := by
  simp [Controller.act, h]

/-! ### The frame composes -/

theorem SameHostSide.refl (s : State) : SameHostSide s s := by constructor <;> rfl

theorem SameHostSide.trans (h : SameHostSide s t) (k : SameHostSide t u) : SameHostSide s u where
  x := k.x.trans h.x
  y := k.y.trans h.y
  w := k.w.trans h.w
  h := k.h.trans h.h
  xPart := k.xPart.trans h.xPart
  yPart := k.yPart.trans h.yPart
  wBitmap := k.wBitmap.trans h.wBitmap
  hBitmap := k.hBitmap.trans h.hBitmap
  src := k.src.trans h.src
  cmd := k.cmd.trans h.cmd
  busy := k.busy.trans h.busy
  panel := k.panel.trans h.panel
  ram := k.ram.trans h.ram
  pgm := k.pgm.trans h.pgm
  hostq := k.hostq.trans h.hostq
  racing := k.racing.trans h.racing
  rdata := k.rdata.trans h.rdata

theorem SameHostSide.memory (h : SameHostSide s t) (sp : Space) : t.memory sp = s.memory sp := by
  cases sp <;> simp [State.memory, h.ram, h.pgm]

theorem SameHostSide.rect (h : SameHostSide s t) : t.rect = s.rect := by
  simp [State.rect, h.x, h.y, h.w, h.h]

theorem SameHostSide.part (h : SameHostSide s t) : t.part = s.part := by
  simp [State.part, h.xPart, h.yPart, h.wBitmap, h.hBitmap]

/-! ### The answers compose -/

theorem Waited.refl (s : State) : Waited 0 s s := by constructor <;> simp

theorem Waited.trans {m n : Nat} (h : Waited m s t) (k : Waited n t u) : Waited (m + n) s u where
  illegal := k.illegal.trans h.illegal
  busyWr := k.busyWr.trans h.busyWr
  sticky := fun e => k.sticky (h.sticky e)
  listed := fun len => by
    obtain ⟨ha, hd, ht⟩ := h.listed (by omega)
    obtain ⟨ka, kd, kt⟩ := k.listed (by rw [ha, List.length_drop]; omega)
    refine ⟨by rw [ka, ha, List.drop_drop], kd.trans hd, ?_⟩
    rw [kt, ht, ha, List.take_add, List.any_append, Bool.or_assoc]

/-! ### `Did` composes -/

theorem Did.refl (s : State) : Did [] false s s where
  host := .refl s
  trace := by simp
  count := by simp
  drop := by simp
  waits := .refl s
  planes := fun h => ⟨h, rfl⟩
  unwaited := fun _ => rfl

theorem Did.trans {a b : List Event} {d e : Bool} (h : Did a d s t) (k : Did b e t u) : Did (a ++ b) (d || e) s u where
  host := h.host.trans k.host
  trace := by rw [k.trace, h.trace, List.append_assoc]
  count := by rw [k.count, h.count, List.countP_append, BitVec.ofNat_add, BitVec.add_assoc]
  drop := by rw [k.drop, h.drop, Bool.or_assoc]
  waits := by rw [List.countP_append]; exact h.waits.trans k.waits
  planes := fun hu => by
    obtain ⟨ht, hc⟩ := k.planes hu
    obtain ⟨hs, hd⟩ := h.planes ht
    exact ⟨hs, by rw [hc, hd, h.host.panel, List.foldl_append]⟩
  unwaited := fun hw => by
    rw [List.countP_append] at hw
    rw [k.unwaited (by omega), h.unwaited (by omega), h.host.panel, List.foldl_append]

/-- `Did` with no `DROP` composes to no `DROP`. -/
theorem Did.andThen {a b : List Event} (h : Did a false s t) (k : Did b false t u) : Did (a ++ b) false s u := h.trans k

/-- A state with the mode and flags of `l`, and the moments `v`. -/
def State.withLife (s : State) (l : Life) (v : List Live) : State :=
  { s with seen := v, mode := l.mode, powerIsOn := l.powerIsOn, hibernating := l.hibernating, initialWrite := l.initialWrite, initialRefresh := l.initialRefresh, initDone := l.initDone }

@[simp] theorem withLife_life (s : State) (l : Life) (v : List Live) : (s.withLife l v).life = l := rfl

@[simp] theorem withLife_panel (s : State) (l : Life) (v : List Live) : (s.withLife l v).panel = s.panel := rfl

/-- `Did` says nothing about mode, flags and moments afterwards. -/
theorem Did.setLife {a : List Event} {d : Bool} (h : Did a d s t) (l : Life) (v : List Live) : Did a d s (t.withLife l v) where
  host := ⟨h.host.x, h.host.y, h.host.w, h.host.h, h.host.xPart, h.host.yPart, h.host.wBitmap, h.host.hBitmap, h.host.src, h.host.cmd,
    h.host.busy, h.host.panel, h.host.ram, h.host.pgm, h.host.hostq, h.host.racing, h.host.rdata⟩
  trace := h.trace
  count := h.count
  drop := h.drop
  waits := ⟨h.waits.illegal, h.waits.busyWr, h.waits.sticky, h.waits.listed⟩
  planes := h.planes
  unwaited := h.unwaited

/-- The same for a record update of mode and flags: `h.relife rfl`. -/
theorem Did.relife {a : List Event} {d : Bool} (h : Did a d s t) (e : u = t.withLife u.life u.seen) : Did a d s u := by
  rw [e]; exact h.setLife _ _

/-- Noting a moment. -/
theorem Did.note {a : List Event} {d : Bool} (h : Did a d s t) : Did a d s (Machine.note t) := h.relife rfl

/-- `Did` says nothing about mode, flags and moments before. -/
theorem Did.fromLife {a : List Event} {d : Bool} (l : Life) (v : List Live) (h : Did a d (s.withLife l v) t) : Did a d s t where
  host := ⟨h.host.x, h.host.y, h.host.w, h.host.h, h.host.xPart, h.host.yPart, h.host.wBitmap, h.host.hBitmap, h.host.src, h.host.cmd,
    h.host.busy, h.host.panel, h.host.ram, h.host.pgm, h.host.hostq, h.host.racing, h.host.rdata⟩
  trace := h.trace
  count := h.count
  drop := h.drop
  waits := ⟨h.waits.illegal, h.waits.busyWr, h.waits.sticky, h.waits.listed⟩
  planes := h.planes
  unwaited := h.unwaited

theorem did_emitAll (evs : List Event) (hw : evs.countP Event.isWait = 0) (s : State) : Did evs false s (emitAll evs s) where
  host := by constructor <;> rfl
  trace := rfl
  count := rfl
  drop := by simp
  waits := by rw [hw]; exact ⟨rfl, rfl, id, fun _ => ⟨rfl, rfl, by simp⟩⟩
  planes := fun h => ⟨by simpa using h, rfl⟩
  unwaited := fun _ => rfl

theorem wait_diag (c : WaitClass) (s : State) :
    (wait c s).diag = { s.diag with timeout := s.diag.timeout || (takeAnswer (emitAll [.wait c] s)).1 } := by
  simp [wait]

theorem wait_ctl (c : WaitClass) (s : State) :
    (wait c s).ctl = bif (takeAnswer (emitAll [.wait c] s)).1 then (s.ctl.act s.panel (.wait c)).lose else s.ctl.act s.panel (.wait c) := by
  simp [wait]

theorem did_wait (c : WaitClass) (s : State) : Did [.wait c] false s (wait c s) where
  host := by constructor <;> simp
  trace := by simp
  count := by simp [Event.isXfer]
  drop := by simp [wait_diag]
  waits := by
    refine ⟨by simp [wait_diag], by simp [wait_diag], fun h => by simp [wait_diag, h], fun len => ?_⟩
    have len : 1 ≤ s.answers.length := by simpa [Event.isWait] using len
    cases h : s.answers with
    | nil => simp [h] at len
    | cons a l => cases a <;> simp [wait, takeAnswer, h, Event.isWait]
  planes := fun h => by
    have hl : (takeAnswer (emitAll [.wait c] s)).1 = false := by
      cases e : (takeAnswer (emitAll [.wait c] s)).1 with
      | false => rfl
      | true => simp [wait_ctl, e] at h
    rw [wait_ctl, hl] at h ⊢
    exact ⟨by simpa [act_lost] using h, rfl⟩
  unwaited := fun h => by simp [Event.isWait] at h

/-- `setDrop` is the one thing that sets `DROP` (R212). -/
theorem did_setDrop (s : State) : Did [] true s (setDrop s) where
  host := by constructor <;> rfl
  trace := by simp
  count := by simp
  drop := by simp
  waits := ⟨rfl, rfl, id, fun _ => ⟨rfl, rfl, by simp⟩⟩
  planes := fun h => ⟨h, rfl⟩
  unwaited := fun _ => rfl

end Sys2Proof.Machine
end

