-- ==== Sys2Proof/Laws/ModeMachine.lean ====
section
/-! SUPPORT. What each micro-operation of the mode machine and each refresh does, in the terms of the tables of `Safety`. -/

namespace Sys2Proof.Machine

variable {s : State}

@[simp] theorem fill_eq (q : Plane) (v : Byte) (s : State) : fill q v s = emitAll (fillEvents s.panel q v) s := rfl

@[simp] theorem planeStream_waits (q : Plane) (r : Rect) (l : List Byte) : (planeStream q r l).countP Event.isWait = 0 := by
  simp [planeStream, Event.isWait, List.countP_eq_zero]

/-- A stream of `n` bytes is `n` `Xfer` events (R110). -/
@[simp] theorem planeStream_xfers (q : Plane) (r : Rect) (l : List Byte) : (planeStream q r l).countP Event.isXfer = l.length := by
  simp only [planeStream, List.countP_cons, List.countP_append, List.countP_map, List.countP_nil]
  have h : (Event.isXfer ∘ Event.xfer) = fun _ => true := rfl
  simp [h, Event.isXfer]

@[simp] theorem fillEvents_waits (p : Panel) (q : Plane) (v : Byte) : (fillEvents p q v).countP Event.isWait = 0 := by simp [fillEvents]

/-- A fill is `PLANE_WB * HEIGHT` `Xfer` events (R111). -/
@[simp] theorem fillEvents_xfers (p : Panel) (q : Plane) (v : Byte) : (fillEvents p q v).countP Event.isXfer = planeBytes p := by
  simp [fillEvents]

/-! ### Ready states: initialised and awake -/

/-- The controller has been initialised and is not asleep, which is so after every `EnsureInit`. -/
abbrev Ready (l : Life) : Prop := l.initDone = true ∧ l.hibernating = false

/-- R27 (I-a) and (I-b), as said of mode and flags alone. -/
abbrev LifeOk (l : Life) : Prop :=
  (l.initDone = false → l.mode = .fullRefresh) ∧ (l.hibernating = true → l.powerIsOn = false ∧ l.initDone = false)

theorem Coherent.lifeOk (h : Coherent s) : LifeOk s.life := ⟨h.1, h.2.1⟩

theorem lifeOk_of_ready {l : Life} (h : Ready l) : LifeOk l := by simp [LifeOk, h.1, h.2]

theorem ensureEvents_of_ready {l : Life} (h : Ready l) : ensureEvents l = [] := by simp [ensureEvents, h.1]

theorem ensureEvents_waits (l : Life) : (ensureEvents l).countP Event.isWait = 0 := by
  unfold ensureEvents; split <;> [rfl; (split <;> rfl)]

/-- The four init micro-operations: wake (`Reset` where the controller is asleep), send the sequence, note it (R131 to R135). -/
theorem initWith_eq (n : SeqName) (m : Mode) (s : State) :
    initWith n m s = (emitAll ((if s.hibernating then [.reset] else []) ++ [.seq n]) s).withLife
      { s.life with hibernating := false, initDone := true, mode := m } (initWith n m s).seen := by
  unfold initWith wake
  split <;> rename_i h <;> simp_all [emitAll, note, State.withLife, State.life, Event.isXfer]

theorem did_initWith (n : SeqName) (m : Mode) (s : State) :
    Did ((if s.hibernating then [.reset] else []) ++ [.seq n]) false s (initWith n m s) := by
  rw [initWith_eq]
  exact (did_emitAll _ (by split <;> rfl) s).setLife _ _

theorem initWith_life (n : SeqName) (m : Mode) (s : State) :
    (initWith n m s).life = { s.life with hibernating := false, initDone := true, mode := m } := by rw [initWith_eq]; rfl

/-- An init in a ready state sends its sequence and nothing else. -/
theorem did_initWith_ready (n : SeqName) (m : Mode) (h : Ready s.life) : Did [.seq n] false s (initWith n m s) := by
  have := did_initWith n m s
  rwa [show s.hibernating = false from h.2] at this

/-- `EnsureInit` (R136). -/
theorem ensureInit_did (s : State) : Did (ensureEvents s.life) false s (ensureInit s) := by
  unfold ensureInit ensureEvents
  by_cases h : s.initDone <;> simp only [State.life, h, ↓reduceIte]
  · exact .refl s
  · simpa [initFull] using (show Did (if s.hibernating then [.reset, .seq .initFull] else [.seq .initFull]) false s _ by
      have := did_initWith .initFull .fullRefresh s
      cases hb : s.hibernating <;> simpa [hb] using this)

theorem ensureInit_life (h : LifeOk s.life) : (ensureInit s).life = { s.life with hibernating := false, initDone := true } := by
  unfold ensureInit
  by_cases e : s.initDone
  · have hb : s.hibernating = false := by
      cases hb : s.hibernating with
      | false => rfl
      | true => have := (h.2 hb).2; simp [State.life, e] at this
    simp [e, State.life, hb]
  · have hm : s.mode = .fullRefresh := h.1 (by simpa [State.life] using e)
    simp only [e, Bool.false_eq_true, ↓reduceIte, initFull, initWith_life, ← hm]
    rfl

/-- `ModeStepFill` (R137). -/
theorem modeStepFill_did (h : LifeOk s.life) :
    Did (ensureEvents s.life ++ (fillTable s.mode).1) false s (modeStepFill s) ∧
    (modeStepFill s).life = { s.life with hibernating := false, initDone := true, mode := (fillTable s.mode).2 } := by
  have hd := ensureInit_did s
  have hl := ensureInit_life h
  have hm : (ensureInit s).mode = s.mode := congrArg Life.mode hl
  unfold modeStepFill
  simp only [hm]
  cases hs : s.mode with
  | greyRefresh =>
    have hr : Ready (ensureInit s).life := by rw [hl]; exact ⟨rfl, rfl⟩
    exact ⟨hd.andThen (did_initWith_ready _ _ hr), by simp only [forceFull, initWith_life, hl, fillTable]⟩
  | fullRefresh | fastRefresh | forcedFullRefresh =>
    exact ⟨by simpa [fillTable] using hd, by simp only [fillTable]; rw [hl, ← hs]; rfl⟩

/-- `ModeStepMono` (R138). -/
theorem modeStepMono_did (h : LifeOk s.life) :
    Did (ensureEvents s.life ++ (monoTable s.mode).1) false s (modeStepMono s) ∧
    (modeStepMono s).life = { s.life with hibernating := false, initDone := true, mode := (monoTable s.mode).2 } := by
  have hd := ensureInit_did s
  have hl := ensureInit_life h
  have hm : (ensureInit s).mode = s.mode := congrArg Life.mode hl
  have hr : Ready (ensureInit s).life := by rw [hl]; exact ⟨rfl, rfl⟩
  unfold modeStepMono
  simp only [hm]
  cases hs : s.mode with
  | greyRefresh => exact ⟨hd.andThen (did_initWith_ready _ _ hr), by simp only [forceFull, initWith_life, hl, monoTable]⟩
  | fullRefresh => exact ⟨hd.andThen (did_initWith_ready _ _ hr), by simp only [initPart, initWith_life, hl, monoTable]⟩
  | fastRefresh | forcedFullRefresh =>
    exact ⟨by simpa [monoTable] using hd, by simp only [monoTable]; rw [hl, ← hs]; rfl⟩

/-- `ModeStepGrey` (R139). -/
theorem modeStepGrey_did (h : LifeOk s.life) :
    Did (ensureEvents s.life ++ [.seq .initGrey]) false s (modeStepGrey s) ∧
    (modeStepGrey s).life = { s.life with hibernating := false, initDone := true, mode := .greyRefresh } := by
  have hl := ensureInit_life h
  have hr : Ready (ensureInit s).life := by rw [hl]; exact ⟨rfl, rfl⟩
  exact ⟨(ensureInit_did s).andThen (did_initWith_ready _ _ hr), by simp only [modeStepGrey, initGrey, initWith_life, hl]⟩

/-- The fill of the previous plane, where there is one (R140, R181). -/
theorem fillPrev_did (v : Byte) (s : State) :
    Did (if s.panel.hasPrev then fillEvents s.panel .prev v else []) false s (fillPrev v s) ∧ (fillPrev v s).life = s.life := by
  unfold fillPrev
  split
  · exact ⟨did_emitAll _ (by simp) s, rfl⟩
  · exact ⟨.refl s, rfl⟩

/-- The fills of both planes (R140, R181). -/
theorem bothFills_did (v : Byte) (s : State) :
    Did (bothFills s.panel v) false s (fillPrev v (fill .cur v s)) ∧ (fillPrev v (fill .cur v s)).life = s.life := by
  have h := fillPrev_did v (fill .cur v s)
  exact ⟨(did_emitAll _ (by simp) s).andThen h.1, h.2⟩

/-- What `WSB` and `CLRS` share (R163, R181). -/
theorem fillScreen_did (v : Byte) (h : LifeOk s.life) :
    Did (ensureEvents s.life ++ (fillTable s.mode).1 ++ fillEvents s.panel .cur v) false s (fillScreen v s) ∧
    (fillScreen v s).life = ⟨(fillTable s.mode).2, s.powerIsOn, false, false, s.initialRefresh, true⟩ := by
  have hk := modeStepFill_did (s := { s with initialWrite := false }) h
  have hp : (modeStepFill { s with initialWrite := false }).panel = s.panel := hk.1.host.panel
  have hw : Did (ensureEvents s.life ++ (fillTable s.mode).1) false s (modeStepFill { s with initialWrite := false }) :=
    Did.fromLife { s.life with initialWrite := false } s.seen hk.1
  refine ⟨?_, hk.2⟩
  simpa [fillScreen, hp] using hw.andThen (did_emitAll (fillEvents s.panel .cur v) (by simp) _)

/-- `InitialFill` (R140). -/
theorem initialFill_did (h : LifeOk s.life) :
    Did (if s.initialWrite then ensureEvents s.life ++ (fillTable s.mode).1 ++ bothFills s.panel s.panel.initFill else []) false s
      (initialFill s) ∧
    (initialFill s).life =
      if s.initialWrite then ⟨(fillTable s.mode).2, s.powerIsOn, false, false, s.initialRefresh, true⟩ else s.life := by
  unfold initialFill
  by_cases e : s.initialWrite <;> simp only [e, ↓reduceIte]
  · have hk := modeStepFill_did (s := { s with initialWrite := false }) h
    have hp : (modeStepFill { s with initialWrite := false }).panel = s.panel := hk.1.host.panel
    have hw : Did (ensureEvents s.life ++ (fillTable s.mode).1) false s (modeStepFill { s with initialWrite := false }) :=
      Did.fromLife { s.life with initialWrite := false } s.seen hk.1
    have hb := bothFills_did s.panel.initFill (modeStepFill { s with initialWrite := false })
    rw [hp] at hb
    exact ⟨hw.andThen hb.1, hb.2.trans hk.2⟩
  · exact ⟨.refl s, rfl⟩

/-- Steps (3) and (4) of a mono write (R160). -/
theorem monoPrelude_did (h : LifeOk s.life) :
    Did (monoLead s.panel s.life) false s (modeStepMono (initialFill s)) ∧ (modeStepMono (initialFill s)).life = monoLife s.life := by
  have hi := initialFill_did h
  by_cases e : s.initialWrite
  · simp only [e, ↓reduceIte] at hi
    have hr : Ready (initialFill s).life := by rw [hi.2]; exact ⟨rfl, rfl⟩
    have hm := modeStepMono_did (lifeOk_of_ready hr)
    have hmode : (initialFill s).mode = (fillTable s.mode).2 := congrArg Life.mode hi.2
    rw [ensureEvents_of_ready hr, hmode, List.nil_append, hi.2] at hm
    refine ⟨?_, ?_⟩
    · have := hi.1.andThen hm.1
      simpa [monoLead, preludeEvents, preludeMode, State.life, e] using this
    · rw [hm.2]; simp [monoLife, preludeMode, State.life, e]
  · simp only [e] at hi
    have hl : (initialFill s) = s := by simp [initialFill, e]
    have hm := modeStepMono_did h
    rw [hl]
    refine ⟨by simpa [monoLead, preludeEvents, preludeMode, State.life, e] using hm.1, ?_⟩
    rw [hm.2]; simp [monoLife, preludeMode, State.life, e]

/-- Steps (3) and (4) of a 4G write (R160). -/
theorem greyPrelude_did (h : LifeOk s.life) :
    Did (greyLead s.panel s.life) false s (modeStepGrey (initialFill s)) ∧ (modeStepGrey (initialFill s)).life = greyLife s.life := by
  have hi := initialFill_did h
  by_cases e : s.initialWrite
  · simp only [e, ↓reduceIte] at hi
    have hr : Ready (initialFill s).life := by rw [hi.2]; exact ⟨rfl, rfl⟩
    have hm := modeStepGrey_did (lifeOk_of_ready hr)
    rw [ensureEvents_of_ready hr, List.nil_append, hi.2] at hm
    refine ⟨?_, ?_⟩
    · have := hi.1.andThen hm.1
      simpa [greyLead, preludeEvents, State.life, e] using this
    · rw [hm.2]; simp [greyLife, State.life]
  · have hl : (initialFill s) = s := by simp [initialFill, e]
    have hm := modeStepGrey_did h
    rw [hl]
    refine ⟨by simpa [greyLead, preludeEvents, State.life, e] using hm.1, ?_⟩
    rw [hm.2]; simp [greyLife, State.life, e]

/-! ### Power -/

/-- Send a sequence that does not wait, then wait. -/
theorem did_sendWait (evs : List Event) (hw : evs.countP Event.isWait = 0) (c : WaitClass) (s : State) :
    Did (evs ++ [.wait c]) false s (wait c (emitAll evs s)) ∧ (wait c (emitAll evs s)).life = s.life :=
  ⟨(did_emitAll evs hw s).andThen (did_wait c _), by simp [State.life]⟩

/-- `EnsurePower` (R143). -/
theorem ensurePower_did (s : State) :
    Did (powerEvents s.life) false s (ensurePower s) ∧ (ensurePower s).life = { s.life with powerIsOn := true } := by
  have hd := did_sendWait [.seq .powerOn] rfl .pon s
  unfold ensurePower powerEvents
  by_cases h : s.powerIsOn
  · simp only [State.life, h, ↓reduceIte]
    exact ⟨.refl s, trivial⟩
  · rw [if_neg h, if_neg (by exact h)]
    exact ⟨hd.1.relife rfl, congrArg (fun l : Life => { l with powerIsOn := true }) hd.2⟩

/-- `PowerOffProc` (R144). -/
theorem powerOffProc_did (s : State) :
    Did (powerOffEvents s.life) false s (powerOffProc s) ∧ (powerOffProc s).life = powerOffLife s.panel s.life := by
  have hd := did_sendWait [.seq .powerOff] rfl .poff s
  unfold powerOffProc powerOffEvents powerOffLife
  by_cases h : s.powerIsOn
  · have hp : Did [.seq .powerOff, .wait .poff] false s { wait .poff (emitAll [.seq .powerOff] s) with powerIsOn := false } := hd.1.relife rfl
    by_cases q : s.panel.powerOffForcesFull <;> simp only [State.life, h, q, emit_eq, Bool.false_eq_true, ↓reduceIte]
    · exact ⟨(hp.note.relife (u := { note { wait .poff (emitAll [.seq .powerOff] s) with powerIsOn := false } with mode := .fullRefresh }) rfl).note.relife
        rfl, by simp⟩
    · exact ⟨hp, by simp⟩
  · simp only [State.life, h, Bool.false_eq_true, ↓reduceIte]
    exact ⟨.refl s, trivial⟩

/-- After `PowerOffProc` power is off; it touches no first-time flag and no sleep (R144, R200). -/
theorem powerOffLife_keeps (p : Panel) (l : Life) :
    (powerOffLife p l).powerIsOn = false ∧ (powerOffLife p l).hibernating = l.hibernating ∧
    (powerOffLife p l).initialWrite = l.initialWrite ∧ (powerOffLife p l).initialRefresh = l.initialRefresh := by
  unfold powerOffLife
  by_cases h : l.powerIsOn = true
  · by_cases q : p.powerOffForcesFull = true <;> simp [h, q]
  · simp [h]

/-- The deep-sleep step of `HIBER` (R201). -/
theorem deepSleep_did (s : State) :
    Did [.seq .deepSleep] false s (deepSleep s) ∧
    (deepSleep s).life = ⟨.fullRefresh, s.powerIsOn, true, s.initialWrite, s.initialRefresh, false⟩ :=
  ⟨(did_emitAll [.seq .deepSleep] rfl s).relife rfl, rfl⟩

/-! ### The refreshes -/

/-- The first lines of `RefreshFull`: afterwards the mode is no longer fast (R190). -/
theorem refreshFullReady_did (h : LifeOk s.life) :
    Did (ensureEvents s.life ++ (fullTable s.panel s.mode).1 ++ powerEvents s.life) false s (refreshFullReady s) ∧
    (refreshFullReady s).life =
      ⟨(if s.mode = .fastRefresh then .fullRefresh else s.mode), true, false, s.initialWrite, s.initialRefresh, true⟩ := by
  have hd := ensureInit_did s
  have hl := ensureInit_life h
  have hm : (ensureInit s).mode = s.mode := congrArg Life.mode hl
  have hr : Ready (ensureInit s).life := by rw [hl]; exact ⟨rfl, rfl⟩
  unfold refreshFullReady
  simp only [hm]
  cases hs : s.mode with
  | fastRefresh =>
    have hp := ensurePower_did (initFull (ensureInit s))
    have hil : (initFull (ensureInit s)).life = _ := initWith_life .initFull .fullRefresh (ensureInit s)
    rw [hil, hl] at hp
    exact ⟨(hd.andThen (did_initWith_ready _ _ hr)).andThen hp.1, hp.2⟩
  | fullRefresh | greyRefresh | forcedFullRefresh =>
    have hp := ensurePower_did (ensureInit s)
    rw [hl] at hp
    have hp1 : Did (powerEvents s.life) false (ensureInit s) (ensurePower (ensureInit s)) := hp.1
    refine ⟨by simpa [fullTable] using hd.andThen hp1, ?_⟩
    rw [hp.2, if_neg (by simp), ← hs]
    rfl

/-- The update of `RefreshFull`, once ready (R190). -/
theorem updateFull_did (h : s.mode ≠ .fastRefresh) :
    Did (fullTable s.panel s.mode).2.1 false s (updateFull s) ∧
    (updateFull s).life = { s.life with mode := (fullTable s.panel s.mode).2.2 } := by
  unfold updateFull
  cases hs : s.mode with
  | fastRefresh => exact absurd hs h
  | greyRefresh =>
    have hu := did_sendWait [.window (planeRect s.panel), .seq .updateGrey] rfl .grey s
    exact ⟨hu.1, by rw [hu.2]; simp [fullTable, State.life, hs]⟩
  | fullRefresh | forcedFullRefresh =>
    have hu := did_sendWait [.seq .updateFull] rfl .full s
    exact ⟨hu.1.relife rfl, congrArg (fun l : Life => { l with mode := .fullRefresh }) hu.2⟩

/-- `RefreshFull` (R190). -/
theorem refreshFull_did (h : LifeOk s.life) :
    Did (fullEvents s.panel s.life) false s (refreshFull s) ∧ (refreshFull s).life = fullLife s.panel s.life := by
  have hr := refreshFullReady_did h
  have hp : (refreshFullReady s).panel = s.panel := hr.1.host.panel
  have hm : (refreshFullReady s).mode = if s.mode = .fastRefresh then .fullRefresh else s.mode := congrArg Life.mode hr.2
  have hu := updateFull_did (s := refreshFullReady s) (by rw [hm]; split <;> simp_all)
  rw [hp, hm, hr.2] at hu
  have ht : (fullTable s.panel (if s.mode = .fastRefresh then .fullRefresh else s.mode)).2 = (fullTable s.panel s.mode).2 := by
    cases s.mode <;> rfl
  rw [ht] at hu
  exact ⟨(hr.1.andThen hu.1).relife rfl, congrArg (fun l : Life => { l with initialRefresh := false }) hu.2⟩

/-- The lines of `RefreshRect` before its window: afterwards the mode is no longer full (R191). -/
theorem refreshRectReady_did (h : LifeOk s.life) :
    Did (ensureEvents s.life ++ (rectTable s.mode).1 ++ powerEvents s.life) false s (refreshRectReady s) ∧
    (refreshRectReady s).life = ⟨(rectTable s.mode).2.2, true, false, s.initialWrite, s.initialRefresh, true⟩ := by
  have hd := ensureInit_did s
  have hl := ensureInit_life h
  have hm : (ensureInit s).mode = s.mode := congrArg Life.mode hl
  have hr : Ready (ensureInit s).life := by rw [hl]; exact ⟨rfl, rfl⟩
  unfold refreshRectReady
  simp only [hm]
  cases hs : s.mode with
  | fullRefresh =>
    have hp := ensurePower_did (initPart (ensureInit s))
    have hil : (initPart (ensureInit s)).life = _ := initWith_life .initPart .fastRefresh (ensureInit s)
    rw [hil, hl] at hp
    exact ⟨(hd.andThen (did_initWith_ready _ _ hr)).andThen hp.1, hp.2⟩
  | fastRefresh | greyRefresh | forcedFullRefresh =>
    have hp := ensurePower_did (ensureInit s)
    rw [hl] at hp
    have hp1 : Did (powerEvents s.life) false (ensureInit s) (ensurePower (ensureInit s)) := hp.1
    refine ⟨by simpa [rectTable] using hd.andThen hp1, ?_⟩
    rw [hp.2]
    simp [rectTable, State.life, hs]

/-- The window and update of `RefreshRect` (R191). -/
theorem updateRect_did (g : Rect) (s : State) :
    Did (.window g :: (rectTable s.mode).2.1) false s (updateRect g s) ∧ (updateRect g s).life = s.life := by
  unfold updateRect
  cases s.mode with
  | greyRefresh => exact did_sendWait [.window g, .seq .updateGrey] rfl .grey s
  | fullRefresh | fastRefresh | forcedFullRefresh => exact did_sendWait [.window g, .seq .updatePart] rfl .part s

/-- `RefreshRect` (R191). -/
theorem refreshRect_did (r : Rect) (h : LifeOk s.life) :
    Did (refreshEvents s.panel s.life r) (refreshDrops s.panel s.life r) s (refreshRect r s) ∧
    (refreshRect r s).life = refreshLife s.panel s.life r := by
  have hred : redirected s = redirectDue s.life := rfl
  unfold refreshRect refreshEvents refreshLife refreshDrops
  rw [hred]
  by_cases e : redirectDue s.life
  · simpa [e] using refreshFull_did h
  · simp only [e, Bool.false_eq_true, ↓reduceIte, Bool.not_false, Bool.true_and]
    cases hg : geomRefresh s.panel r with
    | none => exact ⟨did_setDrop s, rfl⟩
    | some g =>
      have hr := refreshRectReady_did h
      have hm : (refreshRectReady s).mode = (rectTable s.mode).2.2 := congrArg Life.mode hr.2
      have hu := updateRect_did g (refreshRectReady s)
      have ht : (rectTable (rectTable s.mode).2.2).2.1 = (rectTable s.mode).2.1 := by cases s.mode <;> rfl
      rw [hm, ht] at hu
      exact ⟨hr.1.andThen hu.1, hu.2.trans hr.2⟩

/-- After a refresh the block is ready, or nothing has changed of its mode and flags. -/
theorem refreshLife_ready (p : Panel) {l : Life} (h : Ready l) (r : Rect) : Ready (refreshLife p l r) := by
  unfold refreshLife fullLife
  split
  · exact ⟨rfl, rfl⟩
  · split
    · exact h
    · exact ⟨rfl, rfl⟩

end Sys2Proof.Machine
end

