-- ==== Sys2Proof/Laws/Geometry.lean ====
section
/-! SUPPORT. The geometry micro-operations, once: what a non-empty result is. -/

namespace Sys2Proof.Machine

theorem floor8_mod (a : Int) : floor8 a % 8 = 0 := by unfold floor8; omega

theorem ceil8_mod (a : Int) : ceil8 a % 8 = 0 := floor8_mod _

theorem planeW_mod (p : Panel) : planeW p % 8 = 0 := ceil8_mod _

theorem width_le_planeW (p : Panel) : (p.width : Int) ≤ planeW p := by unfold planeW ceil8 floor8; omega

theorem planeWB_eq (p : Panel) : (planeWB p : Int) = planeW p / 8 := by
  have := width_le_planeW p
  unfold planeWB; omega

/-- `GeomWrite` and `GeomPart` give a window the engine may emit (R50, R95). -/
theorem geomPlace_window {p : Panel} {x y w h wb hb xs ys : Int} {g : Geom} (e : geomPlace p x y w h wb hb xs ys = some g) :
    WindowOk p g.rect := by
  have h1 := floor8_mod x
  have h2 := ceil8_mod w
  have h3 := planeW_mod p
  unfold geomPlace at e
  simp only [Option.ite_none_left_eq_some, Option.some.injEq] at e
  obtain ⟨hn, rfl⟩ := e
  simp only [Geom.rect]
  refine ⟨?_, ?_, ?_, ?_, ?_, ?_, ?_, ?_⟩ <;> simp only <;> omega

theorem geomWrite_window {p : Panel} {r : Rect} {g : Geom} (e : geomWrite p r = some g) : WindowOk p g.rect := geomPlace_window e

theorem geomPart_window {p : Panel} {r : Rect} {q : PartOperands} {u : Nat} {g : Geom} (e : geomPart p r q u = some g) :
    WindowOk p g.rect := by
  unfold geomPart at e
  simp only [Option.ite_none_left_eq_some] at e
  exact geomPlace_window e.2.2

/-- `GeomRefresh` gives a window the engine may emit (R50, R95). -/
theorem geomRefresh_window {p : Panel} {r g : Rect} (e : geomRefresh p r = some g) : WindowOk p g := by
  unfold geomRefresh at e
  simp only [Option.ite_none_left_eq_some, Option.some.injEq] at e
  obtain ⟨hn, rfl⟩ := e
  refine ⟨?_, ?_, ?_, ?_, ?_, ?_, ?_, ?_⟩ <;> simp only [planeW, ceil8, floor8] <;> omega

/-- The whole plane is a window the engine may emit. -/
theorem planeRect_window {p : Panel} (h : PanelOk p) : WindowOk p (planeRect p) := by
  have h1 := planeW_mod p
  have h2 := width_le_planeW p
  unfold planeRect
  refine ⟨?_, ?_, ?_, ?_, ?_, ?_, ?_, ?_⟩ <;> simp only <;> omega

/-- The whole panel is not an empty rectangle, so `RFSH PART` never sets `DROP` (R186). -/
theorem panelRect_refresh {p : Panel} (h : PanelOk p) : geomRefresh p (panelRect p) = some (planeRect p) := by
  have hw : max (0 : Int) 0 = 0 := rfl
  unfold geomRefresh panelRect planeRect planeW
  simp only [zero_add, min_self, hw]
  rw [if_neg (by omega)]
  simp [floor8]

end Sys2Proof.Machine
end

