-- ==== Sys2Proof/Laws/Packing.lean ====
section
/-! SUPPORT. The bytes of a plane stream: when they can be read, how many they are, and what they are where no host store races. -/

namespace Sys2Proof.Machine

variable {s t : State}

theorem allSome_map_some {α β : Type} (f : α → β) (l : List α) : allSome (l.map fun a => some (f a)) = some (l.map f) := by
  induction l with
  | nil => rfl
  | cons a l ih => simp [allSome, ih]

theorem allSome_length {α : Type} {l : List (Option α)} {r : List α} (h : allSome l = some r) : r.length = l.length := by
  induction l generalizing r with
  | nil => simp [allSome] at h; simp [← h]
  | cons o l ih =>
    cases o with
    | none => simp [allSome] at h
    | some a =>
      cases e : allSome l with
      | none => simp [allSome, e] at h
      | some as => simp [allSome, e] at h; simp [← h, ih e]

/-- All of a list of reads succeed when each of them does. -/
theorem allSome_of_all {α : Type} {l : List (Option α)} (h : ∀ o ∈ l, o.isSome = true) : ∃ r, allSome l = some r := by
  induction l with
  | nil => exact ⟨[], rfl⟩
  | cons o l ih =>
    obtain ⟨a, rfl⟩ := Option.isSome_iff_exists.mp (h o (by simp))
    obtain ⟨as, ha⟩ := ih fun o ho => h o (by simp [ho])
    exact ⟨a :: as, by simp [allSome, ha]⟩

/-- The row and column numbers of a window's bytes are inside it. -/
theorem mem_window {g : Geom} {i jb : Nat} (hi : i ∈ List.range g.h1.toNat) (hj : jb ∈ List.range (g.w1 / 8).toNat) :
    (i : Int) < g.h1 ∧ 8 * ((jb : Int) + 1) ≤ g.w1 := by
  simp only [List.mem_range] at hi hj; omega

/-- A window's bytes, where each of them is known. -/
theorem windowBytes_of_eq {g : Geom} {byteOf : Nat → Nat → Option Byte} (f : Nat → Nat → Byte)
    (h : ∀ i jb : Nat, (i : Int) < g.h1 → 8 * ((jb : Int) + 1) ≤ g.w1 → byteOf i jb = some (f i jb)) :
    windowBytes g byteOf =
      some ((List.range g.h1.toNat).flatMap fun (i : Nat) => (List.range (g.w1 / 8).toNat).map fun (jb : Nat) => f i jb) := by
  have hrow : (List.range g.h1.toNat).flatMap (fun i => (List.range (g.w1 / 8).toNat).map fun jb => byteOf i jb) =
      ((List.range g.h1.toNat).flatMap fun (i : Nat) => (List.range (g.w1 / 8).toNat).map fun (jb : Nat) => f i jb).map some := by
    rw [List.map_flatMap]
    refine List.flatMap_congr fun i hi => ?_
    rw [List.map_map]
    refine List.map_congr_left fun jb hj => ?_
    obtain ⟨h1, h2⟩ := mem_window hi hj
    exact h i jb h1 h2
  rw [windowBytes, hrow]
  simpa using allSome_map_some id ((List.range g.h1.toNat).flatMap fun (i : Nat) => (List.range (g.w1 / 8).toNat).map fun (jb : Nat) => f i jb)

theorem windowBytes_of_some {g : Geom} {byteOf : Nat → Nat → Option Byte}
    (h : ∀ i jb : Nat, (i : Int) < g.h1 → 8 * ((jb : Int) + 1) ≤ g.w1 → (byteOf i jb).isSome = true) :
    ∃ l, windowBytes g byteOf = some l := by
  refine allSome_of_all fun o ho => ?_
  simp only [List.mem_flatMap, List.mem_map] at ho
  obtain ⟨i, hi, jb, hj, rfl⟩ := ho
  obtain ⟨h1, h2⟩ := mem_window hi hj
  exact h i jb h1 h2

/-- A plane stream of an image has `(w1/8) * h1` bytes (R110, R120(a)). -/
theorem windowBytes_length {g : Geom} {byteOf : Nat → Nat → Option Byte} {l : List Byte} (h : windowBytes g byteOf = some l) :
    l.length = (g.w1 / 8).toNat * g.h1.toNat := by
  rw [allSome_length h]
  simp [List.length_flatMap, Nat.mul_comm]

/-! ### `MemRead` -/

/-- A read succeeds exactly where memory is behind the address (R41). -/
theorem memRead_isSome (s : State) (sp : Space) (tag : ReadTag) (a : Int) :
    (memRead s sp tag a).isSome = true ↔ 0 ≤ a ∧ a < 2 ^ 32 ∧ (cellGet (s.memory sp) a.toNat).isSome = true := by
  unfold memRead
  split
  · rename_i h
    cases e : cellGet (s.memory sp) a.toNat with
    | none => simp
    | some old => cases racersAt s sp a.toNat <;> simpa using h
  · rename_i h
    simp only [Option.isSome_none, Bool.false_eq_true, false_iff]
    exact fun k => h ⟨k.1, k.2.1⟩

/-- Without a racing host store, a read gives the byte listed there (R41). -/
theorem memRead_quiet (hr : s.racing = []) (sp : Space) (tag : ReadTag) {a : Int} (h0 : 0 ≤ a) (h1 : a < 2 ^ 32)
    (h : (cellGet (s.memory sp) a.toNat).isSome = true) : memRead s sp tag a = some (sourceByte s sp a) := by
  obtain ⟨b, hb⟩ := Option.isSome_iff_exists.mp h
  rw [memRead, if_pos ⟨h0, h1⟩]
  simp [hb, racersAt, hr, sourceByte]

/-! ### The footprint holds every byte a write reads (R121) -/

/-- Column `c` of the window lies in the footprint. -/
theorem Readable.at {g : Geom} {m : ReadMode} {b : Bpp} (h : Readable s m.space g m.mir b) {i : Nat} (hi : (i : Int) < g.h1) {c : Int}
    (h0 : g.xs + g.dx ≤ c) (h1 : c ≤ g.xs + g.dx + g.w1 - 1) :
    0 ≤ pixelAddr s g b (srcRow g m.mir i) c ∧ pixelAddr s g b (srcRow g m.mir i) c < 2 ^ 32 ∧
      (cellGet (s.memory m.space) (pixelAddr s g b (srcRow g m.mir i) c).toNat).isSome = true := by
  have hp : (0 : Int) < pixelsPerByte b := by cases b <;> simp [pixelsPerByte]
  exact h i hi (c / pixelsPerByte b) (Int.ediv_le_ediv hp h0) (Int.ediv_le_ediv hp h1)

theorem pixelAddr_one (s : State) (g : Geom) (r c : Int) :
    pixelAddr s g .one r c = s.srcAddr + r * stride g.wb 1 + c / 8 := rfl

theorem monoByte_isSome {g : Geom} {m : ReadMode} (h : Readable s m.space g m.mir .one) (q : Plane) {i jb : Nat}
    (hi : (i : Int) < g.h1) (hj : 8 * ((jb : Int) + 1) ≤ g.w1) : (monoByte s q g m i jb).isSome = true := by
  simp only [monoByte, Option.isSome_map]
  exact (memRead_isSome ..).mpr (h.at hi (by omega) (by omega))

theorem monoByte_quiet {g : Geom} {m : ReadMode} (hr : s.racing = []) (h : Readable s m.space g m.mir .one) (q : Plane) {i jb : Nat}
    (hi : (i : Int) < g.h1) (hj : 8 * ((jb : Int) + 1) ≤ g.w1) :
    monoByte s q g m i jb = some
      (applyInv m.inv (sourceByte s m.space (s.srcAddr + srcRow g m.mir i * stride g.wb 1 + (g.xs + g.dx + 8 * jb) / 8))) := by
  obtain ⟨h0, h1, h2⟩ := h.at hi (c := g.xs + g.dx + 8 * jb) (by omega) (by omega)
  simp only [monoByte, memRead_quiet hr m.space _ h0 h1 h2, Option.map_some]
  rfl

theorem greyByte_isSome {g : Geom} {b : Bpp} {m : ReadMode} (h : Readable s m.space g m.mir b) (q : Plane) {i jb : Nat}
    (hi : (i : Int) < g.h1) (hj : 8 * ((jb : Int) + 1) ≤ g.w1) : (greyByte s q g b m i jb).isSome = true := by
  obtain ⟨l, hl⟩ := allSome_of_all (l := (List.range 8).map fun (k : Nat) =>
    (pixelValue s g b m ⟨q, i, jb, k⟩ (srcRow g m.mir i) (g.xs + g.dx + 8 * jb + k)).map fun v => planeBit s.panel q (toneOf s.panel b v))
    (fun o ho => by
      simp only [List.mem_map, List.mem_range] at ho
      obtain ⟨k, hk, rfl⟩ := ho
      simp only [pixelValue, Option.isSome_map]
      exact (memRead_isSome ..).mpr (h.at hi (by omega) (by omega)))
  simp [greyByte, hl]

theorem greyByte_quiet {g : Geom} {b : Bpp} {m : ReadMode} (hr : s.racing = []) (h : Readable s m.space g m.mir b) (q : Plane)
    {i jb : Nat} (hi : (i : Int) < g.h1) (hj : 8 * ((jb : Int) + 1) ≤ g.w1) :
    greyByte s q g b m i jb = some (packBits ((List.range 8).map fun (k : Nat) =>
      planeBit s.panel q (sourceTone s b m g (srcRow g m.mir i) (g.xs + g.dx + 8 * jb + k)))) := by
  have hk : (List.range 8).map (fun (k : Nat) =>
      (pixelValue s g b m ⟨q, i, jb, k⟩ (srcRow g m.mir i) (g.xs + g.dx + 8 * jb + k)).map fun v => planeBit s.panel q (toneOf s.panel b v)) =
      (List.range 8).map fun (k : Nat) => some (planeBit s.panel q (sourceTone s b m g (srcRow g m.mir i) (g.xs + g.dx + 8 * jb + k))) := by
    refine List.map_congr_left fun k hk => ?_
    have hk : k < 8 := List.mem_range.mp hk
    obtain ⟨h0, h1, h2⟩ := h.at hi (c := g.xs + g.dx + 8 * jb + k) (by omega) (by omega)
    simp only [pixelValue, memRead_quiet hr m.space _ h0 h1 h2, Option.map_some, sourceTone]
    rfl
  simp only [greyByte]
  rw [hk, allSome_map_some]
  rfl

/-- The bytes of a mono write (R113, R161). -/
theorem monoBytes_quiet {g : Geom} {m : ReadMode} (hr : s.racing = []) (h : Readable s m.space g m.mir .one) (q : Plane) :
    monoBytes s q g m = some (monoPixels s m g) :=
  windowBytes_of_eq (fun i jb =>
    applyInv m.inv (sourceByte s m.space (s.srcAddr + srcRow g m.mir i * stride g.wb 1 + (g.xs + g.dx + 8 * jb) / 8)))
    fun _ _ hi hj => monoByte_quiet hr h q hi hj

/-- The bytes of a 4G write for one plane (R118, R162). -/
theorem greyBytes_quiet {g : Geom} {b : Bpp} {m : ReadMode} (hr : s.racing = []) (h : Readable s m.space g m.mir b) (q : Plane) :
    greyBytes s q g b m = some (greyPixels s q b m g) :=
  windowBytes_of_eq (fun i jb => packBits ((List.range 8).map fun (k : Nat) =>
    planeBit s.panel q (sourceTone s b m g (srcRow g m.mir i) (g.xs + g.dx + 8 * jb + k))))
    fun _ _ hi hj => greyByte_quiet hr h q hi hj

theorem monoBytes_some {g : Geom} {m : ReadMode} (h : Readable s m.space g m.mir .one) (q : Plane) : ∃ l, monoBytes s q g m = some l :=
  windowBytes_of_some fun _ _ hi hj => monoByte_isSome h q hi hj

theorem greyBytes_some {g : Geom} {b : Bpp} {m : ReadMode} (h : Readable s m.space g m.mir b) (q : Plane) :
    ∃ l, greyBytes s q g b m = some l :=
  windowBytes_of_some fun _ _ hi hj => greyByte_isSome h q hi hj

/-! ### A command's own events change nothing the packing reads (R12, R120(c)) -/

theorem SameHostSide.srcAddr (h : SameHostSide s t) : t.srcAddr = s.srcAddr := by simp [State.srcAddr, h.src]

theorem SameHostSide.readable (h : SameHostSide s t) {sp : Space} {g : Geom} {mir : Bool} {b : Bpp} (k : Readable s sp g mir b) :
    Readable t sp g mir b := by
  intro i hi q h0 h1
  simpa [h.memory, h.srcAddr] using k i hi q h0 h1

theorem SameHostSide.sourceByte (h : SameHostSide s t) (sp : Space) (a : Int) : sourceByte t sp a = Machine.sourceByte s sp a := by
  simp [Machine.sourceByte, h.memory]

theorem SameHostSide.monoPixels (h : SameHostSide s t) (m : ReadMode) (g : Geom) : monoPixels t m g = Machine.monoPixels s m g := by
  simp [Machine.monoPixels, h.sourceByte, h.srcAddr]

theorem SameHostSide.greyPixels (h : SameHostSide s t) (q : Plane) (b : Bpp) (m : ReadMode) (g : Geom) :
    greyPixels t q b m g = Machine.greyPixels s q b m g := by
  simp [Machine.greyPixels, sourceTone, h.sourceByte, h.srcAddr, h.panel]

end Sys2Proof.Machine
end

