-- ==== Sys2Proof/Laws/Images.lean ====
section
/-! SUPPORT. The image writes and draws, once: exactly when they go on, and what they then have done. -/

namespace Sys2Proof.Machine

variable {s t u : State}

/-! ### Exactly when the bytes can be read -/

theorem allSome_isSome {α : Type} {l : List (Option α)} {r : List α} (h : allSome l = some r) : ∀ o ∈ l, o.isSome = true := by
  induction l generalizing r with
  | nil => simp
  | cons o l ih =>
    cases o with
    | none => simp [allSome] at h
    | some a =>
      cases e : allSome l with
      | none => simp [allSome, e] at h
      | some as => simpa using ih e

theorem windowBytes_isSome {g : Geom} {byteOf : Nat → Nat → Option Byte} {l : List Byte} (h : windowBytes g byteOf = some l)
    {i jb : Nat} (hi : (i : Int) < g.h1) (hj : 8 * ((jb : Int) + 1) ≤ g.w1) : (byteOf i jb).isSome = true := by
  refine allSome_isSome h _ ?_
  simp only [List.mem_flatMap, List.mem_map, List.mem_range]
  exact ⟨i, by omega, jb, by omega, rfl⟩

/-- A mono stream can be packed exactly when its footprint is readable, its columns being whole bytes (R113, R121). -/
theorem monoBytes_some_iff {g : Geom} {m : ReadMode} (q : Plane) (hc : (g.xs + g.dx) % 8 = 0) (hw : g.w1 % 8 = 0) :
    (∃ l, monoBytes s q g m = some l) ↔ Readable s m.space g m.mir .one := by
  refine ⟨fun ⟨l, hl⟩ i hi k h0 h1 => ?_, fun h => monoBytes_some h q⟩
  have hk : 8 * (((k - (g.xs + g.dx) / 8).toNat : Int) + 1) ≤ g.w1 := by simp only [pixelsPerByte] at h0 h1; omega
  have := windowBytes_isSome hl hi hk
  simp only [monoByte, Option.isSome_map, memRead_isSome, pixelAddr_one] at this
  have e : (g.xs + g.dx + 8 * ((k - (g.xs + g.dx) / 8).toNat : Int)) / 8 = k := by simp only [pixelsPerByte] at h0 h1; omega
  rw [e] at this
  exact this

/-- A 4G stream can be packed exactly when its footprint is readable (R118, R121). -/
theorem greyBytes_some_iff {g : Geom} {b : Bpp} {m : ReadMode} (q : Plane) (hw : g.w1 % 8 = 0 ∧ 0 < g.w1) :
    (∃ l, greyBytes s q g b m = some l) ↔ Readable s m.space g m.mir b := by
  refine ⟨fun ⟨l, hl⟩ i hi k h0 h1 => ?_, fun h => greyBytes_some h q⟩
  have hp : (0 : Int) < pixelsPerByte b := by cases b <;> simp [pixelsPerByte]
  obtain ⟨c, hc0, hc1, hck⟩ : ∃ c : Int, g.xs + g.dx ≤ c ∧ c ≤ g.xs + g.dx + g.w1 - 1 ∧ c / pixelsPerByte b = k := by
    rcases le_or_gt (g.xs + g.dx) (k * pixelsPerByte b) with e | e
    · refine ⟨k * pixelsPerByte b, e, ?_, Int.mul_ediv_cancel _ (by omega)⟩
      exact (Int.le_ediv_iff_mul_le hp).mp h1
    · exact ⟨g.xs + g.dx, le_refl _, by omega, le_antisymm h0 ((Int.le_ediv_iff_mul_le hp).mpr (by omega))⟩
  have hi' := windowBytes_isSome hl hi (jb := ((c - (g.xs + g.dx)) / 8).toNat) (by omega)
  simp only [greyByte, Option.isSome_map, Option.isSome_iff_exists] at hi'
  obtain ⟨bits, hbits⟩ := hi'
  have hk := allSome_isSome hbits _ (List.mem_map.mpr ⟨((c - (g.xs + g.dx)) % 8).toNat, List.mem_range.mpr (by omega), rfl⟩)
  simp only [Option.isSome_map, pixelValue, memRead_isSome, pixelAddr] at hk
  have hcol : g.xs + g.dx + 8 * (((c - (g.xs + g.dx)) / 8).toNat : Int) + (((c - (g.xs + g.dx)) % 8).toNat : Int) = c := by omega
  rw [hcol, hck] at hk
  exact hk

/-- A geometry result has whole bytes of columns: of a whole image, and of a part with unit 8 (R93, R95). -/
theorem geomPlace_columns {p : Panel} {x y w h wb hb xs ys : Int} {g : Geom} (e : geomPlace p x y w h wb hb xs ys = some g) :
    g.dx % 8 = 0 ∧ g.xs = xs := by
  have h1 := floor8_mod x
  unfold geomPlace at e
  simp only [Option.ite_none_left_eq_some, Option.some.injEq] at e
  obtain ⟨hn, rfl⟩ := e
  exact ⟨by simp only; omega, rfl⟩

theorem imageGeom_columns {g : Geom} (e : imageGeom s = some g) : (g.xs + g.dx) % 8 = 0 := by
  obtain ⟨h1, h2⟩ := geomPlace_columns e; omega

theorem partGeom_columns {g : Geom} (e : partGeom s 8 = some g) : (g.xs + g.dx) % 8 = 0 := by
  unfold partGeom geomPart at e
  simp only [Option.ite_none_left_eq_some] at e
  obtain ⟨h1, h2⟩ := geomPlace_columns e.2.2
  simp only [floorU] at h2; omega

theorem geom_width {p : Panel} {g : Geom} (h : WindowOk p g.rect) : g.w1 % 8 = 0 ∧ 0 < g.w1 := ⟨h.2.1, h.2.2.2.2.2.2.1⟩

/-! ### The writes -/

/-- An image stream with its bytes known. -/
theorem streamImage_some (q : Plane) (g : Geom) (l : List Byte) (s : State) :
    streamImage q g (some l) s = .next (streamPlane q g.rect l s) := rfl

theorem streamPlane_did (q : Plane) (r : Rect) (l : List Byte) (s : State) :
    Did (planeStream q r l) false s (streamPlane q r l s) ∧ (streamPlane q r l s).life = s.life :=
  ⟨did_emitAll _ (by simp) s, rfl⟩

/-- What is true of the bytes of a mono stream, whatever races: there are as many as the window takes, and without a race they are the
source's. -/
structure MonoStream (s : State) (m : ReadMode) (g : Geom) (l : List Byte) : Prop where
  length : l.length = (g.w1 / 8).toNat * g.h1.toNat
  quiet : s.racing = [] → l = monoPixels s m g

/-- The same for a plane of a 4G write. -/
structure GreyStream (s : State) (q : Plane) (b : Bpp) (m : ReadMode) (g : Geom) (l : List Byte) : Prop where
  length : l.length = (g.w1 / 8).toNat * g.h1.toNat
  quiet : s.racing = [] → l = greyPixels s q b m g

/-- `WriteMono`, by whether its footprint can be read (R161). -/
theorem writeMono_cases (q : Plane) {m : ReadMode} {g : Geom} (hc : (g.xs + g.dx) % 8 = 0) (hw : g.w1 % 8 = 0) (s : State) :
    (Readable s m.space g m.mir .one ∧ ∃ l, MonoStream s m g l ∧ writeMono q g m s = .next (streamPlane q g.rect l s)) ∨
    (¬ Readable s m.space g m.mir .one ∧ writeMono q g m s = .refused .unreadableSource) := by
  by_cases h : Readable s m.space g m.mir .one
  · obtain ⟨l, hl⟩ := monoBytes_some h q
    refine .inl ⟨h, l, ⟨windowBytes_length hl, fun hr => ?_⟩, by rw [writeMono, hl]; rfl⟩
    exact Option.some.inj (hl.symm.trans (monoBytes_quiet hr h q))
  · refine .inr ⟨h, ?_⟩
    cases e : monoBytes s q g m with
    | none => rw [writeMono, e]; rfl
    | some l => exact absurd ((monoBytes_some_iff q hc hw).mp ⟨l, e⟩) h

theorem SameHostSide.readable_iff (h : SameHostSide s t) {sp : Space} {g : Geom} {mir : Bool} {b : Bpp} :
    Readable t sp g mir b ↔ Readable s sp g mir b := by
  unfold Readable
  simp [h.memory, h.srcAddr]

theorem MonoStream.of_same (h : SameHostSide s t) {m : ReadMode} {g : Geom} {l : List Byte} (k : MonoStream t m g l) : MonoStream s m g l :=
  ⟨k.length, fun hr => (k.quiet (h.racing.trans hr)).trans (h.monoPixels m g)⟩

theorem GreyStream.of_same (h : SameHostSide s t) {q : Plane} {b : Bpp} {m : ReadMode} {g : Geom} {l : List Byte}
    (k : GreyStream t q b m g l) : GreyStream s q b m g l :=
  ⟨k.length, fun hr => (k.quiet (h.racing.trans hr)).trans (h.greyPixels q b m g)⟩

/-- `WriteGrey`, by whether its footprint can be read (R162). -/
theorem writeGrey_cases {b : Bpp} {m : ReadMode} {g : Geom} (hw : g.w1 % 8 = 0 ∧ 0 < g.w1) (s : State) :
    (Readable s m.space g m.mir b ∧ ∃ l k, GreyStream s .cur b m g l ∧ GreyStream s .prev b m g k ∧
      writeGrey g b m s = .next (streamPlane .prev g.rect k (streamPlane .cur g.rect l s))) ∨
    (¬ Readable s m.space g m.mir b ∧ writeGrey g b m s = .refused .unreadableSource) := by
  by_cases h : Readable s m.space g m.mir b
  · obtain ⟨l, hl⟩ := greyBytes_some h .cur
    have hs := (streamPlane_did .cur g.rect l s).1.host
    obtain ⟨k, hk⟩ := greyBytes_some (hs.readable h) .prev
    refine .inl ⟨h, l, k, ⟨windowBytes_length hl, fun hr => ?_⟩,
      GreyStream.of_same hs ⟨windowBytes_length hk, fun hr => ?_⟩, ?_⟩
    · exact Option.some.inj (hl.symm.trans (greyBytes_quiet hr h .cur))
    · exact Option.some.inj (hk.symm.trans (greyBytes_quiet hr (hs.readable h) .prev))
    · rw [writeGrey, hl, streamImage_some]; simp only [andThen]; rw [hk, streamImage_some]
  · refine .inr ⟨h, ?_⟩
    cases e : greyBytes s .cur g b m with
    | none => rw [writeGrey, e]; rfl
    | some l => exact absurd ((greyBytes_some_iff .cur hw).mp ⟨l, e⟩) h

/-- Steps (3) to (5) of a mono write (R160). -/
theorem monoWrite_cases {m : ReadMode} {g : Geom} (hc : (g.xs + g.dx) % 8 = 0) (hw : g.w1 % 8 = 0) (h : LifeOk s.life) :
    (Readable s m.space g m.mir .one ∧ ∃ l t, MonoStream s m g l ∧ monoWrite m g s = .next t ∧
      Did (monoLead s.panel s.life ++ planeStream .cur g.rect l) false s t ∧ t.life = monoLife s.life) ∨
    (¬ Readable s m.space g m.mir .one ∧ monoWrite m g s = .refused .unreadableSource) := by
  have hp := monoPrelude_did h
  rcases writeMono_cases .cur hc hw (m := m) (modeStepMono (initialFill s)) with ⟨hr, l, hl, e⟩ | ⟨hr, e⟩
  · have hd := streamPlane_did .cur g.rect l (modeStepMono (initialFill s))
    exact .inl ⟨hp.1.host.readable_iff.mp hr, l, _, hl.of_same hp.1.host, e, hp.1.andThen hd.1, hd.2.trans hp.2⟩
  · exact .inr ⟨fun k => hr (hp.1.host.readable k), e⟩

/-- Steps (3) to (5) of a 4G write (R160). -/
theorem greyWrite_cases {b : Bpp} {m : ReadMode} {g : Geom} (hw : g.w1 % 8 = 0 ∧ 0 < g.w1) (h : LifeOk s.life) :
    (Readable s m.space g m.mir b ∧ ∃ l k t, GreyStream s .cur b m g l ∧ GreyStream s .prev b m g k ∧ greyWrite b m g s = .next t ∧
      Did (greyLead s.panel s.life ++ (planeStream .cur g.rect l ++ planeStream .prev g.rect k)) false s t ∧ t.life = greyLife s.life) ∨
    (¬ Readable s m.space g m.mir b ∧ greyWrite b m g s = .refused .unreadableSource) := by
  have hp := greyPrelude_did h
  rcases writeGrey_cases hw (b := b) (m := m) (modeStepGrey (initialFill s)) with ⟨hr, l, k, hl, hk, e⟩ | ⟨hr, e⟩
  · have hd := streamPlane_did .cur g.rect l (modeStepGrey (initialFill s))
    have hd2 := streamPlane_did .prev g.rect k (streamPlane .cur g.rect l (modeStepGrey (initialFill s)))
    exact .inl ⟨hp.1.host.readable_iff.mp hr, l, k, _, hl.of_same hp.1.host, hk.of_same hp.1.host, e,
      hp.1.andThen (hd.1.andThen hd2.1), (hd2.2.trans hd.2).trans hp.2⟩
  · exact .inr ⟨fun j => hr (hp.1.host.readable j), e⟩

/-! ### The draws -/

theorem monoLife_ready (l : Life) : Ready (monoLife l) := ⟨rfl, rfl⟩

theorem greyLife_ready (l : Life) : Ready (greyLife l) := ⟨rfl, rfl⟩

/-- `DrawAgain` in a ready state whose footprint is readable (R192). -/
theorem drawAgain_did {m : ReadMode} {g : Geom} (hc : (g.xs + g.dx) % 8 = 0) (hw : g.w1 % 8 = 0) (h : Ready s.life)
    (hr : Readable s m.space g m.mir .one) :
    ∃ l t, MonoStream s m g l ∧ drawAgain m g s = .next t ∧
      Did (againEvents s.panel s.life (planeStream .prev g.rect l)) false s t ∧ t.life = againLife s.panel s.life := by
  unfold drawAgain againEvents againLife
  by_cases e : (s.panel.diffUpdate && s.panel.hasPrev) = true
  · have hm := modeStepMono_did (lifeOk_of_ready h)
    rw [ensureEvents_of_ready h, List.nil_append] at hm
    simp only [e, ↓reduceIte]
    rcases writeMono_cases .prev hc hw (m := m) (modeStepMono s) with ⟨_, l, hl, e2⟩ | ⟨hn, _⟩
    · have hd := streamPlane_did .prev g.rect l (modeStepMono s)
      refine ⟨l, _, hl.of_same hm.1.host, e2, hm.1.andThen hd.1, ?_⟩
      rw [hd.2, hm.2, ← h.1, ← h.2]
      rfl
    · exact absurd (hm.1.host.readable hr) hn
  · simp only [e]
    obtain ⟨l, hl⟩ := monoBytes_some hr .cur
    exact ⟨l, s, ⟨windowBytes_length hl, fun hq => Option.some.inj (hl.symm.trans (monoBytes_quiet hq hr .cur))⟩, rfl, .refl s, rfl⟩

/-- A mono draw (R182, R183). -/
theorem monoDraw_cases {m : ReadMode} {g : Geom} (hc : (g.xs + g.dx) % 8 = 0) (hw : g.w1 % 8 = 0) (h : LifeOk s.life) :
    (Readable s m.space g m.mir .one ∧ ∃ l k t, MonoStream s m g l ∧ MonoStream s m g k ∧ monoDraw m g s = .next t ∧
      Did (monoLead s.panel s.life ++ planeStream .cur g.rect l ++ refreshEvents s.panel (monoLife s.life) s.rect ++
          againEvents s.panel (refreshLife s.panel (monoLife s.life) s.rect) (planeStream .prev g.rect k))
        (refreshDrops s.panel (monoLife s.life) s.rect) s t ∧
      t.life = againLife s.panel (refreshLife s.panel (monoLife s.life) s.rect)) ∨
    (¬ Readable s m.space g m.mir .one ∧ monoDraw m g s = .refused .unreadableSource) := by
  rcases monoWrite_cases hc hw h (m := m) with ⟨hr, l, t, hl, e, hd, ht⟩ | ⟨hr, e⟩
  · have hf := refreshRect_did (s := t) s.rect (lifeOk_of_ready (by rw [ht]; exact monoLife_ready _))
    rw [ht, hd.host.panel] at hf
    have hready : Ready (refreshRect s.rect t).life := by rw [hf.2]; exact refreshLife_ready _ (monoLife_ready _) _
    obtain ⟨k, u, hk, e2, hu, hul⟩ := drawAgain_did hc hw hready ((hd.host.trans hf.1.host).readable hr)
    rw [hf.2, (hd.host.trans hf.1.host).panel] at hu hul
    refine .inl ⟨hr, l, k, u, hl, hk.of_same (hd.host.trans hf.1.host), ?_, ?_, hul⟩
    · rw [monoDraw, e]; exact e2
    · simpa using (hd.trans hf.1).trans hu
  · exact .inr ⟨hr, by rw [monoDraw, e]; rfl⟩

/-- A 4G draw (R184, R185). -/
theorem greyDraw_cases {b : Bpp} {m : ReadMode} {g : Geom} (hw : g.w1 % 8 = 0 ∧ 0 < g.w1) (h : LifeOk s.life) :
    (Readable s m.space g m.mir b ∧ ∃ l k t, GreyStream s .cur b m g l ∧ GreyStream s .prev b m g k ∧ greyDraw b m g s = .next t ∧
      Did (greyLead s.panel s.life ++ (planeStream .cur g.rect l ++ planeStream .prev g.rect k) ++
          refreshEvents s.panel (greyLife s.life) s.rect)
        (refreshDrops s.panel (greyLife s.life) s.rect) s t ∧
      t.life = refreshLife s.panel (greyLife s.life) s.rect) ∨
    (¬ Readable s m.space g m.mir b ∧ greyDraw b m g s = .refused .unreadableSource) := by
  rcases greyWrite_cases hw h (b := b) (m := m) with ⟨hr, l, k, t, hl, hk, e, hd, ht⟩ | ⟨hr, e⟩
  · have hf := refreshRect_did (s := t) s.rect (lifeOk_of_ready (by rw [ht]; exact greyLife_ready _))
    rw [ht, hd.host.panel] at hf
    exact .inl ⟨hr, l, k, _, hl, hk, by rw [greyDraw, e]; rfl, by simpa using hd.trans hf.1, hf.2⟩
  · exact .inr ⟨hr, by rw [greyDraw, e]; rfl⟩

end Sys2Proof.Machine
end

