-- ==== Sys2Proof/Laws/Frame.lean ====
section
/-! SUPPORT. `Traced`: between two states some events were sent and nothing else was touched that `Did` names; every micro-operation is such,
in every state. -/

namespace Sys2Proof.Machine

variable {s t u : State}

/-- Some list of events relates the two states by `Did`, and no first-time flag was set. -/
structure Traced (s t : State) : Prop where
  did : ∃ evs d, Did evs d s t
  write : s.initialWrite = false → t.initialWrite = false
  refresh : s.initialRefresh = false → t.initialRefresh = false
  lost : s.diag.timeout = false → s.ctl.lost = false → (t.diag.timeout = true ↔ t.ctl.lost = true)
  lost' : s.diag.timeout = true → s.ctl.lost = true → t.diag.timeout = true ∧ t.ctl.lost = true

theorem Traced.refl (s : State) : Traced s s where
  did := ⟨[], false, .refl s⟩
  write := id
  refresh := id
  lost := fun h k => by simp [h, k]
  lost' := fun h k => ⟨h, k⟩

theorem Traced.trans (h : Traced s t) (k : Traced t u) : Traced s u where
  did := by
    obtain ⟨a, d, ha⟩ := h.did
    obtain ⟨b, e, hb⟩ := k.did
    exact ⟨_, _, ha.trans hb⟩
  write := fun w => k.write (h.write w)
  refresh := fun w => k.refresh (h.refresh w)
  lost := fun w l => by
    have hh := h.lost w l
    cases e : t.diag.timeout with
    | false => exact k.lost e (by simpa [e] using hh)
    | true => have := k.lost' e (hh.mp e); simp [this.1, this.2]
  lost' := fun w l => k.lost' (h.lost' w l).1 (h.lost' w l).2

theorem Traced.host (h : Traced s t) : SameHostSide s t := by obtain ⟨_, _, hd⟩ := h.did; exact hd.host

/-- Sending events. -/
theorem traced_emitAll (evs : List Event) (hw : evs.countP Event.isWait = 0) (s : State) : Traced s (emitAll evs s) where
  did := ⟨evs, false, did_emitAll evs hw s⟩
  write := id
  refresh := id
  lost := fun h k => by simp [h, k]
  lost' := fun h k => by simp [h, k]

/-- Setting mode and flags, when no first-time flag is set. -/
theorem traced_withLife (s : State) (l : Life) (v : List Live) (hw : s.initialWrite = false → l.initialWrite = false)
    (hr : s.initialRefresh = false → l.initialRefresh = false) : Traced s (s.withLife l v) where
  did := ⟨[], false, (Did.refl s).setLife l v⟩
  write := hw
  refresh := hr
  lost := fun h k => by simp [State.withLife, h, k]
  lost' := fun h k => ⟨h, k⟩

theorem Traced.relife (h : Traced s t) (e : u = t.withLife u.life u.seen) (hw : t.initialWrite = false → u.initialWrite = false)
    (hr : t.initialRefresh = false → u.initialRefresh = false) : Traced s u := by
  refine h.trans ?_
  rw [e]
  exact traced_withLife t u.life u.seen hw hr

theorem Traced.note (h : Traced s t) : Traced s (Machine.note t) := h.relife rfl id id

theorem traced_wait (c : WaitClass) (s : State) : Traced s (wait c s) where
  did := ⟨_, _, did_wait c s⟩
  write := by simp
  refresh := by simp
  lost := fun h k => by
    rw [wait_diag, wait_ctl]
    cases (takeAnswer (emitAll [.wait c] s)).1 <;> simp [h, act_lost, k]
  lost' := fun h k => by
    rw [wait_diag, wait_ctl]
    cases (takeAnswer (emitAll [.wait c] s)).1 <;> simp [h, act_lost, k]

theorem traced_setDrop (s : State) : Traced s (setDrop s) where
  did := ⟨[], true, did_setDrop s⟩
  write := id
  refresh := id
  lost := fun h k => by simp [h, k]
  lost' := fun h k => by simp [h, k]

theorem traced_initWith (n : SeqName) (m : Mode) (s : State) : Traced s (initWith n m s) := by
  rw [initWith_eq]
  exact (traced_emitAll _ (by split <;> rfl) s).trans (traced_withLife _ _ _ id id)

theorem traced_ensureInit (s : State) : Traced s (ensureInit s) := by
  unfold ensureInit; split <;> [exact .refl s; exact traced_initWith ..]

theorem traced_modeStepFill (s : State) : Traced s (modeStepFill s) := by
  refine (traced_ensureInit s).trans ?_
  unfold modeStepFill; simp only
  split <;> first | exact .refl _ | exact traced_initWith ..

theorem traced_modeStepMono (s : State) : Traced s (modeStepMono s) := by
  refine (traced_ensureInit s).trans ?_
  unfold modeStepMono; simp only
  split <;> first | exact .refl _ | exact traced_initWith ..

theorem traced_modeStepGrey (s : State) : Traced s (modeStepGrey s) := (traced_ensureInit s).trans (traced_initWith ..)

theorem traced_fill (q : Plane) (v : Byte) (s : State) : Traced s (fill q v s) := traced_emitAll _ (by simp) s

theorem traced_fillPrev (v : Byte) (s : State) : Traced s (fillPrev v s) := by
  unfold fillPrev; split <;> [exact traced_fill ..; exact .refl s]

theorem traced_clearWrite (s : State) : Traced s { s with initialWrite := false } :=
  (Traced.refl s).relife rfl (fun _ => rfl) id

theorem traced_fillScreen (v : Byte) (s : State) : Traced s (fillScreen v s) :=
  ((traced_clearWrite s).trans (traced_modeStepFill _)).trans (traced_fill ..)

theorem traced_initialFill (s : State) : Traced s (initialFill s) := by
  unfold initialFill
  split <;> [exact (traced_fillScreen s.panel.initFill s).trans (traced_fillPrev ..); exact .refl s]

theorem traced_ensurePower (s : State) : Traced s (ensurePower s) := by
  unfold ensurePower
  split
  · exact .refl s
  · exact ((traced_emitAll [.seq .powerOn] rfl s).trans (traced_wait .pon _)).relife rfl id id

theorem traced_powerOffProc (s : State) : Traced s (powerOffProc s) := by
  unfold powerOffProc
  split
  · simp only
    have h : Traced s { wait .poff (emit (.seq .powerOff) s) with powerIsOn := false } :=
      ((traced_emitAll [.seq .powerOff] rfl s).trans (traced_wait .poff _)).relife rfl id id
    split
    · exact (h.note.relife (u := { note { wait .poff (emit (.seq .powerOff) s) with powerIsOn := false } with mode := .fullRefresh })
        rfl id id).note.relife rfl id id
    · exact h
  · exact .refl s

theorem traced_updateFull (s : State) : Traced s (updateFull s) := by
  unfold updateFull
  split
  · exact (traced_emitAll [.window (planeRect s.panel), .seq .updateGrey] rfl s).trans (traced_wait ..)
  all_goals exact ((traced_emitAll [.seq .updateFull] rfl s).trans (traced_wait .full _)).relife rfl id id

theorem traced_refreshFull (s : State) : Traced s (refreshFull s) := by
  have h : Traced s (refreshFullReady s) := by
    refine (traced_ensureInit s).trans ?_
    unfold refreshFullReady; simp only
    split <;> first | exact traced_ensurePower _ | exact (traced_initWith ..).trans (traced_ensurePower _)
  exact (h.trans (traced_updateFull _)).relife rfl id (fun _ => rfl)

theorem traced_updateRect (g : Rect) (s : State) : Traced s (updateRect g s) := by
  unfold updateRect
  split
  · exact (traced_emitAll [.window g, .seq .updateGrey] rfl s).trans (traced_wait ..)
  all_goals exact (traced_emitAll [.window g, .seq .updatePart] rfl s).trans (traced_wait ..)

theorem traced_refreshRect (r : Rect) (s : State) : Traced s (refreshRect r s) := by
  unfold refreshRect
  split
  · exact traced_refreshFull s
  · split
    · exact traced_setDrop s
    · refine Traced.trans ((traced_ensureInit s).trans ?_) (traced_updateRect ..)
      unfold refreshRectReady; simp only
      split <;> first | exact traced_ensurePower _ | exact (traced_initWith ..).trans (traced_ensurePower _)

theorem traced_deepSleep (s : State) : Traced s (deepSleep s) :=
  (traced_emitAll [.seq .deepSleep] rfl s).relife rfl id id

theorem traced_streamImage {q : Plane} {g : Geom} {o : Option (List Byte)} (e : streamImage q g o s = .next t) : Traced s t := by
  unfold streamImage at e
  split at e
  · simp at e
  · obtain rfl : streamPlane q g.rect _ s = t := by simpa using e
    exact traced_emitAll _ (by simp) s

/-- `andThen` goes on only through a next state. -/
theorem next_of_andThen {o : Out} {k : State → Out} (h : andThen o k = .next u) : ∃ t, o = .next t ∧ k t = .next u := by
  cases o with
  | next s => exact ⟨s, rfl, h⟩
  | fault r => simp [andThen] at h
  | refused r => simp [andThen] at h

theorem traced_monoWrite {m : ReadMode} {g : Geom} (e : monoWrite m g s = .next t) : Traced s t :=
  ((traced_initialFill s).trans (traced_modeStepMono _)).trans (traced_streamImage e)

theorem traced_greyWrite {b : Bpp} {m : ReadMode} {g : Geom} (e : greyWrite b m g s = .next t) : Traced s t := by
  obtain ⟨u, e1, e2⟩ := next_of_andThen e
  exact (((traced_initialFill s).trans (traced_modeStepGrey _)).trans (traced_streamImage e1)).trans (traced_streamImage e2)

theorem traced_drawAgain {m : ReadMode} {g : Geom} (e : drawAgain m g s = .next t) : Traced s t := by
  unfold drawAgain at e
  split at e
  · exact (traced_modeStepMono s).trans (traced_streamImage e)
  · obtain rfl : s = t := by simpa using e
    exact .refl s

theorem traced_monoDraw {m : ReadMode} {g : Geom} (e : monoDraw m g s = .next t) : Traced s t := by
  obtain ⟨u, e1, e2⟩ := next_of_andThen e
  exact ((traced_monoWrite e1).trans (traced_refreshRect ..)).trans (traced_drawAgain e2)

theorem traced_greyDraw {b : Bpp} {m : ReadMode} {g : Geom} (e : greyDraw b m g s = .next t) : Traced s t := by
  obtain ⟨u, e1, e2⟩ := next_of_andThen e
  obtain rfl : refreshRect s.rect u = t := by simpa using e2
  exact (traced_greyWrite e1).trans (traced_refreshRect ..)

theorem traced_onGeom {o : Option Geom} {k : Geom → State → Out} (hk : ∀ g, k g s = .next t → Traced s t) (e : onGeom o k s = .next t) :
    Traced s t := by
  unfold onGeom at e
  split at e
  · obtain rfl : setDrop s = t := by simpa using e
    exact traced_setDrop s
  · exact hk _ e

end Sys2Proof.Machine
end

