-- ==== Sys2Proof/Laws/Protocol.lean ====
section
/-! SUPPORT. `Legal`: a run of events that keeps the transport protocol and the link, which composes, and of which every micro-operation
is one. -/

namespace Sys2Proof.Machine

variable {s t u : State}

theorem protocolRun_append (p : Panel) (a b : List Event) (ph : Option Phase) :
    protocolRun p (a ++ b) ph = protocolRun p b (protocolRun p a ph) := List.foldl_append

theorem linkRun_append (p : Panel) (a b : List Event) (l : Option Link) :
    linkRun p (a ++ b) l = linkRun p b (linkRun p a l) := List.foldl_append

/-- The link agrees with the engine's belief. -/
def Link.Agrees (k : Link) (l : Life) : Prop :=
  k.powered = l.powerIsOn ∧ (l.initDone = true → k.loaded = some (initSeqOf l.mode))

/-- Between two states the trace has grown by a legal run: the protocol goes from idle to idle, and a link that agreed agrees again. -/
def Legal (s t : State) : Prop :=
  ∃ evs d, Did evs d s t ∧
    (PanelOk s.panel → protocolRun s.panel evs (some .idle) = some .idle) ∧
    (∀ k : Link, k.Agrees s.life → ∃ k', linkRun s.panel evs (some k) = some k' ∧ k'.Agrees t.life)

theorem Legal.refl (s : State) : Legal s s := ⟨[], false, .refl s, fun _ => rfl, fun k h => ⟨k, rfl, h⟩⟩

theorem Legal.trans (h : Legal s t) (k : Legal t u) : Legal s u := by
  obtain ⟨a, d, ha, hp, hl⟩ := h
  obtain ⟨b, e, kb, kp, kl⟩ := k
  rw [ha.host.panel] at kp kl
  refine ⟨a ++ b, d || e, ha.trans kb, fun ok => by rw [protocolRun_append, hp ok, kp ok], fun k hk => ?_⟩
  obtain ⟨k1, e1, a1⟩ := hl k hk
  obtain ⟨k2, e2, a2⟩ := kl k1 a1
  exact ⟨k2, by rw [linkRun_append, e1, e2], a2⟩

theorem legal_setDrop (s : State) : Legal s (setDrop s) := ⟨[], true, did_setDrop s, fun _ => rfl, fun k h => ⟨k, rfl, h⟩⟩

/-! ### Plane streams -/

theorem protocolRun_xfers (p : Panel) (l : List Byte) (n : Nat) :
    protocolRun p (l.map Event.xfer) (some (.streaming (l.length + n))) = some (.streaming n) := by
  induction l with
  | nil => simp [protocolRun]
  | cons b l ih =>
    have : l.length + 1 + n = (l.length + n) + 1 := by omega
    simpa [protocolRun, Phase.next, this] using ih

/-- A plane stream is a run of the protocol, when its window is valid, its plane exists and its bytes are as many as the window
takes (R50, R51, R52). -/
theorem protocolRun_planeStream {p : Panel} {q : Plane} {r : Rect} {l : List Byte} (hw : WindowOk p r)
    (hq : q = .prev → p.hasPrev = true) (hl : l.length = (r.w / 8 * r.h).toNat) :
    protocolRun p (planeStream q r l) (some .idle) = some .idle := by
  have hx := protocolRun_xfers p l 0
  have hsel : Phase.next p (.windowed r) (.planeSel q) = some (.selected r) := by
    cases q with
    | cur => rfl
    | prev => simp [Phase.next, hq rfl]
  have hwin : Phase.next p .idle (.window r) = some (.windowed r) := by simp only [Phase.next]; rw [if_pos hw]
  have hstart : Phase.next p (.selected r) .start = some (.streaming (l.length + 0)) := by simp [Phase.next, hl]
  rw [planeStream, ← List.singleton_append, protocolRun_append, ← List.singleton_append, protocolRun_append, ← List.singleton_append,
    protocolRun_append, protocolRun_append]
  have h1 : protocolRun p [.window r] (some .idle) = some (.windowed r) := hwin
  have h2 : protocolRun p [.planeSel q] (some (.windowed r)) = some (.selected r) := hsel
  have h3 : protocolRun p [.start] (some (.selected r)) = some (.streaming (l.length + 0)) := hstart
  rw [h1, h2, h3, hx]
  rfl

theorem linkRun_planeStream (p : Panel) (q : Plane) (r : Rect) (l : List Byte) (k : Link) :
    linkRun p (planeStream q r l) (some k) = some k := by
  have hx : ∀ l : List Byte, linkRun p (l.map Event.xfer) (some k) = some k := by
    intro l; induction l with
    | nil => rfl
    | cons b l ih => exact ih
  rw [planeStream, ← List.singleton_append, linkRun_append, ← List.singleton_append, linkRun_append, ← List.singleton_append,
    linkRun_append, linkRun_append]
  exact (congrArg (linkRun p [.stop]) (hx l)).trans rfl

/-- A stream whose window is valid and whose bytes are as many as it takes is legal. -/
theorem legal_streamPlane {q : Plane} {r : Rect} {l : List Byte} (hw : PanelOk s.panel → WindowOk s.panel r)
    (hq : q = .prev → s.panel.hasPrev = true) (hl : l.length = (r.w / 8 * r.h).toNat) : Legal s (streamPlane q r l s) :=
  ⟨planeStream q r l, false, did_emitAll _ (by simp) s, fun ok => protocolRun_planeStream (hw ok) hq hl,
    fun k h => ⟨k, linkRun_planeStream .., h⟩⟩

theorem planeRect_bytes (p : Panel) : planeBytes p = ((planeRect p).w / 8 * (planeRect p).h).toNat := by
  have h := planeWB_eq p
  simp only [planeRect, planeBytes]
  rw [← h]
  exact_mod_cast rfl

/-- A fill is legal. -/
theorem legal_fill {q : Plane} (v : Byte) (hq : q = .prev → s.panel.hasPrev = true) : Legal s (fill q v s) :=
  legal_streamPlane planeRect_window hq (by simpa using planeRect_bytes s.panel)

/-! ### The mode machine -/

/-- A list of events is legal between two mode-and-flag values. -/
def LegalEvents (p : Panel) (evs : List Event) (l m : Life) : Prop :=
  protocolRun p evs (some .idle) = some .idle ∧
  ∀ k : Link, k.Agrees l → ∃ k', linkRun p evs (some k) = some k' ∧ k'.Agrees m

theorem legal_of_events {evs : List Event} {d : Bool} (h : Did evs d s t) (k : LegalEvents s.panel evs s.life t.life) : Legal s t :=
  ⟨evs, d, h, fun _ => k.1, k.2⟩

theorem legal_ensureInit (h : LifeOk s.life) : Legal s (ensureInit s) := by
  refine legal_of_events (ensureInit_did s) ?_
  rw [ensureInit_life h]
  unfold ensureEvents
  obtain ⟨h1, h2⟩ := h
  by_cases hd : s.life.initDone = true
  · simp only [hd, ↓reduceIte]
    exact ⟨rfl, fun k hk => ⟨k, rfl, hk.1, fun _ => hk.2 hd⟩⟩
  · have hm := h1 (by simpa using hd)
    by_cases hb : s.life.hibernating = true <;> simp only [hd, hb, Bool.false_eq_true, ↓reduceIte] <;>
      exact ⟨rfl, fun k hk => ⟨_, rfl, hk.1, fun _ => by simp [hm, initSeqOf]⟩⟩

/-- An init micro-operation in a ready state, when it sends the sequence of the mode it sets, is legal. -/
theorem legal_initWith {n : SeqName} {m : Mode} (h : Ready s.life) (hn : n = initSeqOf m) : Legal s (initWith n m s) := by
  refine legal_of_events (did_initWith_ready n m h) ?_
  rw [initWith_life, hn]
  cases m <;> exact ⟨rfl, fun k hk => ⟨_, rfl, hk.1, fun _ => rfl⟩⟩

theorem ready_ensureInit (h : LifeOk s.life) : Ready (ensureInit s).life := by rw [ensureInit_life h]; exact ⟨rfl, rfl⟩

theorem legal_modeStepFill (h : LifeOk s.life) : Legal s (modeStepFill s) := by
  refine (legal_ensureInit h).trans ?_
  unfold modeStepFill
  simp only
  split
  · exact legal_initWith (ready_ensureInit h) rfl
  · exact .refl _
  · exact .refl _
  · exact .refl _

theorem legal_modeStepMono (h : LifeOk s.life) : Legal s (modeStepMono s) := by
  refine (legal_ensureInit h).trans ?_
  unfold modeStepMono
  simp only
  split
  · exact legal_initWith (ready_ensureInit h) rfl
  · exact legal_initWith (ready_ensureInit h) rfl
  · exact .refl _
  · exact .refl _

theorem legal_modeStepGrey (h : LifeOk s.life) : Legal s (modeStepGrey s) :=
  (legal_ensureInit h).trans (legal_initWith (ready_ensureInit h) rfl)

theorem legal_fillPrev (v : Byte) (s : State) : Legal s (fillPrev v s) := by
  unfold fillPrev
  split <;> [exact legal_fill v (fun _ => ‹_›); exact .refl s]

/-- Clearing `initial_write` is no event. -/
theorem legal_clearInitialWrite (s : State) : Legal s { s with initialWrite := false } :=
  ⟨[], false, (Did.refl s).relife rfl, fun _ => rfl, fun k h => ⟨k, rfl, h⟩⟩

theorem legal_fillScreen (v : Byte) (h : LifeOk s.life) : Legal s (fillScreen v s) :=
  ((legal_clearInitialWrite s).trans (legal_modeStepFill (s := { s with initialWrite := false }) h)).trans (legal_fill v (by simp))

theorem legal_initialFill (h : LifeOk s.life) : Legal s (initialFill s) := by
  unfold initialFill
  split <;> [exact (legal_fillScreen s.panel.initFill h).trans (legal_fillPrev _ _); exact .refl s]

theorem lifeOk_initialFill (h : LifeOk s.life) : LifeOk (initialFill s).life := by
  rw [(initialFill_did h).2]
  split <;> [simp [LifeOk]; exact h]

theorem legal_monoPrelude (h : LifeOk s.life) : Legal s (modeStepMono (initialFill s)) :=
  (legal_initialFill h).trans (legal_modeStepMono (lifeOk_initialFill h))

theorem legal_greyPrelude (h : LifeOk s.life) : Legal s (modeStepGrey (initialFill s)) :=
  (legal_initialFill h).trans (legal_modeStepGrey (lifeOk_initialFill h))

/-! ### Power and refresh -/

theorem legal_powerOffProc (s : State) : Legal s (powerOffProc s) := by
  refine legal_of_events (powerOffProc_did s).1 ?_
  rw [(powerOffProc_did s).2]
  unfold powerOffEvents powerOffLife
  by_cases h : s.life.powerIsOn = true
  · by_cases q : s.panel.powerOffForcesFull = true <;> simp only [h, q, Bool.false_eq_true, ↓reduceIte]
    · exact ⟨rfl, fun k hk => ⟨_, rfl, rfl, by simp⟩⟩
    · exact ⟨rfl, fun k hk => ⟨_, rfl, rfl, by simpa [q] using hk.2⟩⟩
  · simp only [h, Bool.false_eq_true, ↓reduceIte]
    exact ⟨rfl, fun k hk => ⟨k, rfl, hk⟩⟩

/-- `EnsurePower` leaves a link that is powered and otherwise as it was. -/
theorem legal_ensurePower (s : State) : Legal s (ensurePower s) := by
  refine legal_of_events (ensurePower_did s).1 ?_
  rw [(ensurePower_did s).2]
  unfold powerEvents
  by_cases h : s.life.powerIsOn = true <;> simp only [h, Bool.false_eq_true, ↓reduceIte]
  · exact ⟨rfl, fun k hk => ⟨k, rfl, hk.1.trans h, hk.2⟩⟩
  · exact ⟨rfl, fun k hk => ⟨_, rfl, rfl, hk.2⟩⟩

theorem legal_refreshFullReady (h : LifeOk s.life) : Legal s (refreshFullReady s) := by
  refine (legal_ensureInit h).trans ?_
  unfold refreshFullReady
  simp only
  split
  · exact (legal_initWith (ready_ensureInit h) rfl).trans (legal_ensurePower _)
  · exact legal_ensurePower _
  · exact legal_ensurePower _
  · exact legal_ensurePower _

/-- A link that agrees with a powered, initialised state is the link its mode's LUT needs. -/
theorem Link.eq_of_agrees {k : Link} {l : Life} (h : k.Agrees l) (hp : l.powerIsOn = true) (hd : l.initDone = true) :
    k = ⟨some (initSeqOf l.mode), true⟩ := by
  obtain ⟨a, b⟩ := k
  simp only [Link.mk.injEq]
  exact ⟨h.2 hd, h.1.trans hp⟩

theorem legal_updateFull (hp : s.powerIsOn = true) (hd : s.initDone = true) (hm : s.mode ≠ .fastRefresh) :
    Legal s (updateFull s) := by
  refine ⟨_, _, (updateFull_did hm).1, fun ok => ?_, fun k hk => ?_⟩
  · cases e : s.mode with
    | fastRefresh => exact absurd e hm
    | greyRefresh =>
      have hw := planeRect_window ok
      simp only [fullTable, protocolRun, List.foldl, Option.bind_some, Phase.next]
      rw [if_pos hw]; rfl
    | fullRefresh | forcedFullRefresh => rfl
  · obtain rfl := Link.eq_of_agrees hk hp hd
    rw [(updateFull_did hm).2]
    cases e : s.mode with
    | fastRefresh => exact absurd e hm
    | greyRefresh | fullRefresh | forcedFullRefresh =>
      simp only [State.life, e, fullTable, initSeqOf]
      exact ⟨_, rfl, by simp [hp], by simp [initSeqOf]⟩

theorem legal_refreshFull (h : LifeOk s.life) : Legal s (refreshFull s) := by
  have hr := refreshFullReady_did h
  have hl := hr.2
  simp only [State.life, Life.mk.injEq] at hl
  have hu := legal_updateFull (s := refreshFullReady s) hl.2.1 hl.2.2.2.2.2
    (by rw [hl.1]; split <;> simp_all)
  refine ((legal_refreshFullReady h).trans hu).trans ⟨[], false, (Did.refl _).relife rfl, fun _ => rfl, fun k hk => ⟨k, rfl, hk⟩⟩

theorem legal_refreshRectReady (h : LifeOk s.life) : Legal s (refreshRectReady s) := by
  refine (legal_ensureInit h).trans ?_
  unfold refreshRectReady
  simp only
  split
  · exact (legal_initWith (ready_ensureInit h) rfl).trans (legal_ensurePower _)
  · exact legal_ensurePower _
  · exact legal_ensurePower _
  · exact legal_ensurePower _

theorem legal_updateRect {g : Rect} (hw : WindowOk s.panel g) (hp : s.powerIsOn = true) (hd : s.initDone = true)
    (hm : s.mode = .fastRefresh ∨ s.mode = .greyRefresh) : Legal s (updateRect g s) := by
  refine ⟨_, _, (updateRect_did g s).1, fun _ => ?_, fun k hk => ?_⟩
  · rcases hm with e | e <;>
    · simp only [e, rectTable, protocolRun, List.foldl, Option.bind_some, Phase.next]
      rw [if_pos hw]; rfl
  · obtain rfl := Link.eq_of_agrees hk hp hd
    rw [(updateRect_did g s).2]
    rcases hm with e | e <;>
    · simp only [State.life, e, rectTable, initSeqOf]
      exact ⟨_, rfl, by simp [hp], by simp [initSeqOf]⟩

theorem legal_refreshRect (r : Rect) (h : LifeOk s.life) : Legal s (refreshRect r s) := by
  unfold refreshRect
  split
  · exact legal_refreshFull h
  · rename_i hred
    split
    · exact legal_setDrop s
    · rename_i g hg
      have hr := refreshRectReady_did h
      have hl := hr.2
      simp only [State.life, Life.mk.injEq] at hl
      refine (legal_refreshRectReady h).trans (legal_updateRect (by rw [hr.1.host.panel]; exact geomRefresh_window hg) hl.2.1 hl.2.2.2.2.2 ?_)
      rw [hl.1]
      cases e : s.mode <;> simp [rectTable]
      simp [redirected, e] at hred

/-! ### Images -/

/-- A stream of an image whose window is valid is legal, where it is not refused. -/
theorem legal_streamImage {q : Plane} {g : Geom} {byteOf : Nat → Nat → Option Byte} (hw : WindowOk s.panel g.rect)
    (hq : q = .prev → s.panel.hasPrev = true) (e : streamImage q g (windowBytes g byteOf) s = .next t) : Legal s t := by
  unfold streamImage at e
  split at e
  · simp at e
  · rename_i l hl
    obtain rfl : streamPlane q g.rect l s = t := by simpa using e
    have hx : 0 < g.w1 := hw.2.2.2.2.2.2.1
    have hy : 0 < g.h1 := hw.2.2.2.2.2.2.2
    refine legal_streamPlane (fun _ => hw) hq ((windowBytes_length hl).trans ?_)
    rw [← Int.toNat_mul (by omega) (by omega)]
    rfl

theorem legal_monoWrite {m : ReadMode} {g : Geom} (h : LifeOk s.life) (hw : WindowOk s.panel g.rect)
    (e : monoWrite m g s = .next t) : Legal s t ∧ t.life = monoLife s.life := by
  have hp := monoPrelude_did h
  refine ⟨(legal_monoPrelude h).trans (legal_streamImage (by rw [hp.1.host.panel]; exact hw) (by simp) e), ?_⟩
  rw [← hp.2]
  unfold monoWrite writeMono streamImage at e
  split at e
  · simp at e
  · simp only [Host.Outcome.next.injEq] at e
    rw [← e, streamPlane_life]

theorem legal_greyWrite {b : Bpp} {m : ReadMode} {g : Geom} (h : LifeOk s.life) (hw : WindowOk s.panel g.rect)
    (hq : s.panel.hasPrev = true) (e : greyWrite b m g s = .next t) : Legal s t ∧ t.life = greyLife s.life := by
  have hp := greyPrelude_did h
  obtain ⟨u, e1, e2⟩ := next_of_andThen e
  have hu := legal_streamImage (by rw [hp.1.host.panel]; exact hw) (by simp) e1
  have hup : u.panel = s.panel := by
    obtain ⟨_, _, hd, _⟩ := hu
    exact hd.host.panel.trans hp.1.host.panel
  refine ⟨((legal_greyPrelude h).trans hu).trans (legal_streamImage (by rw [hup]; exact hw) (fun _ => by rw [hup]; exact hq) e2), ?_⟩
  rw [← hp.2]
  unfold streamImage at e1 e2
  split at e1
  · simp at e1
  · split at e2
    · simp at e2
    · simp only [Host.Outcome.next.injEq] at e1 e2
      rw [← e2, ← e1, streamPlane_life, streamPlane_life]

/-- The second write of a mono draw (R192). -/
theorem legal_drawAgain {m : ReadMode} {g : Geom} (h : LifeOk s.life) (hw : WindowOk s.panel g.rect) (e : drawAgain m g s = .next t) :
    Legal s t := by
  unfold drawAgain at e
  split at e
  · rename_i hb
    have hm := modeStepMono_did h
    refine (legal_modeStepMono h).trans (legal_streamImage (by rw [hm.1.host.panel]; exact hw) (fun _ => ?_) e)
    rw [hm.1.host.panel]
    simp only [Bool.and_eq_true] at hb
    exact hb.2
  · obtain rfl : s = t := by simpa using e
    exact .refl s

theorem legal_monoDraw {m : ReadMode} {g : Geom} (h : LifeOk s.life) (hw : WindowOk s.panel g.rect) (e : monoDraw m g s = .next t) :
    Legal s t := by
  obtain ⟨u, e1, e2⟩ := next_of_andThen e
  obtain ⟨h1, hu⟩ := legal_monoWrite h hw e1
  have hl : LifeOk u.life := lifeOk_of_ready (by rw [hu]; exact monoLife_ready _)
  have hr := refreshRect_did s.rect hl
  have hp : (refreshRect s.rect u).panel = s.panel := by
    obtain ⟨_, _, hd, _⟩ := h1
    exact hr.1.host.panel.trans hd.host.panel
  refine (h1.trans (legal_refreshRect s.rect hl)).trans (legal_drawAgain ?_ (by rw [hp]; exact hw) e2)
  rw [hr.2, hu]
  exact lifeOk_of_ready (refreshLife_ready _ (monoLife_ready _) _)

theorem legal_greyDraw {b : Bpp} {m : ReadMode} {g : Geom} (h : LifeOk s.life) (hw : WindowOk s.panel g.rect)
    (hq : s.panel.hasPrev = true) (e : greyDraw b m g s = .next t) : Legal s t := by
  obtain ⟨u, e1, e2⟩ := next_of_andThen e
  obtain rfl : refreshRect s.rect u = t := by simpa using e2
  obtain ⟨h1, hu⟩ := legal_greyWrite h hw hq e1
  exact h1.trans (legal_refreshRect s.rect (lifeOk_of_ready (by rw [hu]; exact greyLife_ready _)))

theorem legal_deepSleep (s : State) : Legal s (deepSleep s) :=
  legal_of_events (deepSleep_did s).1 ⟨rfl, fun k hk => ⟨_, rfl, hk.1, fun h => by simp [deepSleep, State.life] at h⟩⟩

end Sys2Proof.Machine
end

