-- ==== Sys2Proof/Laws/Commands.lean ====
section
/-! SUPPORT. `exec`, once: in every state it is `Traced`, in a coherent one `Legal`, and what it sends and leaves has one of the eleven shapes of
`Shape`. -/

namespace Sys2Proof.Machine

theorem imageGeom_window {s : State} {g : Geom} (e : imageGeom s = some g) : WindowOk s.panel g.rect := geomWrite_window e

theorem partGeom_window {s : State} {u : Nat} {g : Geom} (e : partGeom s u = some g) : WindowOk s.panel g.rect := geomPart_window e

/-- A rectangle command: dropped, or run on its geometry (R96). -/
theorem onGeom_next {o : Option Geom} {k : Geom → State → Out} {s t : State} (e : onGeom o k s = .next t) :
    (o = none ∧ t = setDrop s) ∨ ∃ g, o = some g ∧ k g s = .next t := by
  unfold onGeom at e
  split at e
  · simp at e; exact .inl ⟨rfl, e.symm⟩
  · exact .inr ⟨_, rfl, e⟩

/-- A 4G command without a previous plane sets `ILLEGAL` (R172). -/
theorem exec_illegal {i : Instr} {s : State} (h : i.isFourGrey = true ∧ s.panel.hasPrev = false) : exec i s = .next (setIllegal s) := by
  cases i <;> simp [Instr.isFourGrey] at h <;> simp [exec, execWimg4, execWimgp4, execDimg4, execDimgp4, needsPrev, h]

/-- Any other command that goes on. -/
theorem traced_exec {i : Instr} {s t : State} (e : exec i s = .next t)
    (hp : ¬ (i.isFourGrey = true ∧ s.panel.hasPrev = false)) : Traced s t := by
  cases i with
  | wimg a b c => exact traced_onGeom (fun g => traced_monoWrite) e
  | wimgp a b c => exact traced_onGeom (fun g => traced_monoWrite) e
  | dimg a b c => exact traced_onGeom (fun g => traced_monoDraw) e
  | dimgp a b c => exact traced_onGeom (fun g => traced_monoDraw) e
  | wimg4 p a b c => simp [exec, execWimg4, needsPrev, Instr.isFourGrey] at e hp; simp [hp] at e; exact traced_onGeom (fun g => traced_greyWrite) e
  | wimgp4 p a b c => simp [exec, execWimgp4, needsPrev, Instr.isFourGrey] at e hp; simp [hp] at e; exact traced_onGeom (fun g => traced_greyWrite) e
  | dimg4 p a b c => simp [exec, execDimg4, needsPrev, Instr.isFourGrey] at e hp; simp [hp] at e; exact traced_onGeom (fun g => traced_greyDraw) e
  | dimgp4 p a b c => simp [exec, execDimgp4, needsPrev, Instr.isFourGrey] at e hp; simp [hp] at e; exact traced_onGeom (fun g => traced_greyDraw) e
  | clrs v => simp [exec, execClrs] at e; subst e; exact ((traced_fillScreen v s).trans (traced_fillPrev v _)).trans (traced_refreshFull _)
  | wsb v => simp [exec, execWsb] at e; subst e; exact traced_fillScreen v s
  | wsba v =>
    simp only [exec, execWsba, Host.Outcome.next.injEq] at e; subst e
    refine (traced_modeStepFill s).trans ?_; split <;> exact traced_fill ..
  | rfsh a => simp only [exec, execRfsh, Host.Outcome.next.injEq] at e; subst e; split <;> [exact traced_refreshRect ..; exact traced_refreshFull _]
  | rfshr => simp only [exec, execRfshr, Host.Outcome.next.injEq] at e; subst e; exact traced_refreshRect ..
  | pwroff => simp only [exec, execPwroff, Host.Outcome.next.injEq] at e; subst e; exact traced_powerOffProc s
  | hiber =>
    simp only [exec, execHiber, Host.Outcome.next.injEq] at e; subst e
    split
    · exact .refl s
    · split <;> [exact (traced_powerOffProc s).trans (traced_deepSleep _); exact traced_powerOffProc s]

/-- And in a coherent state. -/
theorem legal_exec {i : Instr} {s t : State} (hc : Coherent s) (e : exec i s = .next t)
    (hp : ¬ (i.isFourGrey = true ∧ s.panel.hasPrev = false)) : Legal s t := by
  have hl := hc.lifeOk
  cases i with
  | wimg a b c =>
    rcases onGeom_next e with ⟨_, rfl⟩ | ⟨g, hg, e⟩
    · exact legal_setDrop s
    · exact (legal_monoWrite hl (imageGeom_window hg) e).1
  | wimgp a b c =>
    rcases onGeom_next e with ⟨_, rfl⟩ | ⟨g, hg, e⟩
    · exact legal_setDrop s
    · exact (legal_monoWrite hl (partGeom_window hg) e).1
  | dimg a b c =>
    rcases onGeom_next e with ⟨_, rfl⟩ | ⟨g, hg, e⟩
    · exact legal_setDrop s
    · exact legal_monoDraw hl (imageGeom_window hg) e
  | dimgp a b c =>
    rcases onGeom_next e with ⟨_, rfl⟩ | ⟨g, hg, e⟩
    · exact legal_setDrop s
    · exact legal_monoDraw hl (partGeom_window hg) e
  | wimg4 p a b c =>
    simp [exec, execWimg4, needsPrev, Instr.isFourGrey] at e hp; simp [hp] at e
    rcases onGeom_next e with ⟨_, rfl⟩ | ⟨g, hg, e⟩
    · exact legal_setDrop s
    · exact (legal_greyWrite hl (imageGeom_window hg) hp e).1
  | wimgp4 p a b c =>
    simp [exec, execWimgp4, needsPrev, Instr.isFourGrey] at e hp; simp [hp] at e
    rcases onGeom_next e with ⟨_, rfl⟩ | ⟨g, hg, e⟩
    · exact legal_setDrop s
    · exact (legal_greyWrite hl (partGeom_window hg) hp e).1
  | dimg4 p a b c =>
    simp [exec, execDimg4, needsPrev, Instr.isFourGrey] at e hp; simp [hp] at e
    rcases onGeom_next e with ⟨_, rfl⟩ | ⟨g, hg, e⟩
    · exact legal_setDrop s
    · exact legal_greyDraw hl (imageGeom_window hg) hp e
  | dimgp4 p a b c =>
    simp [exec, execDimgp4, needsPrev, Instr.isFourGrey] at e hp; simp [hp] at e
    rcases onGeom_next e with ⟨_, rfl⟩ | ⟨g, hg, e⟩
    · exact legal_setDrop s
    · exact legal_greyDraw hl (partGeom_window hg) hp e
  | clrs v =>
    simp only [exec, execClrs, Host.Outcome.next.injEq] at e; subst e
    refine ((legal_fillScreen v hl).trans (legal_fillPrev v _)).trans (legal_refreshFull ?_)
    rw [(fillPrev_did v (fillScreen v s)).2, (fillScreen_did v hl).2]; exact lifeOk_of_ready ⟨rfl, rfl⟩
  | wsb v => simp only [exec, execWsb, Host.Outcome.next.injEq] at e; subst e; exact legal_fillScreen v hl
  | wsba v =>
    simp only [exec, execWsba, Host.Outcome.next.injEq] at e; subst e; refine (legal_modeStepFill hl).trans ?_
    split
    · rename_i hp; refine legal_fill v (fun _ => ?_); rw [(modeStepFill_did hl).1.host.panel]; exact hp
    · exact legal_fill v (by simp)
  | rfsh a => simp only [exec, execRfsh, Host.Outcome.next.injEq] at e; subst e; split <;> [exact legal_refreshRect _ hl; exact legal_refreshFull hl]
  | rfshr => simp only [exec, execRfshr, Host.Outcome.next.injEq] at e; subst e; exact legal_refreshRect _ hl
  | pwroff => simp only [exec, execPwroff, Host.Outcome.next.injEq] at e; subst e; exact legal_powerOffProc s
  | hiber =>
    simp only [exec, execHiber, Host.Outcome.next.injEq] at e; subst e
    split
    · exact .refl s
    · split <;> [exact (legal_powerOffProc s).trans (legal_deepSleep _); exact legal_powerOffProc s]

/-- `HIBER` (R201). -/
theorem hiber_did {s t : State} (e : exec .hiber s = .next t) : Did (hiberEvents s.panel s.life) false s t ∧ t.life = hiberLife s.panel s.life := by
  simp only [exec, execHiber, Host.Outcome.next.injEq] at e
  by_cases h : s.hibernating = true
  · obtain rfl : s = t := by simpa [h] using e
    exact ⟨by simpa [hiberEvents, State.life, h] using Did.refl s, by simp [hiberLife, State.life, h]⟩
  · have hp := powerOffProc_did s
    by_cases k : s.panel.hasReset = true
    · obtain rfl : deepSleep (powerOffProc s) = t := by simpa [h, k] using e
      have hz := deepSleep_did (powerOffProc s)
      refine ⟨by simpa [hiberEvents, State.life, h, k] using hp.1.andThen hz.1, ?_⟩
      have hl := powerOffLife_keeps s.panel s.life
      rw [← hp.2] at hl
      rw [hz.2]
      simp [hiberLife, State.life, h, k] at hl ⊢
      exact ⟨hl.1, hl.2.2⟩
    · obtain rfl : powerOffProc s = t := by simpa [h, k] using e
      exact ⟨by simpa [hiberEvents, State.life, h, k] using hp.1, by rw [hp.2]; simp [hiberLife, State.life, h, k]⟩

/-- What a command sends, whether it sets `DROP`, and the mode and flags it leaves, from those it finds. -/
inductive Shape (p : Panel) (l : Life) : List Event → Bool → Life → Prop where
  | nothing (d : Bool) : Shape p l [] d l
  | mono (r : Rect) (bytes : List Byte) (hb : bytes.length = (r.w / 8).toNat * r.h.toNat) :
    Shape p l (monoLead p l ++ planeStream .cur r bytes) false (monoLife l)
  | grey (r : Rect) (cur prev : List Byte) :
    Shape p l (greyLead p l ++ (planeStream .cur r cur ++ planeStream .prev r prev)) false (greyLife l)
  | monoDraw (r q : Rect) (first second : List Byte) :
    Shape p l
      (monoLead p l ++ planeStream .cur r first ++ refreshEvents p (monoLife l) q ++
        againEvents p (refreshLife p (monoLife l) q) (planeStream .prev r second))
      (refreshDrops p (monoLife l) q) (againLife p (refreshLife p (monoLife l) q))
  | greyDraw (r q : Rect) (cur prev : List Byte) :
    Shape p l (greyLead p l ++ (planeStream .cur r cur ++ planeStream .prev r prev) ++ refreshEvents p (greyLife l) q)
      (refreshDrops p (greyLife l) q) (refreshLife p (greyLife l) q)
  | fill (q : Plane) (v : Byte) (w : Bool) (hw : w = false ∨ w = l.initialWrite) :
    Shape p l (ensureEvents l ++ (fillTable l.mode).1 ++ fillEvents p q v) false
      ⟨(fillTable l.mode).2, l.powerIsOn, false, w, l.initialRefresh, true⟩
  | clrs (v : Byte) :
    Shape p l
      (ensureEvents l ++ (fillTable l.mode).1 ++ bothFills p v ++
        fullEvents p ⟨(fillTable l.mode).2, l.powerIsOn, false, false, l.initialRefresh, true⟩)
      false (fullLife p ⟨(fillTable l.mode).2, l.powerIsOn, false, false, l.initialRefresh, true⟩)
  | full : Shape p l (fullEvents p l) false (fullLife p l)
  | rect (q : Rect) : Shape p l (refreshEvents p l q) (refreshDrops p l q) (refreshLife p l q)
  | off : Shape p l (powerOffEvents l) false (powerOffLife p l)
  | sleep (h : l.hibernating = false) (hr : p.hasReset = true) :
    Shape p l (powerOffEvents l ++ [.seq .deepSleep]) false ⟨.fullRefresh, false, true, l.initialWrite, l.initialRefresh, false⟩

/-- The two states are related by `Did` with events of some shape. -/
def Shaped (s t : State) : Prop := ∃ evs d, Did evs d s t ∧ Shape s.panel s.life evs d t.life

theorem Shaped.of {s t : State} {evs : List Event} {d : Bool} {l : Life} (h : Did evs d s t) (e : t.life = l)
    (k : Shape s.panel s.life evs d l) : Shaped s t := ⟨evs, d, h, e ▸ k⟩

/-- The one lemma about a command: its shape. -/
theorem shape_exec {i : Instr} {s t : State} (hc : Coherent s) (e : exec i s = .next t)
    (hp : ¬ (i.isFourGrey = true ∧ s.panel.hasPrev = false)) : Shaped s t := by
  have hl := hc.lifeOk
  have sd : ∀ (k : Geom → State → Out) (o), onGeom o k s = .next t → (∀ g, o = some g → k g s = .next t → Shaped s t) → Shaped s t := by
    intro k o e h
    rcases onGeom_next e with ⟨_, rfl⟩ | ⟨g, hg, e⟩
    · exact ⟨_, _, did_setDrop s, .nothing _⟩
    · exact h g hg e
  have mw : ∀ (m : ReadMode) (g : Geom), (g.xs + g.dx) % 8 = 0 → WindowOk s.panel g.rect → monoWrite m g s = .next t → Shaped s t := by
    intro m g h1 h2 e
    rcases monoWrite_cases h1 (geom_width h2).1 hl (m := m) with ⟨a, l, t', hm, ht, hd, hlife⟩ | ⟨_, h⟩
    · rw [e] at ht; cases ht; exact .of hd hlife (.mono _ _ hm.length)
    · rw [e] at h; cases h
  have md : ∀ (m : ReadMode) (g : Geom), (g.xs + g.dx) % 8 = 0 → WindowOk s.panel g.rect → monoDraw m g s = .next t → Shaped s t := by
    intro m g h1 h2 e
    rcases monoDraw_cases h1 (geom_width h2).1 hl (m := m) with ⟨a, l, k, t', _, _, ht, hd, hlife⟩ | ⟨_, h⟩
    · rw [e] at ht; cases ht; exact .of hd hlife (.monoDraw _ _ _ _)
    · rw [e] at h; cases h
  have gw : ∀ (b) (m : ReadMode) (g : Geom), WindowOk s.panel g.rect → greyWrite b m g s = .next t → Shaped s t := by
    intro b m g h2 e
    rcases greyWrite_cases (geom_width h2) hl (b := b) (m := m) with ⟨a, l, k, t', _, _, ht, hd, hlife⟩ | ⟨_, h⟩
    · rw [e] at ht; cases ht; exact .of hd hlife (.grey _ _ _)
    · rw [e] at h; cases h
  have gd : ∀ (b) (m : ReadMode) (g : Geom), WindowOk s.panel g.rect → greyDraw b m g s = .next t → Shaped s t := by
    intro b m g h2 e
    rcases greyDraw_cases (geom_width h2) hl (b := b) (m := m) with ⟨a, l, k, t', _, _, ht, hd, hlife⟩ | ⟨_, h⟩
    · rw [e] at ht; cases ht; exact .of hd hlife (.greyDraw _ _ _ _)
    · rw [e] at h; cases h
  cases i with
  | wimg a b c => exact sd _ _ e fun g hg e => mw _ g (imageGeom_columns hg) (imageGeom_window hg) e
  | wimgp a b c => exact sd _ _ e fun g hg e => mw _ g (partGeom_columns hg) (partGeom_window hg) e
  | dimg a b c => exact sd _ _ e fun g hg e => md _ g (imageGeom_columns hg) (imageGeom_window hg) e
  | dimgp a b c => exact sd _ _ e fun g hg e => md _ g (partGeom_columns hg) (partGeom_window hg) e
  | wimg4 p a b c =>
    simp [exec, execWimg4, needsPrev, Instr.isFourGrey] at e hp; simp [hp] at e
    exact sd _ _ e fun g hg e => gw _ _ g (imageGeom_window hg) e
  | wimgp4 p a b c =>
    simp [exec, execWimgp4, needsPrev, Instr.isFourGrey] at e hp; simp [hp] at e
    exact sd _ _ e fun g hg e => gw _ _ g (partGeom_window hg) e
  | dimg4 p a b c =>
    simp [exec, execDimg4, needsPrev, Instr.isFourGrey] at e hp; simp [hp] at e
    exact sd _ _ e fun g hg e => gd _ _ g (imageGeom_window hg) e
  | dimgp4 p a b c =>
    simp [exec, execDimgp4, needsPrev, Instr.isFourGrey] at e hp; simp [hp] at e
    exact sd _ _ e fun g hg e => gd _ _ g (partGeom_window hg) e
  | clrs v =>
    simp only [exec, execClrs, Host.Outcome.next.injEq] at e; subst e
    have h1 := fillScreen_did v hl
    have h2 := fillPrev_did v (fillScreen v s)
    have h3 := refreshFull_did (s := fillPrev v (fillScreen v s)) (by rw [h2.2, h1.2]; exact lifeOk_of_ready ⟨rfl, rfl⟩)
    have hpan : (fillPrev v (fillScreen v s)).panel = s.panel := h2.1.host.panel.trans h1.1.host.panel
    rw [h2.2, h1.2, hpan] at h3
    rw [h1.1.host.panel] at h2
    refine .of ?_ h3.2 (.clrs v)
    have := (h1.1.andThen h2.1).andThen h3.1
    simpa [bothFills, List.append_assoc, State.life] using this
  | wsb v =>
    simp only [exec, execWsb, Host.Outcome.next.injEq] at e; subst e
    exact .of (fillScreen_did v hl).1 (fillScreen_did v hl).2 (.fill .cur v _ (.inl rfl))
  | wsba v =>
    simp only [exec, execWsba, Host.Outcome.next.injEq] at e; subst e
    have h1 := modeStepFill_did hl
    have key : ∀ q, Shaped s (fill q v (modeStepFill s)) := by
      intro q
      have h2 : Did (fillEvents s.panel q v) false (modeStepFill s) (fill q v (modeStepFill s)) := by
        rw [← h1.1.host.panel]; exact did_emitAll _ (by simp) _
      exact .of (h1.1.andThen h2) h1.2 (.fill q v _ (.inr rfl))
    split <;> exact key _
  | rfsh a =>
    simp only [exec, execRfsh, Host.Outcome.next.injEq] at e; subst e
    split
    · exact .of (refreshRect_did _ hl).1 (refreshRect_did _ hl).2 (.rect _)
    · exact .of (refreshFull_did hl).1 (refreshFull_did hl).2 (.full)
  | rfshr =>
    simp only [exec, execRfshr, Host.Outcome.next.injEq] at e; subst e
    exact .of (refreshRect_did _ hl).1 (refreshRect_did _ hl).2 (.rect _)
  | pwroff =>
    simp only [exec, execPwroff, Host.Outcome.next.injEq] at e; subst e
    exact .of (powerOffProc_did s).1 (powerOffProc_did s).2 (.off)
  | hiber =>
    obtain ⟨hd, hlife⟩ := hiber_did e
    refine .of hd hlife ?_
    unfold hiberEvents hiberLife
    by_cases h : s.life.hibernating = true
    · simp only [h, if_true]; exact .nothing _
    · by_cases k : s.panel.hasReset = true
      · simp only [h, k, if_true, Bool.false_eq_true, if_false]
        exact .sleep (by simpa using h) k
      · simp only [h, k, Bool.false_eq_true, if_false, List.append_nil]
        exact .off

end Sys2Proof.Machine
end

