-- ==== Sys2Proof/Laws/HostPort.lean ====
section
/-! SUPPORT. One step, once: it leaves the engine alone, or runs one command, or is a block reset. -/

namespace Sys2Proof.Machine

variable {s t u : State}

/-- The engine, its trace and the controller are the same in both states; memories may have taken host stores. -/
structure SameEngine (s t : State) : Prop where
  life : t.life = s.life
  trace : t.trace = s.trace
  ctl : t.ctl = s.ctl
  panel : t.panel = s.panel
  memories : MemoriesOk s → MemoriesOk t

theorem SameEngine.refl (s : State) : SameEngine s s := ⟨rfl, rfl, rfl, rfl, id⟩

theorem SameEngine.trans (h : SameEngine s t) (k : SameEngine t u) : SameEngine s u :=
  ⟨k.life.trans h.life, k.trace.trans h.trace, k.ctl.trans h.ctl, k.panel.trans h.panel, fun m => k.memories (h.memories m)⟩

theorem SameEngine.coherent (h : SameEngine s t) (c : Coherent s) : Coherent t := by
  have hl := h.life
  simp only [State.life, Life.mk.injEq] at hl
  unfold Coherent
  rw [hl.1, hl.2.1, hl.2.2.1, hl.2.2.2.2.2, h.panel]
  exact c

theorem sameEngine_hostStore (st : HostStore) (s : State) : SameEngine s (hostStore st s) := by
  refine ⟨?_, ?_, ?_, ?_, hostStore_memoriesOk st⟩ <;> (unfold hostStore; split <;> rfl)

theorem sameEngine_writeReg (r : HostReg) (v : Word) (s : State) : SameEngine s (writeReg r v s) := by
  cases r <;> exact ⟨rfl, rfl, rfl, rfl, id⟩

theorem sameEngine_writeBusy (r : HostReg) (s : State) : SameEngine s (writeBusy r s) := by
  cases r <;> exact ⟨rfl, rfl, rfl, rfl, id⟩

theorem sameEngine_busyAccesses (ms : List Live) (during : List Overlap) (s : State) : SameEngine s (busyAccesses ms during s) := by
  induction during generalizing ms s with
  | nil => exact .refl s
  | cons o l ih =>
    cases o with
    | write n v => exact (sameEngine_writeBusy (regOfWord n) s).trans (ih ..)
    | read n =>
      have h := ih (runOn s ms) { s with rdata := readReg (regOfWord n) (s.at ((runOn s ms).headD s.live)), draws := s.draws + 1 }
      exact ⟨h.life, h.trace, h.ctl, h.panel, h.memories⟩
    | store st => exact (sameEngine_hostStore st s).trans (ih ..)

@[simp] theorem powerUp_epoch (e : Nat) : (Controller.powerUp e).epoch = e := rfl

@[simp] theorem powerUp_loaded (e : Nat) : (Controller.powerUp e).loaded = none := rfl

@[simp] theorem powerUp_byteAt (e : Nat) (q : Plane) (k : Nat) : (Controller.powerUp e).byteAt q k = Config.planeByte e q k := by
  cases q <;> rfl

@[simp] theorem afterBlockReset_true (c : Controller) : c.afterBlockReset true = Controller.powerUp (c.epoch + 1) := rfl

@[simp] theorem afterBlockReset_window (c : Controller) : (c.afterBlockReset false).window = c.window := rfl

@[simp] theorem afterBlockReset_sel (c : Controller) : (c.afterBlockReset false).sel = c.sel := rfl

@[simp] theorem afterBlockReset_count (c : Controller) : (c.afterBlockReset false).count = c.count := rfl

@[simp] theorem afterBlockReset_powered (c : Controller) : (c.afterBlockReset false).powered = c.powered := rfl

@[simp] theorem afterBlockReset_asleep (c : Controller) : (c.afterBlockReset false).asleep = c.asleep := rfl

@[simp] theorem afterBlockReset_lost (c : Controller) : (c.afterBlockReset false).lost = (c.lost || c.asleep || c.powered) := rfl

@[simp] theorem afterBlockReset_loaded (b : Bool) (c : Controller) : (c.afterBlockReset b).loaded = none := by cases b <;> rfl

@[simp] theorem afterBlockReset_byteAt (b : Bool) (c : Controller) (q : Plane) (k : Nat) :
    (c.afterBlockReset b).byteAt q k = Config.planeByte (c.afterBlockReset b).epoch q k := by
  cases b
  · cases q <;> simp [Controller.byteAt, Controller.afterBlockReset, Controller.forget, Controller.plane, cellGet]
  · simp

/-- A command runs on to a later moment, never past its last. -/
theorem runOn_eq {ms : List Live} (h : ms ≠ []) (s : State) : ∃ j, j < ms.length ∧ runOn s ms = ms.drop j :=
  ⟨_, Nat.mod_lt _ (List.length_pos_of_ne_nil h), rfl⟩

/-- Accesses in two parts: the second part finds the moments from some one on. -/
theorem busyAccesses_append {ms : List Live} (h : ms ≠ []) (a : List Overlap) (s : State) :
    ∃ j, j < ms.length ∧ ∀ b, busyAccesses ms (a ++ b) s = busyAccesses (ms.drop j) b (busyAccesses ms a s) := by
  induction a generalizing ms s with
  | nil => exact ⟨0, List.length_pos_of_ne_nil h, fun b => by simp [busyAccesses]⟩
  | cons o l ih =>
    cases o with
    | write n v => exact ih h _
    | store st => exact ih h _
    | read n =>
      obtain ⟨j, hj, e⟩ := runOn_eq h s
      obtain ⟨k, hk, f⟩ := ih (ms := runOn s ms) (by rw [e]; simpa using hj)
        { s with rdata := readReg (regOfWord n) (s.at ((runOn s ms).headD s.live)), draws := s.draws + 1 }
      refine ⟨j + k, by rw [e, List.length_drop] at hk; omega, fun b => ?_⟩
      refine (f b).trans ?_
      rw [e, List.drop_drop, ← e]
      rfl

/-- The end of a command leaves its effect alone (R31). -/
theorem sameEngine_endCommand (v : Live) (during : List Overlap) (s : State) : SameEngine s (endCommand v during s) :=
  (sameEngine_busyAccesses (momentsOf v s) during s).trans ⟨rfl, rfl, rfl, rfl, id⟩

@[simp] theorem endCommand_busy (v : Live) (during : List Overlap) (s : State) : (endCommand v during s).busy = false := rfl
@[simp] theorem endCommand_racing (v : Live) (during : List Overlap) (s : State) : (endCommand v during s).racing = [] := rfl
@[simp] theorem endCommand_seen (v : Live) (during : List Overlap) (s : State) : (endCommand v during s).seen = [] := rfl

theorem hostStore_busy (st : HostStore) (s : State) : (hostStore st s).busy = s.busy := by unfold hostStore; split <;> rfl

theorem writeReg_busy (r : HostReg) (v : Word) (s : State) : (writeReg r v s).busy = s.busy := by cases r <;> rfl

theorem writeBusy_busy (r : HostReg) (s : State) : (writeBusy r s).busy = s.busy := by cases r <;> rfl

/-- The state a command starts in (R78). -/
def launched (s : State) (rest : List HostAction) (w : Word) (during : List Overlap) : State :=
  beginCommand during (storeCmd w { s with hostq := rest })

theorem sameEngine_launched (s : State) (rest : List HostAction) (w : Word) (during : List Overlap) :
    SameEngine s (launched s rest w during) := ⟨rfl, rfl, rfl, rfl, id⟩

/-- What a step can do. -/
inductive StepTo (s t : State) : Prop where
  | idle (h : SameEngine s t) (b : t.busy = s.busy)
  | command (i : Instr) (rest : List HostAction) (w : Word) (during : List Overlap) (u : State) (b : s.busy = false)
      (d : decodeFor s.panel.hasPrev w = some i) (e : exec i (launched s rest w during) = .next u)
      (r : t = endCommand (launched s rest w during).live during u)
  | reset (b : Bool) (v : State) (p : v.panel = s.panel) (m : v.ram = s.ram ∧ v.pgm = s.pgm) (c : v.ctl = s.ctl ∨ v.ctl = s.ctl.lose)
      (r : t = blockReset b v)

/-- The one lemma about a step: what it can do. -/
theorem step_to (h : step s = .next t) : StepTo s t := by
  unfold step at h
  split at h
  · obtain rfl : s = t := by simpa using h
    exact .idle (.refl s) rfl
  · rename_i a rest hq
    cases a with
    | read n =>
      simp only [hostStep, Host.Outcome.next.injEq] at h
      subst h
      exact .idle ⟨rfl, rfl, rfl, rfl, id⟩ rfl
    | store st =>
      simp only [hostStep, Host.Outcome.next.injEq] at h
      subst h
      have hs := sameEngine_hostStore st { s with hostq := rest }
      exact .idle ⟨hs.life, hs.trace, hs.ctl, hs.panel, hs.memories⟩ (hostStore_busy st { s with hostq := rest })
    | blockReset b =>
      simp only [hostStep, Host.Outcome.next.injEq] at h
      exact .reset b { s with hostq := rest } rfl ⟨rfl, rfl⟩ (.inl rfl) h.symm
    | abortedCommand v b =>
      simp only [hostStep, Host.Outcome.next.injEq, abortCommand] at h
      split at h
      · exact .reset b { s with hostq := rest, ctl := s.ctl.lose } rfl ⟨rfl, rfl⟩ (.inr rfl) h.symm
      · exact .reset b { s with hostq := rest } rfl ⟨rfl, rfl⟩ (.inl rfl) h.symm
    | write n v during =>
      simp only [hostStep, hostWrite] at h
      split at h
      · simp only [Host.Outcome.next.injEq] at h
        subst h
        have hb := sameEngine_writeBusy (regOfWord n) { s with hostq := rest }
        exact .idle ⟨hb.life, hb.trace, hb.ctl, hb.panel, hb.memories⟩ (writeBusy_busy (regOfWord n) { s with hostq := rest })
      · rename_i hb
        split at h
        · unfold writeCmd at h
          split at h
          · rename_i i hd
            unfold runCommand andThen at h
            split at h
            · rename_i u he
              simp only [Host.Outcome.next.injEq] at h
              exact .command i rest v during u (by simpa using hb) hd he h.symm
            · simp at h
            · simp at h
          · simp only [Host.Outcome.next.injEq] at h
            subst h
            exact .idle ⟨rfl, rfl, rfl, rfl, id⟩ rfl
        · simp only [Host.Outcome.next.injEq] at h
          subst h
          have hw := sameEngine_writeReg (regOfWord n) v { s with hostq := rest }
          exact .idle ⟨hw.life, hw.trace, hw.ctl, hw.panel, hw.memories⟩ (writeReg_busy (regOfWord n) v { s with hostq := rest })

end Sys2Proof.Machine
end

