-- ==== Sys2Proof/Laws/Link.lean ====
section
/-! SUPPORT. The reference controller under events: which events change no plane (R56, R57), and that what it holds and its power are what
`linkRun` says. -/

namespace Sys2Proof.Machine

/-- An event that changes no byte of a plane: no `Xfer`, no `Reset`, no deep sleep (R56, R57). -/
def Event.keepsPlanes : Event → Bool
  | .xfer _ => false
  | .reset => false
  | .seq .deepSleep => false
  | .seq _ | .window _ | .planeSel _ | .start | .stop | .wait _ => true

/-- A run of such events leaves both planes of a controller that is not lost. -/
theorem foldl_keepsPlanes {p : Panel} (evs : List Event) (h : ∀ e ∈ evs, e.keepsPlanes = true) (c : Controller) (hc : c.lost = false)
    (q : Plane) : SamePlane q c (evs.foldl (Controller.act p) c) := by
  induction evs generalizing c with
  | nil => exact fun _ => rfl
  | cons e l ih =>
    have h1 : SamePlane q c (c.act p e) := by
      have := h e (by simp)
      intro k
      have hb : ∀ d : Controller, d.lost = false → d.epoch = c.epoch → d.plane q = c.plane q → d.byteAt q k = c.byteAt q k := by
        intro d h1 h2 h3; simp only [Controller.byteAt, h1, hc, h2, h3]
      apply hb
      · rw [act_lost]; exact hc
      · cases e with
        | seq n => cases n <;> simp_all [Event.keepsPlanes, Controller.act, Controller.seq]
        | _ => simp_all [Event.keepsPlanes, Controller.act]
      · cases e with
        | seq n => cases n <;> simp_all [Event.keepsPlanes, Controller.act, Controller.seq, Controller.plane]
        | _ => simp_all [Event.keepsPlanes, Controller.act, Controller.plane]
    intro k
    rw [List.foldl_cons, ih (fun e he => h e (by simp [he])) (c.act p e) (by rw [act_lost]; exact hc) k, h1 k]

/-! ### The tables send no byte -/

theorem ensureEvents_keepsPlanes {l : Life} (h : l.hibernating = false) : ∀ e ∈ ensureEvents l, e.keepsPlanes = true := by
  unfold ensureEvents; rw [h]; split <;> simp [Event.keepsPlanes]

theorem fillTable_keepsPlanes (m : Mode) : ∀ e ∈ (fillTable m).1, e.keepsPlanes = true := by
  cases m <;> simp [fillTable, Event.keepsPlanes]

theorem monoTable_keepsPlanes (m : Mode) : ∀ e ∈ (monoTable m).1, e.keepsPlanes = true := by
  cases m <;> simp [monoTable, Event.keepsPlanes]

theorem powerEvents_keepsPlanes (l : Life) : ∀ e ∈ powerEvents l, e.keepsPlanes = true := by
  unfold powerEvents; split <;> simp [Event.keepsPlanes]

theorem powerOffEvents_keepsPlanes (l : Life) : ∀ e ∈ powerOffEvents l, e.keepsPlanes = true := by
  unfold powerOffEvents; split <;> simp [Event.keepsPlanes]

theorem fullTable_keepsPlanes (p : Panel) (m : Mode) :
    (∀ e ∈ (fullTable p m).1, e.keepsPlanes = true) ∧ ∀ e ∈ (fullTable p m).2.1, e.keepsPlanes = true := by
  cases m <;> simp [fullTable, Event.keepsPlanes]

theorem rectTable_keepsPlanes (m : Mode) :
    (∀ e ∈ (rectTable m).1, e.keepsPlanes = true) ∧ ∀ e ∈ (rectTable m).2.1, e.keepsPlanes = true := by
  cases m <;> simp [rectTable, Event.keepsPlanes]

theorem fullEvents_keepsPlanes {p : Panel} {l : Life} (h : l.hibernating = false) : ∀ e ∈ fullEvents p l, e.keepsPlanes = true := by
  unfold fullEvents
  simp only [List.mem_append]
  rintro e (((he | he) | he) | he)
  · exact ensureEvents_keepsPlanes h e he
  · exact (fullTable_keepsPlanes p _).1 e he
  · exact powerEvents_keepsPlanes l e he
  · exact (fullTable_keepsPlanes p _).2 e he

theorem refreshEvents_keepsPlanes {p : Panel} {l : Life} (r : Rect) (h : l.hibernating = false) :
    ∀ e ∈ refreshEvents p l r, e.keepsPlanes = true := by
  unfold refreshEvents
  split
  · exact fullEvents_keepsPlanes h
  · split
    · simp
    · unfold rectEvents
      simp only [List.mem_append, List.mem_cons]
      rintro e (((he | he) | he) | rfl | he)
      · exact ensureEvents_keepsPlanes h e he
      · exact (rectTable_keepsPlanes _).1 e he
      · exact powerEvents_keepsPlanes l e he
      · rfl
      · exact (rectTable_keepsPlanes _).2 e he

/-! ### What the controller holds -/

/-- Asleep after an event. -/
def Event.sleep (asleep : Bool) : Event → Bool
  | .reset => false
  | .seq .deepSleep => true
  | .seq _ | .window _ | .planeSel _ | .start | .xfer _ | .stop | .wait _ => asleep

/-- The controller is as the link says, and asleep or not. -/
structure Controller.Matches (c : Controller) (k : Link) (asleep : Bool) : Prop where
  loaded : c.loaded = k.loaded
  powered : c.powered = k.powered
  asleep : c.asleep = asleep

theorem matches_act {p : Panel} {c : Controller} {k k' : Link} {a : Bool} {e : Event} (hc : c.lost = false) (h : c.Matches k a)
    (hk : k.next p e = some k') : (c.act p e).Matches k' (Event.sleep a e) := by
  obtain ⟨h1, h2, h3⟩ := h
  cases e with
  | seq n =>
    cases n <;> simp only [Link.next, Option.some.injEq, Option.ite_none_right_eq_some] at hk <;>
      (first | subst hk | (obtain ⟨_, hk⟩ := hk; subst hk)) <;> constructor <;>
      simp [Controller.act, hc, Controller.seq, Controller.forget, Event.sleep, h1, h2, h3]
  | xfer b =>
    simp only [Link.next, Option.some.injEq] at hk; subst hk
    constructor <;> simp only [Controller.act, hc, Controller.xfer, Controller.setPlane, Event.sleep] <;>
      (cases c.sel <;> simp <;> split <;> simp [h1, h2, h3])
  | _ =>
    simp only [Link.next, Option.some.injEq] at hk; subst hk
    constructor <;> simp [Controller.act, hc, Controller.forget, Event.sleep, h1, h2, h3]

theorem linkRun_none (p : Panel) (evs : List Event) : linkRun p evs none = none := by
  induction evs with
  | nil => rfl
  | cons e l ih => exact ih

/-- A run of events that the link allows: the controller stays as the link says. -/
theorem foldl_matches {p : Panel} (evs : List Event) {c : Controller} {k k' : Link} {a : Bool} (hc : c.lost = false) (h : c.Matches k a)
    (hk : linkRun p evs (some k) = some k') : (evs.foldl (Controller.act p) c).Matches k' (evs.foldl Event.sleep a) := by
  induction evs generalizing c k a with
  | nil =>
    obtain rfl : k = k' := by simpa [linkRun] using hk
    exact h
  | cons e l ih =>
    have hk : linkRun p l (k.next p e) = some k' := hk
    cases e1 : k.next p e with
    | none => rw [e1, linkRun_none] at hk; simp at hk
    | some k1 => rw [e1] at hk; exact ih (by rw [act_lost]; exact hc) (matches_act hc h e1) hk

end Sys2Proof.Machine
end

