-- ==== Sys2Proof/Laws/Moments.lean ====
section
/-! SUPPORT. The moments of a command: `Passed` composes, and every micro-operation passes through moments in order. -/

namespace Sys2Proof.Machine

variable {s t u : State} {off : Bool}

theorem Live.Before.refl (off : Bool) (a : Live) : Live.Before off a a := ⟨id, id, id, rfl, id, id, id, id, id⟩

theorem Live.Before.trans {a b c : Live} (h : Live.Before off a b) (k : Live.Before off b c) : Live.Before off a c :=
  ⟨k.drop ∘ h.drop, k.timeout ∘ h.timeout, k.illegal ∘ h.illegal, k.busyWr.trans h.busyWr, k.write ∘ h.write, k.refresh ∘ h.refresh,
    k.power ∘ h.power, k.init ∘ h.init, k.sleep ∘ h.sleep⟩

/-- A change with no event and no moment noted. -/
theorem Passed.step (he : t.trace = s.trace) (hs : t.seen = s.seen) (hx : t.xferCnt = s.xferCnt) (h : Live.Before off s.live t.live) :
    Passed off s t :=
  ⟨[], [], [], by simp [he], by simp [hx], by simp [hs], by simpa using h, rfl, by simp⟩

theorem Passed.refl (s : State) : Passed off s s := .step rfl rfl rfl (.refl ..)

theorem Passed.trans (h : Passed off s t) (k : Passed off t u) : Passed off s u := by
  obtain ⟨a, ms, cs, h0, h5, h1, h2, h3, h4⟩ := h
  obtain ⟨b, ns, ds, k0, k5, k1, k2, k3, k4⟩ := k
  generalize hm : a.countP Event.isXfer = m at *
  generalize hn : b.countP Event.isXfer = n at *
  refine ⟨a ++ b, ms ++ ns, cs ++ ds.map (m + ·), by rw [k0, h0, List.append_assoc], ?_, by rw [k1, h1, List.append_assoc], ?_, ?_, ?_⟩
  · rw [k5, h5, List.countP_append, hm, hn, BitVec.add_assoc, ← BitVec.ofNat_add]
  · rw [← List.cons_append, List.pairwise_append] at h2
    obtain ⟨hp, -, hx⟩ := h2
    rw [List.pairwise_cons] at k2
    rw [List.append_assoc, ← List.cons_append, List.pairwise_append]
    exact ⟨hp, k2.2, fun a ha b hb => (hx a ha t.live (by simp)).trans (k2.1 b hb)⟩
  · rw [List.map_append, List.map_append, h3, k3, h5, List.map_map]
    simp [Function.comp_def, BitVec.ofNat_add, BitVec.add_assoc]
  · rw [List.pairwise_append] at h4 k4 ⊢
    obtain ⟨hp, -, hx⟩ := h4
    obtain ⟨kp, -, kx⟩ := k4
    simp only [List.mem_singleton, forall_eq] at hx kx
    rw [List.countP_append, hm, hn]
    refine ⟨List.pairwise_append.mpr ⟨hp, ?_, ?_⟩, by simp, ?_⟩
    · exact List.pairwise_map.mpr (kp.imp (by omega))
    · simp only [List.mem_map]
      rintro a ha _ ⟨b, -, rfl⟩
      exact (hx a ha).trans (by omega)
    · simp only [List.mem_append, List.mem_map, List.mem_singleton, forall_eq]
      rintro a (ha | ⟨b, hb, rfl⟩)
      · exact (hx a ha).trans (by omega)
      · have := kx b hb; omega

/-- Noting a moment. -/
theorem passed_note (s : State) : Passed off s (note s) :=
  ⟨[], [s.live], [0], by simp, by simp, rfl, by simp [Live.Before.refl], by simp [State.live], by simp⟩

/-- Sending one event. -/
theorem passed_emit (e : Event) (s : State) : Passed off s (emitAll [e] s) :=
  ⟨[e], [s.live], [0], rfl, rfl, rfl, by
    have h : Live.Before off s.live (emitAll [e] s).live := ⟨id, id, id, rfl, id, id, id, id, id⟩
    simp [Live.Before.refl, h], by simp [State.live], by simp⟩

/-- Sending events. -/
theorem passed_emitAll (evs : List Event) (s : State) : Passed off s (emitAll evs s) := by
  induction evs generalizing s with
  | nil => simpa using Passed.refl s
  | cons e l ih =>
    have h := (passed_emit (off := off) e s).trans (ih (emitAll [e] s))
    rwa [emitAll_emitAll] at h

theorem passed_wait (c : WaitClass) (s : State) : Passed off s (wait c s) := by
  refine (passed_emit (.wait c) s).trans (Passed.trans (.step ?_ ?_ ?_ ?_) (passed_note _))
  · simp
  · simp
  · simp
  · refine ⟨?_, ?_, ?_, ?_, ?_, ?_, ?_, ?_, ?_⟩ <;> simp +contextual [State.live, State.life]

theorem passed_setDrop (s : State) : Passed off s (setDrop s) := .step rfl rfl rfl ⟨fun _ => rfl, id, id, rfl, id, id, id, id, id⟩

theorem passed_setIllegal (s : State) : Passed off s (setIllegal s) := .step rfl rfl rfl ⟨id, id, fun _ => rfl, rfl, id, id, id, id, id⟩

/-! ### The micro-operations that only go forward -/

theorem passed_mode (m : Mode) (s : State) : Passed off s { s with mode := m } := .step rfl rfl rfl ⟨id, id, id, rfl, id, id, id, id, id⟩

theorem passed_clearWrite (s : State) : Passed off s { s with initialWrite := false } :=
  .step rfl rfl rfl ⟨id, id, id, rfl, fun _ => rfl, id, id, id, id⟩

theorem passed_clearRefresh (s : State) : Passed off s { s with initialRefresh := false } :=
  .step rfl rfl rfl ⟨id, id, id, rfl, id, fun _ => rfl, id, id, id⟩

theorem passed_setPower (s : State) : Passed off s { s with powerIsOn := !off } :=
  .step rfl rfl rfl ⟨id, id, id, rfl, id, id, fun _ => rfl, id, id⟩

theorem passed_setInit (s : State) : Passed off s { s with initDone := !off } :=
  .step rfl rfl rfl ⟨id, id, id, rfl, id, id, id, fun _ => rfl, id⟩

theorem passed_setSleep (s : State) : Passed off s { s with hibernating := off } :=
  .step rfl rfl rfl ⟨id, id, id, rfl, id, id, id, id, fun _ => rfl⟩

theorem passed_wake (s : State) : Passed false s (wake s) := by
  unfold wake
  split <;> [exact (passed_emitAll [.reset] s).trans (passed_setSleep _); exact .refl s]

theorem passed_initWith (n : SeqName) (m : Mode) (s : State) : Passed false s (initWith n m s) :=
  ((((passed_wake s).trans (passed_emitAll [.seq n] _)).trans (passed_setInit _)).trans (passed_note _)).trans (passed_mode m _)

theorem passed_ensureInit (s : State) : Passed false s (ensureInit s) := by
  unfold ensureInit; split <;> [exact .refl s; exact passed_initWith ..]

theorem passed_modeStepFill (s : State) : Passed false s (modeStepFill s) := by
  refine (passed_ensureInit s).trans ?_
  unfold modeStepFill; simp only
  split <;> first | exact .refl _ | exact passed_initWith ..

theorem passed_modeStepMono (s : State) : Passed false s (modeStepMono s) := by
  refine (passed_ensureInit s).trans ?_
  unfold modeStepMono; simp only
  split <;> first | exact .refl _ | exact passed_initWith ..

theorem passed_modeStepGrey (s : State) : Passed false s (modeStepGrey s) := (passed_ensureInit s).trans (passed_initWith ..)

theorem passed_ensurePower (s : State) : Passed false s (ensurePower s) := by
  unfold ensurePower
  split
  · exact .refl s
  · exact ((passed_emitAll [.seq .powerOn] s).trans (passed_wait .pon _)).trans (passed_setPower _)

/-! ### Power-off and deep sleep -/

theorem passed_powerOffProc (s : State) : Passed true s (powerOffProc s) := by
  unfold powerOffProc
  split
  · have h : Passed true s { wait .poff (emit (.seq .powerOff) s) with powerIsOn := false } :=
      ((passed_emitAll [.seq .powerOff] s).trans (passed_wait .poff _)).trans (passed_setPower _)
    simp only
    split
    · exact (((h.trans (passed_note _)).trans (passed_mode .fullRefresh _)).trans (passed_note _)).trans (passed_setInit _)
    · exact h
  · exact .refl s

theorem passed_deepSleep (s : State) : Passed true s (deepSleep s) :=
  (((((passed_emitAll [.seq .deepSleep] s).trans (passed_setSleep _)).trans (passed_note _)).trans (passed_setInit _)).trans
    (passed_note _)).trans (passed_mode .fullRefresh _)

/-! ### The refreshes -/

theorem passed_updateFull (s : State) : Passed false s (updateFull s) := by
  unfold updateFull
  split
  · exact (passed_emitAll [.window (planeRect s.panel), .seq .updateGrey] s).trans (passed_wait ..)
  all_goals exact ((passed_emitAll [.seq .updateFull] s).trans (passed_wait .full _)).trans (passed_mode .fullRefresh _)

theorem passed_refreshFull (s : State) : Passed false s (refreshFull s) := by
  have h : Passed false s (refreshFullReady s) := by
    refine (passed_ensureInit s).trans ?_
    unfold refreshFullReady; simp only
    split <;> first | exact passed_ensurePower _ | exact (passed_initWith ..).trans (passed_ensurePower _)
  exact ((h.trans (passed_updateFull _)).trans (passed_note _)).trans (passed_clearRefresh _)

theorem passed_updateRect (g : Rect) (s : State) : Passed false s (updateRect g s) := by
  unfold updateRect
  split
  · exact (passed_emitAll [.window g, .seq .updateGrey] s).trans (passed_wait ..)
  all_goals exact (passed_emitAll [.window g, .seq .updatePart] s).trans (passed_wait ..)

theorem passed_refreshRect (r : Rect) (s : State) : Passed false s (refreshRect r s) := by
  unfold refreshRect
  split
  · exact passed_refreshFull s
  · split
    · exact passed_setDrop s
    · refine Passed.trans (t := refreshRectReady s) ((passed_ensureInit s).trans ?_) (passed_updateRect ..)
      unfold refreshRectReady; simp only
      split <;> first | exact passed_ensurePower _ | exact (passed_initWith ..).trans (passed_ensurePower _)

end Sys2Proof.Machine
end

