-- ==== Sys2Proof/Laws/PerInstr.lean ====
section
/-! SUPPORT. The families of statements made per command: `Encoding`, that a command's word decodes to it. -/

namespace Sys2Proof.Laws.Encoding

/-- The word of a command decodes to the command (R73, R79). -/
def Statement (i : Instr) : Prop := decode (encode i) = some i

theorem clrs (val : Byte) : Statement (.clrs val) := by revert val; unfold Statement; decide

theorem wsb (val : Byte) : Statement (.wsb val) := by revert val; unfold Statement; decide

theorem wsba (val : Byte) : Statement (.wsba val) := by revert val; unfold Statement; decide

theorem wimg (inv mir pgm : Bool) : Statement (.wimg inv mir pgm) := by revert inv mir pgm; unfold Statement; decide

theorem wimgp (inv mir pgm : Bool) : Statement (.wimgp inv mir pgm) := by revert inv mir pgm; unfold Statement; decide

theorem wimg4 (bpp : Bpp) (inv mir pgm : Bool) : Statement (.wimg4 bpp inv mir pgm) := by
  cases bpp <;> revert inv mir pgm <;> unfold Statement <;> decide

theorem wimgp4 (bpp : Bpp) (inv mir pgm : Bool) : Statement (.wimgp4 bpp inv mir pgm) := by
  cases bpp <;> revert inv mir pgm <;> unfold Statement <;> decide

theorem dimg (inv mir pgm : Bool) : Statement (.dimg inv mir pgm) := by revert inv mir pgm; unfold Statement; decide

theorem dimgp (inv mir pgm : Bool) : Statement (.dimgp inv mir pgm) := by revert inv mir pgm; unfold Statement; decide

theorem dimg4 (bpp : Bpp) (inv mir pgm : Bool) : Statement (.dimg4 bpp inv mir pgm) := by
  cases bpp <;> revert inv mir pgm <;> unfold Statement <;> decide

theorem dimgp4 (bpp : Bpp) (inv mir pgm : Bool) : Statement (.dimgp4 bpp inv mir pgm) := by
  cases bpp <;> revert inv mir pgm <;> unfold Statement <;> decide

theorem rfsh (par : Bool) : Statement (.rfsh par) := by revert par; unfold Statement; decide

theorem rfshr : Statement .rfshr := by unfold Statement; decide

theorem pwroff : Statement .pwroff := by unfold Statement; decide

theorem hiber : Statement .hiber := by unfold Statement; decide

end Sys2Proof.Laws.Encoding
end

