-- ==== Sys2Proof/Laws/Planes.lean ====
section
/-! SUPPORT. The reference controller under a run of `Xfer` events (R56). -/

namespace Sys2Proof.Machine

@[simp] theorem plane_setPlane_same (c : Controller) (q : Plane) (m : List Host.Cell) : (c.setPlane q m).plane q = m := by cases q <;> rfl

theorem plane_setPlane_other (c : Controller) {q q' : Plane} (m : List Host.Cell) (h : q' ≠ q) : (c.setPlane q m).plane q' = c.plane q' := by
  cases q <;> cases q' <;> first | rfl | exact absurd rfl h

/-- A byte number of a valid window, by its row and column (R56). -/
theorem planeIndex_eq {p : Panel} {r : Rect} (h : WindowOk p r) (row col : Nat) (hc : col < (r.w / 8).toNat) :
    planeIndex p r (row * (r.w / 8).toNat + col) = planeNo p r row col := by
  obtain ⟨hx, hw, hx0, hxw, hy0, hyh, hw0, hh0⟩ := h
  have hW : ((r.w / 8).toNat : Int) = r.w / 8 := Int.toNat_of_nonneg (by omega)
  have hpos : (0 : Int) < r.w / 8 := by omega
  have hcI : (col : Int) < r.w / 8 := by omega
  have hd : ((row * (r.w / 8).toNat + col : Nat) : Int) / (r.w / 8) = row := by
    push_cast; rw [hW, add_comm, Int.add_mul_ediv_right _ _ (by omega), Int.ediv_eq_zero_of_lt (by omega) hcI]; simp
  have hm : ((row * (r.w / 8).toNat + col : Nat) : Int) % (r.w / 8) = col := by
    push_cast; rw [hW, add_comm, Int.add_mul_emod_self_right]; exact Int.emod_eq_of_lt (by omega) hcI
  unfold planeIndex planeNo
  rw [hd, hm]
  have hy : ((r.y.toNat : Nat) : Int) = r.y := Int.toNat_of_nonneg hy0
  have hx8 : (((r.x / 8).toNat : Nat) : Int) = r.x / 8 := Int.toNat_of_nonneg (by omega)
  rw [← hy, ← hx8]
  norm_cast

/-- Two bytes of a valid window have different byte numbers. -/
theorem planeNo_inj {p : Panel} {r : Rect} (h : WindowOk p r) {row col row' col' : Nat} (hc : col < (r.w / 8).toNat)
    (hc' : col' < (r.w / 8).toNat) (e : planeNo p r row col = planeNo p r row' col') : row = row' ∧ col = col' := by
  obtain ⟨hx, hw, hx0, hxw, hy0, hyh, hw0, hh0⟩ := h
  have hB := planeWB_eq p
  have hmod := planeW_mod p
  have h1 : (r.x / 8).toNat + col < planeWB p := by omega
  have h2 : (r.x / 8).toNat + col' < planeWB p := by omega
  unfold planeNo at e
  have key : ∀ a c : Nat, c < planeWB p → ((r.y.toNat + a) * planeWB p + c) / planeWB p = r.y.toNat + a := fun a c hcc => by
    rw [add_comm, Nat.add_mul_div_right _ _ (by omega), Nat.div_eq_of_lt hcc]; omega
  have k1 := key row _ h1
  have k2 := key row' _ h2
  rw [show (r.y.toNat + row) * planeWB p + ((r.x / 8).toNat + col) = (r.y.toNat + row') * planeWB p + ((r.x / 8).toNat + col') by omega, k2] at k1
  have : row = row' := by omega
  subst this
  omega

/-- `planeIndex` does not repeat inside a valid window. -/
theorem planeIndex_inj {p : Panel} {r : Rect} (h : WindowOk p r) {a b : Nat} (e : planeIndex p r a = planeIndex p r b) : a = b := by
  have hpos : 0 < (r.w / 8).toNat := by have := h.2.1; have := h.2.2.2.2.2.2.1; omega
  have ha : a / (r.w / 8).toNat * (r.w / 8).toNat + a % (r.w / 8).toNat = a := Nat.div_add_mod' ..
  have hb : b / (r.w / 8).toNat * (r.w / 8).toNat + b % (r.w / 8).toNat = b := Nat.div_add_mod' ..
  rw [← ha, ← hb, planeIndex_eq h _ _ (Nat.mod_lt _ hpos), planeIndex_eq h _ _ (Nat.mod_lt _ hpos)] at e
  obtain ⟨h1, h2⟩ := planeNo_inj h (Nat.mod_lt _ hpos) (Nat.mod_lt _ hpos) e
  rw [← ha, ← hb, h1, h2]

/-- A controller that is not lost inside a window `r` of plane `q`. -/
structure Inside (c : Controller) (q : Plane) (r : Rect) (n : Nat) : Prop where
  lost : c.lost = false
  window : c.window = r
  sel : c.sel = q
  count : c.count = n

/-- A run of `Xfer` events in a window: the bytes land at their byte numbers, nothing else changes (R56). -/
theorem foldl_xfers {p : Panel} {q : Plane} {r : Rect} (h : WindowOk p r) (bytes : List Byte) (c : Controller) (n : Nat)
    (hc : Inside c q r n) (hn : ((n + bytes.length : Nat) : Int) ≤ r.w / 8 * r.h) :
    let c' := (bytes.map Event.xfer).foldl (Controller.act p) c
    Inside c' q r (n + bytes.length) ∧ c'.epoch = c.epoch ∧ c'.loaded = c.loaded ∧ c'.powered = c.powered ∧ c'.asleep = c.asleep ∧
    (∀ q', q' ≠ q → c'.plane q' = c.plane q') ∧
    (∀ j, j < bytes.length → cellGet (c'.plane q) (planeIndex p r (n + j)) = some (bytes.getD j 0)) ∧
    ∀ k, (∀ j, j < bytes.length → k ≠ planeIndex p r (n + j)) → cellGet (c'.plane q) k = cellGet (c.plane q) k := by
  induction bytes generalizing c n with
  | nil => exact ⟨hc, rfl, rfl, rfl, rfl, fun _ _ => rfl, by simp, fun _ _ => rfl⟩
  | cons b l ih =>
    simp only [List.length_cons] at hn
    have hlt : (c.count : Int) < c.window.w / 8 * c.window.h := by rw [hc.count, hc.window]; omega
    have hact : c.act p (.xfer b) = { c.setPlane q (cellSet (c.plane q) (planeIndex p r n) b) with count := n + 1 } := by
      simp only [Controller.act, hc.lost, Controller.xfer]
      rw [if_pos hlt, hc.sel, hc.window, hc.count]
      cases q <;> simp [Controller.setPlane, hc.count]
    have hc1 : Inside (c.act p (.xfer b)) q r (n + 1) := by
      rw [hact]; cases q <;> exact ⟨hc.lost, hc.window, hc.sel, rfl⟩
    have hp1 : (c.act p (.xfer b)).plane q = cellSet (c.plane q) (planeIndex p r n) b := by
      rw [hact]; cases q <;> rfl
    obtain ⟨i1, i2, i3, i4, i5, i6, i7, i8⟩ := ih (c.act p (.xfer b)) (n + 1) hc1 (by omega)
    simp only [List.map_cons, List.foldl_cons, List.length_cons]
    refine ⟨by rw [show n + (l.length + 1) = n + 1 + l.length by omega]; exact i1, i2.trans ?_, i3.trans ?_, i4.trans ?_, i5.trans ?_,
      fun q' hq => (i6 q' hq).trans ?_, fun j hj => ?_, fun k hk => ?_⟩
    · rw [hact]; cases q <;> rfl
    · rw [hact]; cases q <;> rfl
    · rw [hact]; cases q <;> rfl
    · rw [hact]; cases q <;> rfl
    · rw [hact]; cases q <;> cases q' <;> first | rfl | exact absurd rfl hq
    · cases j with
      | zero =>
        rw [i8 _ fun j hj e => ?_, hp1]
        · simp
        · have := planeIndex_inj h e; omega
      | succ j =>
        have := i7 j (by omega)
        rw [show n + (j + 1) = n + 1 + j by omega]
        simpa using this
    · rw [i8 k fun j hj => by have := hk (j + 1) (by omega); rwa [show n + (j + 1) = n + 1 + j by omega] at this, hp1]
      exact cellGet_cellSet_other _ _ (by simpa using hk 0 (by omega))

end Sys2Proof.Machine
end

