-- ==== Sys2Proof/Tests/Slice0.lean ====
section
/-! SUPPORT. Tests on fixed values, each with the place of 95_test_vectors.md (or the rule) its expected value was taken or computed by hand from,
and a witness for every statement that has hypotheses. -/

namespace Sys2Proof.Tests

open Sys2Proof.Machine

/-! ### The bench -/

/-- A 16 x 2 panel: a plane is four bytes. Otherwise the build 95_test_vectors.md assumes. -/
def small : Panel := { Panel.reference with width := 16, height := 2 }

/-- The 122 x 250 panel of 95_test_vectors.md part 2.1. -/
def odd : Panel := { Panel.reference with width := 122, height := 250 }

/-- After block reset, `Wait`s answered ready. -/
def fresh : State := { State.resetFor small with answers := [.ready, .ready, .ready, .ready] }

/-- "`full / 1 / 0 / 0 / 0 / 1`" of 95_test_vectors.md, or the same in another mode. -/
def awake (m : Mode) : State :=
  { fresh with mode := m, powerIsOn := true, initialWrite := false, initialRefresh := false, initDone := true }

/-- After `HIBER`, the first-time flags cleared. -/
def sleeping : State := { fresh with hibernating := true, initialWrite := false, initialRefresh := false }

/-- The bytes in `RAM` from `base` on, with `SRC = base`. -/
def load (base : Nat) (bytes : List Byte) (s : State) : State :=
  { s with src := BitVec.ofNat 32 base, ram := bytes.zipIdx.map fun c => (base + c.2, c.1) }

/-- `SETRECT`. -/
def rectIs (x y w h : Int) (s : State) : State :=
  { s with x := BitVec.ofInt 16 x, y := BitVec.ofInt 16 y, w := BitVec.ofInt 16 w, h := BitVec.ofInt 16 h }

/-- `SETPART`. -/
def partIs (xp yp wb hb : Int) (s : State) : State :=
  { s with xPart := BitVec.ofInt 16 xp, yPart := BitVec.ofInt 16 yp, wBitmap := BitVec.ofInt 16 wb, hBitmap := BitVec.ofInt 16 hb }

/-- The host writes `v` to register number `n` next. -/
def writes (n : Nat) (v : Word) (s : State) : State := { s with hostq := [.write n v []] }

/-- The state after, if the outcome is a next state. -/
def stateAfter : Out → Option State
  | .next t => some t
  | .fault _ => none
  | .refused _ => none

/-- What a command sent. -/
def sent (i : Instr) (s : State) : Option (List Event) := (stateAfter (exec i s)).map fun t => t.trace.drop s.trace.length

/-- The mode and flags a command left. -/
def left (i : Instr) (s : State) : Option Life := (stateAfter (exec i s)).map State.life

/-- The `Xfer` bytes a command sent. -/
def bytesSent (i : Instr) (s : State) : Option (List Byte) :=
  (sent i s).map fun l => l.filterMap fun e => match e with | .xfer b => some b | _ => none

/-- A field of the state after one step. -/
def afterStep {α : Type} (f : State → α) (s : State) : Option α := (stateAfter (step s)).map f

/-! ### WellFormed: what it refuses (R172) -/

theorem test_wf_refuses_wimg4 : Instr.wf false (.wimg4 .two false false false) = false := by decide
theorem test_wf_refuses_wimgp4 : Instr.wf false (.wimgp4 .one true false false) = false := by decide
theorem test_wf_refuses_dimg4 : Instr.wf false (.dimg4 .four false true false) = false := by decide
theorem test_wf_refuses_dimgp4 : Instr.wf false (.dimgp4 .eight false false true) = false := by decide
theorem test_wf_admits_mono_on_one_plane : Instr.wf false (.wimg true true true) = true := by decide
theorem test_wf_admits_4g_on_two_planes : Instr.wf true (.dimgp4 .eight true true true) = true := by decide

/-! ### Decoding: words written out bit by bit from R71 (`VAL` 23:16, `PAR` 13, `BPP` 12:11, `PGM` 10, `MIR` 9, `INV` 8, `OPC` 7:0) -/

theorem test_decode_clrs : decode 0b00000000_11111111_00000000_00000001#32 = some (.clrs 0xFF) := by decide
theorem test_decode_wsb : decode 0b00000000_00111100_00000000_00000010#32 = some (.wsb 0x3C) := by decide
theorem test_decode_wsba : decode 0b00000000_10000001_00000000_00000011#32 = some (.wsba 0x81) := by decide
theorem test_decode_wimg : decode 0b00000000_00000000_00000001_00000100#32 = some (.wimg true false false) := by decide
theorem test_decode_wimgp : decode 0b00000000_00000000_00000010_00000101#32 = some (.wimgp false true false) := by decide
theorem test_decode_wimg4 : decode 0b00000000_00000000_00011000_00000110#32 = some (.wimg4 .eight false false false) := by decide
theorem test_decode_wimgp4 : decode 0b00000000_00000000_00001111_00000111#32 = some (.wimgp4 .two true true true) := by decide
theorem test_decode_dimg : decode 0b00000000_00000000_00000100_00001000#32 = some (.dimg false false true) := by decide
theorem test_decode_dimgp : decode 0b00000000_00000000_00000011_00001001#32 = some (.dimgp true true false) := by decide
theorem test_decode_dimg4 : decode 0b00000000_00000000_00010001_00001010#32 = some (.dimg4 .four true false false) := by decide
theorem test_decode_dimgp4 : decode 0b00000000_00000000_00011111_00001011#32 = some (.dimgp4 .eight true true true) := by decide
theorem test_decode_rfsh : decode 0b00000000_00000000_00100000_00001100#32 = some (.rfsh true) := by decide
theorem test_decode_rfshr : decode 0b00000000_00000000_00000000_00001101#32 = some .rfshr := by decide
theorem test_decode_pwroff : decode 0b00000000_00000000_00000000_00001110#32 = some .pwroff := by decide
theorem test_decode_hiber : decode 0b00000000_00000000_00000000_00001111#32 = some .hiber := by decide

/-- 95_test_vectors.md part 2.6, the reserved words. -/
theorem test_reserved_words :
    [0x00000000#32, 0x00000010#32, 0x000000FF#32, 0x00FF0102#32, 0x00010004#32, 0x00000804#32, 0x00002004#32, 0x0000010C#32, 0x0000200D#32,
      0x0001000E#32, 0x00004001#32, 0x00008004#32, 0x0100000E#32].all (fun w => (decode w).isNone) = true := by decide

theorem test_reserved_on_one_plane : decodeFor false 0x00000806#32 = none := by decide

/-- A reserved word on the host port (part 3, P4 line 2). -/
theorem test_reserved_word_step :
    afterStep (fun t => (t.cmd, t.xferCnt, t.diag.word, t.trace, t.life)) (writes 0 0x00FF0102#32 { fresh with xferCnt := 7 }) =
      some (0x00FF0102#32, 0#32, 0x4#32, [], fresh.life) := by decide

/-! ### Geometry (part 2.1), on 128 x 296 -/

def geomRow (o : Option Geom) : Option (List Int) := o.map fun g => [g.x1, g.y1, g.w1, g.h1, g.dx, g.dy]

theorem test_geomWrite_scenario : geomRow (geomWrite Panel.reference ⟨4, 0, 16, 8⟩) = some [0, 0, 16, 8, 0, 0] := by decide
theorem test_geomWrite_cut_left : geomRow (geomWrite Panel.reference ⟨-9, -2, 20, 5⟩) = some [0, 0, 8, 3, 16, 2] := by decide
theorem test_geomWrite_right_and_bottom : geomRow (geomWrite Panel.reference ⟨124, 290, 9, 10⟩) = some [120, 290, 8, 6, 0, 0] := by decide
theorem test_geomWrite_ends_at_zero : geomWrite Panel.reference ⟨-8, 0, 8, 8⟩ = none := by decide
theorem test_geomWrite_negative_width : geomWrite Panel.reference ⟨0, 0, -5, 8⟩ = none := by decide
theorem test_geomWrite_no_wrap : geomWrite Panel.reference ⟨32767, 0, 32767, 1⟩ = none := by decide
theorem test_geomWrite_padding_columns : geomRow (geomWrite odd ⟨124, 0, 4, 4⟩) = some [120, 0, 8, 4, 0, 0] := by decide
theorem test_geomRefresh_covers : geomRefresh Panel.reference ⟨4, 0, 16, 8⟩ = some ⟨0, 0, 24, 8⟩ := by decide
theorem test_geomRefresh_clip_then_widen : geomRefresh Panel.reference ⟨-5, 290, 20, 10⟩ = some ⟨0, 290, 16, 6⟩ := by decide
theorem test_geomRefresh_off_panel : geomRefresh odd ⟨124, 0, 4, 4⟩ = none := by decide
theorem test_geomPart_both_cut :
    geomRow (geomPart Panel.reference ⟨-4, -1, 20, 10⟩ ⟨17, 3, 40, 12⟩ 8) = some [0, 0, 16, 8, 8, 1] := by decide
theorem test_geomPart_unit_four :
    (geomPart Panel.reference ⟨0, 0, 16, 1⟩ ⟨5, 0, 16, 2⟩ 4).map (fun g => (g.xs, g.w1)) = some (4, 16) := by decide
theorem test_geomPart_at_right_edge : geomPart Panel.reference ⟨0, 0, 8, 8⟩ ⟨64, 0, 64, 32⟩ 8 = none := by decide

/-! ### Packing (parts 2.2 and 2.3) -/

/-- The 24 x 3 bitmap of part 2.2 and its rectangle, on the 16 x 2 panel, whose plane the window fills. -/
def cutBitmap : State :=
  load 0x2000 [0x11, 0x22, 0x33, 0x44, 0x55, 0x66, 0x77, 0x88, 0x99] (rectIs (-3) (-1) 24 3 (awake .fullRefresh))

theorem test_wimg_bytes : bytesSent (.wimg false false false) cutBitmap = some [0x55, 0x66, 0x88, 0x99] := by decide
theorem test_wimg_inv_mir_bytes : bytesSent (.wimg true true false) cutBitmap = some [0xAA, 0x99, 0xDD, 0xCC] := by decide

/-- A part with its origin inside the bitmap: 24 x 3 from (16, 1), one byte, mirrored about the whole bitmap: row `3 - 1 - 1 = 1`. -/
theorem test_wimgp_mir : bytesSent (.wimgp false true false) (rectIs 0 0 8 1 (partIs 17 1 24 3 cutBitmap)) = some [0x66] := by decide

theorem test_wimgp_rows : bytesSent (.wimgp false false false) (rectIs 8 0 8 2 (partIs 8 1 24 3 cutBitmap)) = some [0x55, 0x88] := by decide

/-- Part 2.3, one row of eight pixels at the origin. -/
def greyRow (bytes : List Byte) : State := load 0x3000 bytes (rectIs 0 0 8 1 (awake .fullRefresh))

theorem test_wimg4_two_bits : bytesSent (.wimg4 .two false false false) (greyRow [0xE4, 0x1B]) = some [0xC3, 0xA5] := by decide
theorem test_wimg4_four_bits_inv :
    bytesSent (.wimg4 .four true false false) (greyRow [0xFE, 0x87, 0x10, 0xA5]) = some [0x1D, 0x66] := by decide
theorem test_pack_eight_bits :
    (greyBytes (greyRow [0xFF, 0xFE, 0x80, 0x7F, 0x01, 0x00, 0xA0, 0x9F]) .prev ⟨0, 0, 8, 1, 0, 0, 8, 1, 0, 0⟩ .eight ⟨false, false, .ram⟩) =
      some [0x98] := by decide
theorem test_pack_one_bit :
    (greyBytes (greyRow [0xB2]) .cur ⟨0, 0, 8, 1, 0, 0, 8, 1, 0, 0⟩ .one ⟨true, false, .ram⟩) = some [0x4D] := by decide
theorem test_pairing_other_way : planeBit { small with grey1Cur := false } .cur .grey1 = false := by decide

/-- The `WIMGP4` vector of part 2.3 at 4 bpp, its window moved to (8, 0) of the small panel. -/
def greyPart : State :=
  partIs 3 1 16 4 (rectIs 8 0 8 2 (load 0x4009 [0xF8, 0x71, 0x0F, 0xA5, 0, 0, 0, 0, 0x00, 0xFF, 0x88, 0x77] (awake .fullRefresh)))

theorem test_wimgp4 :
    bytesSent (.wimgp4 .four false false false) { greyPart with src := 0x4000 } = some [0xC6, 0x3C, 0xB5, 0x33] := by decide
theorem test_wimgp4_mir :
    bytesSent (.wimgp4 .four false true false) { greyPart with src := 0x4000 } = some [0x3C, 0xC6, 0x33, 0xB5] := by decide

/-! ### Events, mode and flags (parts 2.4, 2.5, 3) -/

/-- A fill of the small panel's plane (R111). -/
def fillOf (q : Plane) (v : Byte) : List Event :=
  [.window ⟨0, 0, 16, 2⟩, .planeSel q, .start, .xfer v, .xfer v, .xfer v, .xfer v, .stop]

/-- S3 and P1 line 1, on the small panel. -/
theorem test_wsb_fresh :
    sent (.wsb 0x3C) fresh = some (.seq .initFull :: fillOf .cur 0x3C) ∧
    left (.wsb 0x3C) fresh = some ⟨.fullRefresh, false, false, false, true, true⟩ := by decide

/-- Part 2.4: `WSB` in grey mode. -/
theorem test_wsb_grey :
    sent (.wsb 0) (awake .greyRefresh) = some (.seq .initFull :: fillOf .cur 0) ∧
    (left (.wsb 0) (awake .greyRefresh)).map Life.mode = some .forcedFullRefresh := by decide

/-- R164: the previous plane, and `initial_write` untouched. -/
theorem test_wsba_fresh :
    sent (.wsba 1) fresh = some (.seq .initFull :: fillOf .prev 1) ∧
    (left (.wsba 1) fresh).map Life.initialWrite = some true := by decide

/-- P6 line 3: with one plane `WSBA` fills it. -/
theorem test_wsba_one_plane :
    sent (.wsba 0xFF) { awake .fullRefresh with panel := { small with hasPrev := false } } = some (fillOf .cur 0xFF) := by decide

theorem test_clrs_fresh :
    sent (.clrs 0xFF) fresh =
      some (.seq .initFull :: (fillOf .cur 0xFF ++ fillOf .prev 0xFF ++
        [.seq .powerOn, .wait .pon, .seq .updateFull, .wait .full])) ∧
    left (.clrs 0xFF) fresh = some ⟨.fullRefresh, true, false, false, false, true⟩ := by decide

/-- R181: from grey mode the clear ends in full mode, by `ForceFull` and the full update. -/
theorem test_clrs_grey :
    left (.clrs 0xFF) (awake .greyRefresh) = some ⟨.fullRefresh, true, false, false, false, true⟩ ∧
    (sent (.clrs 0xFF) (awake .greyRefresh)).map (·.take 1) = some [.seq .initFull] := by decide

/-- S8: the first event after deep sleep is `Reset`. -/
theorem test_wimg_wakes :
    (sent (.wimg false false false) { cutBitmap with hibernating := true, powerIsOn := false, initDone := false }).map (·.take 4) =
      some [.reset, .seq .initFull, .seq .initPart, .window ⟨0, 0, 16, 2⟩] := by decide

/-- 8 x 1 at (0, 0), one byte at 0x1000. -/
def oneByte (m : Mode) : State := load 0x1000 [0x0F] (rectIs 0 0 8 1 (awake m))

/-- P2 line 8. -/
theorem test_wimg_forces_full :
    sent (.wimg false false false) (oneByte .greyRefresh) =
      some [.seq .initFull, .window ⟨0, 0, 8, 1⟩, .planeSel .cur, .start, .xfer 0x0F, .stop] := by decide

/-- P3 line 3, one byte: write, partial update, second write. -/
theorem test_dimg_differential :
    sent (.dimg false false false) { oneByte .fastRefresh with panel := { small with diffUpdate := true } } =
      some [.window ⟨0, 0, 8, 1⟩, .planeSel .cur, .start, .xfer 0x0F, .stop, .window ⟨0, 0, 8, 1⟩, .seq .updatePart, .wait .part,
        .window ⟨0, 0, 8, 1⟩, .planeSel .prev, .start, .xfer 0x0F, .stop] := by decide

/-- Part 2.7: the write lands in padding columns, the refresh of the rectangle as given is empty and sets `DROP`. -/
theorem test_dimg_padding :
    (stateAfter (exec (.dimg false false false) (load 0 [0xA5] (rectIs 12 0 4 1 { awake .fastRefresh with panel := { small with width := 10 } })))).map
      (fun t => (t.diag.drop, t.xferCnt, t.trace.length)) = some (true, 1#32, 5) := by decide

/-- R183: the part is written and its rectangle refreshed. -/
theorem test_dimgp :
    sent (.dimgp true false false) (partIs 0 0 8 1 (oneByte .fullRefresh)) =
      some [.seq .initPart, .window ⟨0, 0, 8, 1⟩, .planeSel .cur, .start, .xfer 0xF0, .stop, .window ⟨0, 0, 8, 1⟩, .seq .updatePart,
        .wait .part] := by decide

/-- P2 line 4. -/
theorem test_dimg4 :
    sent (.dimg4 .two false false false) (greyRow [0xE4, 0x1B]) =
      some [.seq .initGrey, .window ⟨0, 0, 8, 1⟩, .planeSel .cur, .start, .xfer 0xC3, .stop, .window ⟨0, 0, 8, 1⟩, .planeSel .prev, .start,
        .xfer 0xA5, .stop, .window ⟨0, 0, 8, 1⟩, .seq .updateGrey, .wait .grey] := by decide

/-- P3b: the first greyscale draw updates the whole plane. -/
theorem test_dimg4_first :
    (sent (.dimg4 .two false false false) { greyRow [0xE4, 0x1B] with initialRefresh := true, powerIsOn := false }).map (·.drop 11) =
      some [.seq .powerOn, .wait .pon, .window ⟨0, 0, 16, 2⟩, .seq .updateGrey, .wait .grey] := by decide

/-- R185: as P2 line 4, the bitmap being its own part. -/
theorem test_dimgp4 :
    bytesSent (.dimgp4 .two true false false) (partIs 0 0 8 1 (greyRow [0xE4, 0x1B])) = some [0x3C, 0x5A] := by decide

/-- P6 line 1: reserved with one plane. -/
theorem test_dimgp4_one_plane :
    (stateAfter (exec (.dimgp4 .two false false false) { greyRow [0xE4, 0x1B] with panel := { small with hasPrev := false } })).map
      (fun t => (t.diag.word, t.trace)) = some (0x4#32, []) := by decide

/-- Part 2.4: `RFSH FULL` from fast mode loads the full LUT first. -/
theorem test_rfsh_full_fast :
    sent (.rfsh false) (awake .fastRefresh) = some [.seq .initFull, .seq .updateFull, .wait .full] := by decide

/-- P2 line 11, on the small panel. -/
theorem test_rfsh_part : sent (.rfsh true) (awake .fastRefresh) = some [.window ⟨0, 0, 16, 2⟩, .seq .updatePart, .wait .part] := by decide

/-- S6: the first rectangle refresh is a full one, even for an off-panel rectangle (P4 line 9). -/
theorem test_rfshr_first :
    sent .rfshr (rectIs 200 0 16 8 fresh) = some [.seq .initFull, .seq .powerOn, .wait .pon, .seq .updateFull, .wait .full] ∧
    left .rfshr (rectIs 200 0 16 8 fresh) = some ⟨.fullRefresh, true, false, true, false, true⟩ := by decide

/-- P2 line 10. -/
theorem test_rfshr_partial :
    sent .rfshr (rectIs 4 0 8 1 (awake .fullRefresh)) =
      some [.seq .initPart, .window ⟨0, 0, 16, 1⟩, .seq .updatePart, .wait .part] := by decide

/-- Part 2.5, line 3: the family whose power-off loses the mode. -/
theorem test_pwroff_loses_mode :
    left .pwroff { awake .fastRefresh with panel := { small with powerOffForcesFull := true } } =
      some ⟨.fullRefresh, false, false, false, false, false⟩ := by decide

theorem test_pwroff_off : sent .pwroff fresh = some [] ∧ left .pwroff fresh = some fresh.life := by decide

/-- Part 2.5, line 4. -/
theorem test_hiber_grey :
    sent .hiber (awake .greyRefresh) = some [.seq .powerOff, .wait .poff, .seq .deepSleep] ∧
    left .hiber (awake .greyRefresh) = some ⟨.fullRefresh, false, true, false, false, false⟩ := by decide

/-- Part 2.5, line 8: without a reset line there is no deep sleep. -/
theorem test_hiber_no_reset_line :
    sent .hiber { awake .fastRefresh with panel := { small with hasReset := false } } = some [.seq .powerOff, .wait .poff] := by decide

/-! ### The host port -/

/-- R29: `STATUS = 0x60` after reset. -/
theorem test_status_reset : readReg .status (State.resetFor small) = 0x60#32 := by decide

/-- P1: `STATUS = 0x88` after line 1, 0x10 asleep; P2: 0x8C, 0x8E. -/
theorem test_status_views :
    [awake .fullRefresh, awake .fastRefresh, awake .greyRefresh, awake .forcedFullRefresh, sleeping].map (readReg .status) =
      [0x88#32, 0x8A#32, 0x8C#32, 0x8E#32, 0x10#32] := by decide

/-- Part 2.7: `WR DIAG, 2` with `DIAG = 7`. -/
theorem test_diag_clear :
    afterStep (fun t => t.diag.word) (writes 2 0x2#32 { fresh with diag := ⟨true, true, true, false⟩ }) = some 0x5#32 := by decide

/-- R11: the two halves of `XY` and `BWH`. -/
theorem test_xy_halves :
    afterStep (fun t => (t.rect.x, t.rect.y)) (writes 4 0xFFFEFFFD#32 fresh) = some (-3, -2) := by decide

/-- R78: a command through the host port ends with `BUSY = 0`, `CMD` stored, `XFERCNT` its bytes. -/
theorem test_cmd_step :
    afterStep (fun t => (t.busy, t.cmd, t.xferCnt, t.trace.length)) (writes 0 0x00000004#32 { cutBitmap with xferCnt := 99 }) =
      some (false, 0x4#32, 4#32, 9) := by decide

/-- Part 2.7: `XY` written while a command runs. -/
theorem test_busy_write :
    afterStep (fun t => (t.rect.x, t.diag.word, t.trace.length))
      { cutBitmap with hostq := [.write 0 0x00000004#32 [.write 4 0x00050005#32, .write 0 0x00000001#32]] } = some (-3, 0x8#32, 9) := by decide

/-- R18, R31: the moments of a four-byte fill, `XFERCNT` counting from before `Window` to before `End`; then the last moment. -/
theorem test_moments_of_fill :
    (stateAfter (exec (.wsb 0x3C) (awake .fastRefresh))).map (fun t => (t.seen.map Live.xferCnt, t.live.xferCnt)) =
      some ([0#32, 0#32, 0#32, 0#32, 1#32, 2#32, 3#32, 4#32], 4#32) := by decide

/-- R132, R190: init is done before `MODE` and power change, and `initial_refresh` falls last; no step between two moments is missed. -/
theorem test_moments_of_refresh :
    (stateAfter (exec (.rfsh false) { awake .fastRefresh with powerIsOn := false, initialRefresh := true })).map
      (fun t => (t.seen.map fun v => (v.life.mode.code.toNat, v.life.powerIsOn, v.life.initialRefresh)).dedup) =
      some [(1, false, true), (0, false, true), (0, true, true)] := by decide

/-- R16, R31: at the one moment there is, a read of `STATUS` shows `BUSY` and that moment's fields, a read of `DIAG` the `BUSYWR` of the write
before it. -/
theorem test_live_read :
    let s : State := { awake .fullRefresh with busy := true }
    (busyAccesses [s.live] [.read 1] s).rdata = 0x89#32 ∧ (busyAccesses [s.live] [.write 4 0, .read 2] s).rdata = 0x8#32 := by
  simp only [busyAccesses, runOn, List.length_singleton, Nat.mod_one]
  decide

/-- R6: a build's own `SEQ_WINDOW`, at a window it lists. -/
theorem test_window_of_a_build :
    (Event.window ⟨0, 0, 8, 1⟩).expand { small with seqWindow := [(⟨0, 0, 16, 2⟩, [.cmd 1]), (⟨0, 0, 8, 1⟩, [.cmd 2, .data 7])] } =
      [.cmd 2, .data 7] := by decide

/-- Part 2.7: a timed-out `Wait` sets `TIMEOUT`, everything else as with ready (P4 line 9). -/
theorem test_timeout :
    (stateAfter (exec .rfshr { fresh with answers := [.ready, .timedOut] })).map (fun t => (t.diag.word, t.life)) =
      some (0x2#32, ⟨.fullRefresh, true, false, true, false, true⟩) := by decide

/-- R56: `PL[CUR]` after a one-byte write at (8, 1): byte number `1 * 2 + 1`. -/
theorem test_plane_byte :
    (stateAfter (exec (.wimg false false false) (rectIs 8 1 8 1 (oneByte .fastRefresh)))).map (fun t => cellGet t.ctl.cur 3) =
      some (some 0x0F) := by decide

/-- R230: block reset clears the trace and the registers, and leaves the source memory. -/
theorem test_block_reset :
    afterStep (fun t => (t.life, t.trace, t.src, t.ram == cutBitmap.ram)) { cutBitmap with trace := [.reset], hostq := [.blockReset true] } =
      some (⟨.fullRefresh, false, false, true, true, false⟩, [], 0#32, true) := by decide

/-- R230: block reset alone does not touch the controller, here powered, awake, and in the middle of a plane. -/
theorem test_block_reset_controller :
    afterStep (fun t => (t.powerIsOn, t.ctl.powered, t.ctl.asleep, t.ctl.window, t.ctl.sel, t.ctl.count))
      { fresh with
        powerIsOn := true
        ctl := { fresh.ctl with powered := true, window := ⟨8, 1, 8, 2⟩, sel := .prev, count := 1 }
        hostq := [.blockReset false] } =
      some (false, true, false, ⟨8, 1, 8, 2⟩, .prev, 1) := by decide

/-- R231: the block waits. -/
theorem test_idle : afterStep State.life fresh = some fresh.life := by decide

/-- Why a command was refused, if it was. -/
def refusal : Out → Option Refusal
  | .next _ => none
  | .fault _ => none
  | .refused r => some r

/-- U6: no memory behind the source. -/
theorem test_unreadable : refusal (exec (.wimg false false false) { cutBitmap with ram := [] }) = some .unreadableSource := by decide

/-! ### Witnesses: for every statement with hypotheses, values that meet them -/

theorem next_of_after {o : Out} (h : (stateAfter o).isSome = true) : ∃ t, o = .next t := by
  cases o with
  | next t => exact ⟨t, rfl⟩
  | fault r => simp [stateAfter] at h
  | refused r => simp [stateAfter] at h

/-- `RFSHR` as the next host action of a state whose trace holds a full refresh. -/
def refreshed : State :=
  { awake .fastRefresh with
    trace := [.seq .initFull, .seq .powerOn, .wait .pon, .seq .updateFull, .wait .full, .seq .initPart]
    ctl := { Controller.powerUp 0 with loaded := some .initPart, powered := true }
    ram := [(5, 1)]
    w := 8
    h := 1
    hostq := [.write 0 0x0000000D#32 []] }

/-- The geometry of `oneByte` and of `greyRow`. -/
def cell : Geom := ⟨0, 0, 8, 1, 0, 0, 8, 1, 0, 0⟩

theorem oneByte_readable (m : Mode) (mir : Bool) : Readable (oneByte m) .ram cell mir .one :=
  (monoBytes_some_iff (m := ⟨false, mir, .ram⟩) .cur (by decide) (by decide)).mp ⟨[0x0F], by cases m <;> cases mir <;> decide⟩

theorem greyRow_readable (b : Bpp) :
    Readable (greyRow [0xFF, 0xFE, 0x80, 0x7F, 0x01, 0x00, 0xA0, 0x9F]) .ram cell false b := by
  refine (greyBytes_some_iff (b := b) (m := ⟨false, false, .ram⟩) .cur (by decide)).mp ?_
  cases b
  · exact ⟨[0xFF], by decide⟩
  · exact ⟨[0xFF], by decide⟩
  · exact ⟨[0xF9], by decide⟩
  · exact ⟨[0xE3], by decide⟩

theorem witness_ReservedWordIgnored :
    fresh.busy = false ∧ ReservedWord true 0x00000000#32 ∧ ReservedWord true 0x00000010#32 ∧ ReservedWord true 0x000000FF#32 ∧
    ReservedWord true 0x00004001#32 ∧ ReservedWord true 0x0100000E#32 ∧ ReservedWord false 0x00000806#32 :=
  ⟨rfl, .inl (by decide), .inr (.inl (by decide)), .inr (.inl (by decide)), .inr (.inr (.inl (by decide))),
    .inr (.inr (.inl (by decide))), .inr (.inr (.inr (by decide)))⟩

theorem witness_StepRunsTheCommand :
    fresh.busy = false ∧ decodeFor fresh.panel.hasPrev 0x003C0002#32 = some (.wsb 0x3C) ∧ decodeFor fresh.panel.hasPrev 0#32 = none := by
  decide

theorem witness_RegisterMap :
    fresh.busy = false ∧ [1, 8, 9, 1000].all (fun n => decide (n = 1 ∨ 8 ≤ n)) = true ∧
    [3, 7].all (fun n => decide (3 ≤ n ∧ n ≤ 7)) = true ∧ ∃ t, step (writes 0 0x003C0002#32 fresh) = .next t :=
  ⟨rfl, by decide, by decide, ⟨_, rfl⟩⟩

theorem witness_StatusIsLiveView : fresh.busy = false ∧ [8, 31].all (fun n => decide (8 ≤ n)) = true := by decide

theorem witness_DiagWriteOneClears : { fresh with diag := ⟨true, true, true, true⟩ }.busy = false ∧ 4 ≤ 4 := by decide

theorem witness_OperandRegistersHoldAnyWord : (awake .greyRefresh).busy = false := by decide

theorem witness_BusyWriteOnlySetsFlag : { fresh with busy := true }.busy = true ∧ 0 ≤ 8 ∧ 8 ≤ 8 := by decide

/-- With a register write and a store among the accesses, and no read; then with a read after them. -/
theorem witness_OverlappingAccesses :
    fresh.busy = false ∧ decodeFor fresh.panel.hasPrev 0x003C0002#32 = some (.wsb 0x3C) ∧
    (∃ t, exec (.wsb 0x3C)
      { fresh with hostq := [], cmd := 0x003C0002#32, xferCnt := 0, busy := true, racing := storesOf [.write 4 0, .store ⟨.ram, 9, 1⟩] } =
        .next t) ∧
    (∀ o ∈ [Overlap.write 4 0, .store ⟨.ram, 9, 1⟩], ∀ n, o ≠ .read n) ∧
    [Overlap.write 4 0, .store ⟨.ram, 9, 1⟩, .read 8, .write 9 0] = [.write 4 0, .store ⟨.ram, 9, 1⟩] ++ .read 8 :: [.write 9 0] ∧
    (∀ o ∈ [Overlap.write 9 0], ∀ n, o ≠ .read n) ∧
    ∃ t, exec (.wsb 0x3C)
      { fresh with
        hostq := [], cmd := 0x003C0002#32, xferCnt := 0, busy := true
        racing := storesOf [.write 4 0, .store ⟨.ram, 9, 1⟩, .read 8, .write 9 0] } = .next t :=
  ⟨rfl, by decide, ⟨_, rfl⟩, by simp, rfl, by simp, ⟨_, rfl⟩⟩

theorem witness_LiveReadsFollowTheCommand :
    (∃ t, exec .hiber (awake .greyRefresh) = .next t) ∧ (∃ t, exec (.clrs 0) sleeping = .next t) ∧ [fresh.live, fresh.live] ≠ [] :=
  ⟨⟨_, rfl⟩, ⟨_, rfl⟩, by simp⟩

theorem witness_BlockResetState :
    (HostAction.blockReset true = .blockReset true ∨ ∃ v, HostAction.blockReset true = .abortedCommand v true) ∧
    (HostAction.abortedCommand 1 false = .blockReset false ∨ ∃ v, HostAction.abortedCommand 1 false = .abortedCommand v false) ∧
    (HostAction.blockReset false = .blockReset false ∨ ∃ v, HostAction.blockReset false = .abortedCommand v false) :=
  ⟨.inl rfl, .inr ⟨1, rfl⟩, .inl rfl⟩

theorem witness_IdleBlockWaits : (State.resetFor small).hostq = [] ∧ cutBitmap.hostq = [] := by decide

/-- The first and the last address, and one on either side of them. -/
theorem witness_HostStoreThenRead :
    fresh.racing = [] ∧ (HostStore.addr ⟨.pgm, 0xFFFFFFFF#32, 1⟩).toNat = 2 ^ 32 - 1 ∧ ((-1 : Int) < 0 ∨ 2 ^ 32 ≤ (-1 : Int)) ∧
    ((2 ^ 32 : Int) < 0 ∨ (2 : Int) ^ 32 ≤ 2 ^ 32) ∧ ¬ (Space.ram = .pgm ∧ (0 : Int) = (0xFFFFFFFF#32).toNat) := by decide

/-- At the last address, with a racing store there and with one elsewhere. -/
theorem witness_RacingReadOldOrNew :
    let s (a : Word) : State := { fresh with ram := [(2 ^ 32 - 1, 7)], racing := [⟨.ram, a, 8⟩] }
    (0 : Int) ≤ 2 ^ 32 - 1 ∧ (2 ^ 32 - 1 : Int) < 2 ^ 32 ∧ cellGet ((s 0).memory .ram) (2 ^ 32 - 1 : Int).toNat = some 7 ∧
    (∀ st ∈ (s 0).racing, ¬ (st.space = .ram ∧ (st.addr.toNat : Int) = 2 ^ 32 - 1)) ∧
    ∃ st ∈ (s 0xFFFFFFFF#32).racing, st.space = .ram ∧ (st.addr.toNat : Int) = 2 ^ 32 - 1 := by decide

theorem witness_GeometryResultInside :
    (geomWrite small ⟨-1, 1, 17, 2⟩).isSome = true ∧ (geomPart small ⟨0, 0, 16, 1⟩ ⟨5, 0, 16, 2⟩ (unitOf .two)).isSome = true ∧
    (geomRefresh small ⟨15, 1, 9, 9⟩).isSome = true := by decide

theorem witness_RefreshWindowCovers :
    geomRefresh small ⟨15, 1, 9, 9⟩ = some ⟨8, 1, 8, 1⟩ ∧ geomRefresh small ⟨16, 0, 1, 1⟩ = none ∧
    (15 : Int) ≤ 15 ∧ (15 : Int) < 15 + 9 ∧ (1 : Int) ≤ 1 ∧ (1 : Int) < 1 + 9 ∧ (15 : Int) < small.width ∧ (1 : Int) < small.height := by
  decide

theorem witness_WriteWindowIsTheAlignedPart :
    geomWrite small ⟨-1, 1, 17, 2⟩ = some ⟨0, 1, 16, 1, 8, 0, 17, 2, 0, 0⟩ ∧ geomWrite small ⟨-8, 0, 8, 1⟩ = none ∧
    (4 : Int) % unitOf .four = 0 ∧ (4 : Int) ≤ 5 ∧ (5 : Int) < 4 + unitOf .four ∧
    geomPart small ⟨-8, 0, 16, 9⟩ ⟨5, 1, 16, 2⟩ (unitOf .four) = some ⟨0, 0, 8, 1, 8, 0, 16, 2, 4, 1⟩ ∧
    geomPart small ⟨0, 0, 16, 9⟩ ⟨16, 1, 16, 2⟩ (unitOf .four) = none := by decide

/-- One rectangle just off the panel, one part just off its bitmap; and a drop of `RFSHR`. -/
theorem witness_EmptyRectangleDoesNothing :
    imageGeom (rectIs 16 0 8 1 fresh) = none ∧ partGeom (rectIs 0 0 8 1 (partIs 8 0 8 1 fresh)) 8 = none ∧
    partGeom (rectIs 0 0 8 1 (partIs 8 0 8 1 fresh)) (unitOf .four) = none ∧ fresh.panel.hasPrev = true ∧
    (awake .fastRefresh).initialRefresh = false ∧ (awake .fastRefresh).mode ≠ .forcedFullRefresh ∧
    geomRefresh small (rectIs 16 0 8 1 (awake .fastRefresh)).rect = none := by decide

theorem witness_SourceRowInsideBitmap :
    imageGeom cutBitmap = some ⟨0, 0, 16, 2, 8, 1, 24, 3, 0, 0⟩ ∧ ((1 : Nat) : Int) < 2 ∧
    (partGeom greyPart (unitOf .four)).map (fun g => (g.ys, g.hb)) = some (1, 4) ∧ cutBitmap.racing = [] ∧
    srcRow ⟨0, 0, 16, 2, 8, 1, 24, 3, 0, 0⟩ true 1 = 0 ∧ srcRow cell true 0 = srcRow cell false 0 := by decide

theorem witness_GreyInversion :
    7 < pixelsPerByte .one ∧ 0 < pixelsPerByte .eight ∧ greyTh small .two = defaultThreshold .two ∧ greyTh small .four = defaultThreshold .four ∧
    greyTh small .eight = defaultThreshold .eight ∧ greyTh small .one = defaultThreshold .one ∧ 3 ≤ 2 ^ bppBitsPer .two - 1 := by decide

/-- The values on either side of each clause at 4 bits per pixel: 0, 1, the threshold 8 and the value below it, 14, 15. -/
theorem witness_TonesAndPlaneBits :
    15 < 2 ^ bppBitsPer .four ∧
    [0, 1, 7, 8, 14, 15].map (toneOf small .four) = [.black, .grey2, .grey2, .grey1, .grey1, .white] := by decide

theorem witness_LeftmostPixelIsHighest :
    3 < pixelsPerByte .two ∧ 1 < bppBitsPer .two ∧ [true, false, false, false, false, false, false, false].length = 8 ∧ 7 < 8 := by decide

theorem witness_OneBitGreyIsMono : (oneByte .fullRefresh).racing = [] ∧ (cell.xs + cell.dx) % 8 = 0 := by decide

theorem witness_FootprintInsideBitmap :
    imageGeom cutBitmap = some ⟨0, 0, 16, 2, 8, 1, 24, 3, 0, 0⟩ ∧ (0 : Int) % 8 = 0 ∧ (8 : Int) ≤ 23 ∧ (23 : Int) ≤ 0 + 8 + 16 - 1 := by decide

theorem witness_WsbFillsCurrentPlane :
    Coherent fresh ∧ Coherent sleeping ∧ planeBytes fresh.panel = 4 ∧
    (stateAfter (exec (.wsb 1) fresh)).map (fun t => t.ctl.lost) = some false := by decide

theorem witness_WsbaFillsPreviousPlane :
    Coherent (awake .greyRefresh) ∧ (stateAfter (exec (.wsba 1) (awake .greyRefresh))).map (fun t => t.ctl.lost) = some false := by decide

theorem witness_ClrsClearsAndRefreshes :
    Coherent (awake .greyRefresh) ∧ (stateAfter (exec (.clrs 1) (awake .greyRefresh))).map (fun t => t.ctl.lost) = some false := by decide

theorem witness_MonoWriteResult :
    Coherent (oneByte .greyRefresh) ∧ imageGeom (oneByte .greyRefresh) = some cell ∧
    partGeom (partIs 0 0 8 1 (oneByte .greyRefresh)) 8 = some cell ∧ Readable (oneByte .greyRefresh) .ram cell true .one ∧
    (oneByte .greyRefresh).racing = [] ∧ imageGeom (rectIs 16 0 8 1 fresh) = none ∧ partGeom (rectIs 0 0 8 1 (partIs 8 0 8 1 fresh)) 8 = none :=
  ⟨by decide, by decide, by decide, oneByte_readable _ _, rfl, by decide, by decide⟩

/-- For each pixel depth; and the clause of one plane. -/
theorem witness_GreyWriteResult :
    let s := greyRow [0xFF, 0xFE, 0x80, 0x7F, 0x01, 0x00, 0xA0, 0x9F]
    Coherent s ∧ s.panel.hasPrev = true ∧ imageGeom s = some cell ∧ (∀ b, partGeom (partIs 0 0 8 1 s) (unitOf b) = some cell) ∧
    (∀ b, Readable s .ram cell false b) ∧ s.racing = [] ∧ ({ small with hasPrev := false } : Panel).hasPrev = false :=
  ⟨by decide, rfl, by decide, fun b => by cases b <;> decide, greyRow_readable, rfl, rfl⟩

theorem witness_MonoDrawResult :
    Coherent (oneByte .fullRefresh) ∧ imageGeom (oneByte .fullRefresh) = some cell ∧
    partGeom (partIs 0 0 8 1 (oneByte .fullRefresh)) 8 = some cell ∧ Readable (oneByte .fullRefresh) .ram cell false .one ∧
    (oneByte .fullRefresh).racing = [] :=
  ⟨by decide, by decide, by decide, oneByte_readable _ _, rfl⟩

theorem witness_GreyDrawResult :
    let s := greyRow [0xFF, 0xFE, 0x80, 0x7F, 0x01, 0x00, 0xA0, 0x9F]
    Coherent s ∧ s.panel.hasPrev = true ∧ imageGeom s = some cell ∧ (∀ b, partGeom (partIs 0 0 8 1 s) (unitOf b) = some cell) ∧
    (∀ b, Readable s .ram cell false b) ∧ s.racing = [] :=
  ⟨by decide, rfl, by decide, fun b => by cases b <;> decide, greyRow_readable, rfl⟩

theorem witness_RfshResult : Coherent fresh ∧ PanelOk fresh.panel ∧ Coherent (awake .forcedFullRefresh) := by decide

theorem witness_RfshrResult :
    Coherent (awake .forcedFullRefresh) ∧ ((awake .forcedFullRefresh).initialRefresh = true ∨ (awake .forcedFullRefresh).mode = .forcedFullRefresh) ∧
    fresh.initialRefresh = true := by decide

theorem witness_PwroffResult : fresh.powerIsOn = false := by decide

theorem witness_HiberResult :
    sleeping.hibernating = true ∧ Coherent sleeping ∧ fresh.panel.hasReset = true ∧ fresh.hibernating = false ∧ ({ small with hasReset := false } : Panel).hasReset = false := by decide

/-- Both outcomes: a picture that can be read, and one that cannot. -/
theorem witness_OnlyUnreadableSourceStops :
    Coherent cutBitmap ∧ (stateAfter (exec (.wimg false false false) cutBitmap)).isSome = true ∧
    refusal (exec (.wimg false false false) { cutBitmap with ram := [] }) = some .unreadableSource := by decide

theorem witness_CommandFrame :
    (∃ t, exec (.wimg false false false) cutBitmap = .next t) ∧ ([] : List Event).countP Event.isWait = 0 ∧
    { fresh with diag := ⟨true, true, false, false⟩ }.diag.drop = true ∧ (awake .fastRefresh).initialWrite = false :=
  ⟨next_of_after (by decide), rfl, rfl, rfl⟩

theorem witness_WritesNeitherWaitNorRefresh : Coherent fresh ∧ ∃ t, exec (.wsba 3) fresh = .next t := ⟨by decide, next_of_after (by decide)⟩

theorem witness_RefreshMovesNoPixels :
    Coherent (awake .fastRefresh) ∧ (∃ t, exec .pwroff (awake .fastRefresh) = .next t) ∧
    (stateAfter (exec .pwroff (awake .fastRefresh))).map (fun t => (t.ctl.lost, t.hibernating)) = some (false, false) ∧
    (awake .fastRefresh).hibernating = false :=
  ⟨by decide, next_of_after (by decide), by decide, rfl⟩

/-- The last byte column and row of the panel. -/
theorem witness_PlaneStreamLands :
    WindowOk small ⟨8, 1, 8, 1⟩ ∧ (Controller.powerUp 0).lost = false ∧ Plane.prev ≠ .cur ∧
    ([0x0F] : List Byte).length = (1 : Int).toNat * (8 / 8 : Int).toNat := by decide

theorem witness_ImageLandsInItsWindow :
    Coherent (oneByte .fastRefresh) ∧ (oneByte .fastRefresh).hibernating = false ∧ (oneByte .fastRefresh).initialWrite = false ∧
    (oneByte .fastRefresh).ctl.lost = false ∧ (oneByte .fastRefresh).racing = [] ∧ imageGeom (oneByte .fastRefresh) = some cell ∧
    (oneByte .fastRefresh).panel.hasPrev = true ∧ (∃ t, exec (.wimg false false false) (oneByte .fastRefresh) = .next t) ∧
    ∃ t, exec (.wimg4 .one false false false) (oneByte .fastRefresh) = .next t :=
  ⟨by decide, rfl, rfl, rfl, rfl, by decide, rfl, next_of_after (by decide), next_of_after (by decide)⟩

/-- The two states differ in everything a `WIMG` does not read. -/
theorem witness_OutcomeDependsOnInputsOnly :
    let s := oneByte .fastRefresh
    Coherent s ∧ SameInputs (.wimg false false false) s
      { s with
        diag := ⟨true, true, true, true⟩, xferCnt := 5, cmd := 9, xPart := 3, hBitmap := 4, trace := [.reset]
        ctl := (Controller.powerUp 3).lose, answers := [.timedOut], hostq := [.read 1], rdata := 8, draws := 2, busy := true } :=
  ⟨by decide, ⟨rfl, rfl, fun _ => rfl, fun h => by simp [usesPart] at h, fun _ => rfl, fun _ => rfl, fun _ => rfl, rfl, rfl⟩⟩

/-- `RAM` and `PGM` changed everywhere but at the one byte of the footprint. -/
theorem witness_OnlyTheFootprintIsRead :
    let s := oneByte .fastRefresh
    let s' : State := { s with ram := [(0, 1), (0x1000, 0x0F), (0x1001, 9)], pgm := [(7, 7)] }
    s.racing = [] ∧ ∀ c, pictureOf (.wimg false false false) s = some c → ∀ n : Nat, (n : Int) < c.geom.h1 → ∀ q : Int,
      (c.geom.xs + c.geom.dx) / pixelsPerByte c.bpp ≤ q → q ≤ (c.geom.xs + c.geom.dx + c.geom.w1 - 1) / pixelsPerByte c.bpp →
      let a := s.srcAddr + srcRow c.geom c.read.mir n * stride c.geom.wb (bppBitsPer c.bpp) + q
      cellGet (s'.memory c.read.space) a.toNat = cellGet (s.memory c.read.space) a.toNat := by
  refine ⟨rfl, fun c hc n hn q h0 h1 => ?_⟩
  have hp : pictureOf (.wimg false false false) (oneByte .fastRefresh) = some ⟨cell, ⟨false, false, .ram⟩, .one⟩ := by decide
  rw [hp] at hc
  obtain rfl : (⟨cell, ⟨false, false, .ram⟩, .one⟩ : Picture) = c := by simpa using hc
  simp only [cell, pixelsPerByte] at hn h0 h1
  obtain rfl : n = 0 := by omega
  obtain rfl : q = 0 := by omega
  decide

theorem witness_WakeBeforeAnythingElse :
    Coherent fresh ∧ Coherent sleeping ∧ fresh.hibernating = false ∧ sleeping.hibernating = true ∧ (∃ t, exec (.wsb 1) fresh = .next t) ∧
    (∃ t, exec (.wsb 1) sleeping = .next t) ∧ ∃ t, exec .pwroff sleeping = .next t :=
  ⟨by decide, by decide, rfl, rfl, next_of_after (by decide), next_of_after (by decide), next_of_after (by decide)⟩

theorem witness_OneFlagPerCommand :
    Coherent fresh ∧ fresh.diag = ⟨false, false, false, false⟩ ∧ ∃ t, exec (.rfsh false) fresh = .next t :=
  ⟨by decide, rfl, next_of_after (by decide)⟩

/-- One run with a timed-out `Wait`, one without. -/
theorem witness_TimeoutLosesTheController :
    fresh.diag.timeout = false ∧ fresh.ctl.lost = false ∧
    (stateAfter (exec (.rfsh false) fresh)).map (fun t => (t.diag.timeout, t.ctl.lost)) = some (false, false) ∧
    (stateAfter (exec (.rfsh false) fresh)).map (fun t => t.trace.countP Event.isWait) = some 2 ∧ 2 ≤ fresh.answers.length ∧
    (stateAfter (exec (.rfsh false) { fresh with answers := [.timedOut, .ready] })).map (fun t => (t.diag.timeout, t.ctl.lost)) =
      some (true, true) := by decide

/-- A fresh block with a readable picture, whole and as a part, at every pixel depth; and one whose rectangles are empty. -/
theorem witness_FirstCommandAfterReset :
    let s : State := partIs 0 0 8 1 (load 0x3000 [0xFF, 0xFE, 0x80, 0x7F, 0x01, 0x00, 0xA0, 0x9F] (rectIs 0 0 8 1 fresh))
    let e : State := partIs 8 0 8 1 (rectIs 16 0 8 1 fresh)
    s.life = (State.resetFor s.panel).life ∧ s.racing = [] ∧ imageGeom s = some cell ∧ partGeom s 8 = some cell ∧
    (∀ b, partGeom s (unitOf b) = some cell) ∧ (∀ b, Readable s .ram cell false b) ∧ s.panel.hasPrev = true ∧ s.panel.hasReset = true ∧
    imageGeom e = none ∧ partGeom e 8 = none ∧ (∀ b, partGeom e (unitOf b) = none) ∧ ({ small with hasReset := false } : Panel).hasReset = false :=
  ⟨rfl, rfl, by decide, by decide, fun b => by cases b <;> decide, greyRow_readable, rfl, rfl, by decide, by decide,
    fun b => by cases b <;> decide, rfl⟩

theorem witness_CoherenceKept : Coherent refreshed ∧ refreshed.busy = false ∧ ∃ t, step refreshed = .next t :=
  ⟨by decide, rfl, next_of_after (by decide)⟩

theorem witness_MemoriesKept : MemoriesOk refreshed ∧ ∃ t, step { refreshed with hostq := [.store ⟨.ram, 2, 2⟩] } = .next t :=
  ⟨by decide, ⟨_, rfl⟩⟩

theorem witness_ProtocolKept : PanelOk refreshed.panel ∧ Coherent refreshed ∧ ProtocolOk refreshed ∧ ∃ t, step refreshed = .next t :=
  ⟨by decide, by decide, by decide, next_of_after (by decide)⟩

theorem witness_UpdatesKept : Coherent refreshed ∧ UpdatesOk refreshed ∧ ∃ t, step refreshed = .next t :=
  ⟨by decide, ⟨⟨some .initPart, true⟩, by decide, rfl, fun _ => rfl⟩, next_of_after (by decide)⟩

/-- From reset the next step runs the placed word, RFSH FULL: power-on comes before the update (R190, R234; log 5). -/
theorem test_withFetchWord :
    (match step (State.reset.withFetchWord 32 0x0C) with
      | .next t => decide (t.trace = [.seq .initFull, .seq .powerOn, .wait .pon, .seq .updateFull, .wait .full])
      | .fault _ | .refused _ => false) = true := by decide

theorem witness_BeliefKept : Coherent refreshed ∧ BeliefRight refreshed ∧ ∃ t, step refreshed = .next t :=
  ⟨by decide, fun _ => ⟨rfl, rfl, fun _ => rfl⟩, next_of_after (by decide)⟩

theorem witness_FullRefreshComesFirst :
    Coherent refreshed ∧ (refreshed.initialRefresh = false → fullRefreshIn refreshed.panel refreshed.trace) ∧
    PartialAfterFull refreshed.panel refreshed.trace ∧ ∃ t, step refreshed = .next t := by
  refine ⟨by decide, fun _ => .inl ⟨[.seq .initFull, .seq .powerOn, .wait .pon], [.seq .initPart], rfl⟩, fun b a e => ?_,
    next_of_after (by decide)⟩
  have : Event.seq .updatePart ∈ refreshed.trace := by rw [e]; simp
  exact absurd this (by decide)

theorem witness_ResetMeetsInvariants : PanelOk small ∧ PanelOk { small with width := 1, height := 32767 } := by decide

end Sys2Proof.Tests
end

section
/-! PROOF. Two runs of one command from the same inputs end alike (O47): the commands without a bitmap complete by tables of the descriptor and
of the mode and flags, the image commands by those and the pixels of the source. -/

namespace Sys2Proof.Machine

variable {i : Instr} {s s' : State}

/-! ### Outcomes that are alike -/

/-- Two outcomes, of a command run at `s` and at `s'`, that do not tell the two states apart: both refused for one reason, or the same events
sent, the same mode and flags left and `DROP` set alike. -/
inductive Alike (s s' : State) : Out → Out → Prop where
  | refused (r : Refusal) : Alike s s' (.refused r) (.refused r)
  | next {t t' : State} (evs : List Event) (d : Bool) (life : t'.life = t.life)
    (trace : t.trace = s.trace ++ evs) (trace' : t'.trace = s'.trace ++ evs)
    (drop : t.diag.drop = (s.diag.drop || d)) (drop' : t'.diag.drop = (s'.diag.drop || d)) : Alike s s' (.next t) (.next t')

/-- Two runs that `Did` the same end alike when they leave the same mode and flags. -/
theorem Alike.of_did {t t' : State} {evs : List Event} {d : Bool} (h : Did evs d s t) (h' : Did evs d s' t') (hl : t'.life = t.life) :
    Alike s s' (.next t) (.next t') :=
  .next evs d hl h.trace h'.trace h.drop h'.drop

theorem Alike.of_completes {evs : List Event} {d : Bool} {l : Life} (h : Completes i s evs d l) (h' : Completes i s' evs d l) :
    Alike s s' (exec i s) (exec i s') := by
  obtain ⟨t, e, hd, hl⟩ := h
  obtain ⟨t', e', hd', hl'⟩ := h'
  rw [e, e']
  exact .of_did hd hd' (hl'.trans hl.symm)

/-- Two runs that are each refused unless a condition holds, the same for both, end alike when they do so under the condition. -/
theorem Alike.of_refused_unless {R R' A A' : Prop} {o o' : Out} (hR : R' ↔ R)
    (h : (R ∧ A) ∨ (¬ R ∧ o = .refused .unreadableSource)) (h' : (R' ∧ A') ∨ (¬ R' ∧ o' = .refused .unreadableSource))
    (hA : A → A' → Alike s s' o o') : Alike s s' o o' := by
  rcases h with ⟨hr, a⟩ | ⟨hr, rfl⟩ <;> rcases h' with ⟨hr', a'⟩ | ⟨hr', rfl⟩
  · exact hA a a'
  · exact absurd (hR.mpr hr) hr'
  · exact absurd (hR.mp hr') hr
  · exact .refused _

/-- What being alike says of each outcome. -/
theorem Alike.outcome {o o' : Out} (h : Alike s s' o o') :
    (∀ r, o = .refused r → o' = .refused r) ∧
    ∀ t, o = .next t → ∃ t' evs d, o' = .next t' ∧ t'.life = t.life ∧
      t.trace = s.trace ++ evs ∧ t'.trace = s'.trace ++ evs ∧
      t.diag.drop = (s.diag.drop || d) ∧ t'.diag.drop = (s'.diag.drop || d) := by
  cases h with
  | refused r => exact ⟨fun _ e => e, by rintro _ ⟨⟩⟩
  | @next t t' evs d life trace trace' drop drop' =>
    refine ⟨by rintro _ ⟨⟩, fun u e => ?_⟩
    obtain rfl : t = u := Host.Outcome.next.inj e
    exact ⟨t', evs, d, rfl, life, trace, trace', drop, drop'⟩

/-! ### The commands without a bitmap complete, and how -/

/-- `WSB` (R163). -/
theorem completes_wsb (v : Byte) (h : LifeOk s.life) :
    Completes (.wsb v) s (ensureEvents s.life ++ (fillTable s.life.mode).1 ++ fillEvents s.panel .cur v) false
      ⟨(fillTable s.life.mode).2, s.life.powerIsOn, false, false, s.life.initialRefresh, true⟩ :=
  ⟨_, rfl, fillScreen_did v h⟩

/-- `WSBA`, on the previous plane where there is one (R164). -/
theorem completes_wsba (v : Byte) (h : LifeOk s.life) :
    Completes (.wsba v) s
      (ensureEvents s.life ++ (fillTable s.life.mode).1 ++ fillEvents s.panel (if s.panel.hasPrev then .prev else .cur) v) false
      { s.life with hibernating := false, initDone := true, mode := (fillTable s.life.mode).2 } := by
  have hm := modeStepFill_did h
  refine ⟨fill (if s.panel.hasPrev then .prev else .cur) v (modeStepFill s), ?_, ?_, hm.2⟩
  · simp only [exec, execWsba]; split <;> rfl
  · rw [← hm.1.host.panel]
    exact hm.1.andThen (did_emitAll _ (by simp) _)

/-- `CLRS` (R181). -/
theorem completes_clrs (v : Byte) (h : LifeOk s.life) :
    let l : Life := ⟨(fillTable s.life.mode).2, s.life.powerIsOn, false, false, s.life.initialRefresh, true⟩
    Completes (.clrs v) s (ensureEvents s.life ++ (fillTable s.life.mode).1 ++ bothFills s.panel v ++ fullEvents s.panel l) false
      (fullLife s.panel l) := by
  intro l
  obtain ⟨hfill, hfillLife⟩ := fillScreen_did v h
  obtain ⟨hprev, hprevLife⟩ := fillPrev_did v (fillScreen v s)
  have hl : (fillPrev v (fillScreen v s)).life = l := hprevLife.trans hfillLife
  obtain ⟨hfull, hfullLife⟩ := refreshFull_did (s := fillPrev v (fillScreen v s)) (by rw [hl]; exact lifeOk_of_ready ⟨rfl, rfl⟩)
  rw [hl, (hfill.andThen hprev).host.panel] at hfull hfullLife
  rw [hfill.host.panel] at hprev
  refine ⟨_, rfl, ?_, hfullLife⟩
  simpa [bothFills, List.append_assoc, State.life] using (hfill.andThen hprev).andThen hfull

/-- `RFSH FULL` (R186). -/
theorem completes_rfsh_full (h : LifeOk s.life) :
    Completes (.rfsh false) s (fullEvents s.panel s.life) false (fullLife s.panel s.life) :=
  ⟨_, rfl, refreshFull_did h⟩

/-- `RFSH PART` (R186). -/
theorem completes_rfsh_part (h : LifeOk s.life) :
    Completes (.rfsh true) s (refreshEvents s.panel s.life (panelRect s.panel)) (refreshDrops s.panel s.life (panelRect s.panel))
      (refreshLife s.panel s.life (panelRect s.panel)) :=
  ⟨_, rfl, refreshRect_did _ h⟩

/-- `RFSHR` (R187). -/
theorem completes_rfshr (h : LifeOk s.life) :
    Completes .rfshr s (refreshEvents s.panel s.life s.rect) (refreshDrops s.panel s.life s.rect) (refreshLife s.panel s.life s.rect) :=
  ⟨_, rfl, refreshRect_did _ h⟩

/-- `PWROFF` (R200). -/
theorem completes_pwroff (s : State) : Completes .pwroff s (powerOffEvents s.life) false (powerOffLife s.panel s.life) :=
  ⟨_, rfl, powerOffProc_did s⟩

/-- `HIBER` (R201). -/
theorem completes_hiber (s : State) : Completes .hiber s (hiberEvents s.panel s.life) false (hiberLife s.panel s.life) :=
  ⟨_, rfl, hiber_did rfl⟩

/-! ### The same inputs give the same geometry, footprint and pixels -/

section SameInputs

variable (k : SameInputs i s s')
include k

theorem SameInputs.lifeOk (h : LifeOk s.life) : LifeOk s'.life := by rw [k.life]; exact h

/-- A whole-image command finds the same geometry. -/
theorem SameInputs.imageGeom (hr : usesRect i = true) : imageGeom s' = imageGeom s := by
  simp only [Machine.imageGeom, k.panel, k.rect hr]

/-- A part command finds the same geometry. -/
theorem SameInputs.partGeom (hr : usesRect i = true) (hp : usesPart i = true) (u : Nat) : partGeom s' u = partGeom s u := by
  simp only [Machine.partGeom, k.panel, k.rect hr, k.part hp]

variable (hu : usesSource i = true)
include hu

theorem SameInputs.memory (sp : Space) : s'.memory sp = s.memory sp := by
  cases sp with
  | ram => exact k.ram hu
  | pgm => exact k.pgm hu

theorem SameInputs.srcAddr : s'.srcAddr = s.srcAddr := by simp only [State.srcAddr, k.src hu]

theorem SameInputs.readable_iff {sp : Space} {g : Geom} {mir : Bool} {b : Bpp} : Readable s' sp g mir b ↔ Readable s sp g mir b := by
  simp only [Readable, k.memory hu, k.srcAddr hu]

theorem SameInputs.monoPixels (m : ReadMode) (g : Geom) : monoPixels s' m g = monoPixels s m g := by
  simp only [Machine.monoPixels, sourceByte, k.memory hu, k.srcAddr hu]

theorem SameInputs.greyPixels (q : Plane) (b : Bpp) (m : ReadMode) (g : Geom) : greyPixels s' q b m g = greyPixels s q b m g := by
  simp only [Machine.greyPixels, sourceTone, sourceByte, k.memory hu, k.srcAddr hu, k.panel]

/-- Two mono streams of the same picture are the same bytes. -/
theorem SameInputs.monoStream_eq {m : ReadMode} {g : Geom} {l l' : List Byte} (h : MonoStream s m g l) (h' : MonoStream s' m g l') :
    l' = l := by
  rw [h.quiet k.quiet, h'.quiet k.quiet', k.monoPixels hu]

theorem SameInputs.greyStream_eq {q : Plane} {b : Bpp} {m : ReadMode} {g : Geom} {l l' : List Byte} (h : GreyStream s q b m g l)
    (h' : GreyStream s' q b m g l') : l' = l := by
  rw [h.quiet k.quiet, h'.quiet k.quiet', k.greyPixels hu]

/-! ### The image commands on a geometry result -/

variable {m : ReadMode} {g : Geom} {b : Bpp} (hl : LifeOk s.life) (hw : WindowOk s.panel g.rect)
include hl hw

/-- A mono write is refused in both runs, or its lead and stream are the same (R160). -/
theorem SameInputs.monoWrite_alike (hc : (g.xs + g.dx) % 8 = 0) : Alike s s' (monoWrite m g s) (monoWrite m g s') := by
  refine .of_refused_unless (k.readable_iff hu) (monoWrite_cases hc (geom_width hw).1 hl)
    (monoWrite_cases hc (geom_width hw).1 (k.lifeOk hl)) ?_
  rintro ⟨l, t, hb, e, hd, ht⟩ ⟨l', t', hb', e', hd', ht'⟩
  obtain rfl := k.monoStream_eq hu hb hb'
  rw [k.panel, k.life] at hd'
  rw [e, e']
  exact .of_did hd hd' (by rw [ht, ht', k.life])

/-- A 4G write (R160). -/
theorem SameInputs.greyWrite_alike : Alike s s' (greyWrite b m g s) (greyWrite b m g s') := by
  refine .of_refused_unless (k.readable_iff hu) (greyWrite_cases (geom_width hw) hl) (greyWrite_cases (geom_width hw) (k.lifeOk hl)) ?_
  rintro ⟨l, n, t, hb, hn, e, hd, ht⟩ ⟨l', n', t', hb', hn', e', hd', ht'⟩
  obtain rfl := k.greyStream_eq hu hb hb'
  obtain rfl := k.greyStream_eq hu hn hn'
  rw [k.panel, k.life] at hd'
  rw [e, e']
  exact .of_did hd hd' (by rw [ht, ht', k.life])

/-- A mono draw, which also refreshes the rectangle as given and may write again (R182, R183, R192). -/
theorem SameInputs.monoDraw_alike (hr : usesRect i = true) (hc : (g.xs + g.dx) % 8 = 0) :
    Alike s s' (monoDraw m g s) (monoDraw m g s') := by
  refine .of_refused_unless (k.readable_iff hu) (monoDraw_cases hc (geom_width hw).1 hl)
    (monoDraw_cases hc (geom_width hw).1 (k.lifeOk hl)) ?_
  rintro ⟨l, n, t, hb, hn, e, hd, ht⟩ ⟨l', n', t', hb', hn', e', hd', ht'⟩
  obtain rfl := k.monoStream_eq hu hb hb'
  obtain rfl := k.monoStream_eq hu hn hn'
  rw [k.panel, k.life, k.rect hr] at hd' ht'
  rw [e, e']
  exact .of_did hd hd' (ht'.trans ht.symm)

/-- A 4G draw (R184, R185). -/
theorem SameInputs.greyDraw_alike (hr : usesRect i = true) : Alike s s' (greyDraw b m g s) (greyDraw b m g s') := by
  refine .of_refused_unless (k.readable_iff hu) (greyDraw_cases (geom_width hw) hl) (greyDraw_cases (geom_width hw) (k.lifeOk hl)) ?_
  rintro ⟨l, n, t, hb, hn, e, hd, ht⟩ ⟨l', n', t', hb', hn', e', hd', ht'⟩
  obtain rfl := k.greyStream_eq hu hb hb'
  obtain rfl := k.greyStream_eq hu hn hn'
  rw [k.panel, k.life, k.rect hr] at hd' ht'
  rw [e, e']
  exact .of_did hd hd' (ht'.trans ht.symm)

end SameInputs

/-! ### Every command -/

/-- A rectangle command ends alike where it drops (R96), and when it runs alike on its geometry. -/
theorem SameInputs.onGeom_alike (k : SameInputs i s s') {o o' : Option Geom} {f : Geom → State → Out}
    (ho : o' = o) (h : ∀ g, o = some g → Alike s s' (f g s) (f g s')) : Alike s s' (onGeom o f s) (onGeom o' f s') := by
  subst ho
  cases o' with
  | none => exact .of_did (did_setDrop s) (did_setDrop s') k.life
  | some g => exact h g rfl

/-- A 4G command ends alike where it is reserved (R172), and when it runs alike on a block with two planes. -/
theorem SameInputs.needsPrev_alike (k : SameInputs i s s') {f : State → Out} (h : Alike s s' (f s) (f s')) :
    Alike s s' (needsPrev f s) (needsPrev f s') := by
  unfold needsPrev
  rw [k.panel]
  split
  · exact h
  · exact .next [] false k.life (by simp) (by simp) (by simp) (by simp)

/-- The one lemma about two runs: from the same inputs a command ends alike. -/
theorem SameInputs.exec_alike (hl : LifeOk s.life) (k : SameInputs i s s') : Alike s s' (exec i s) (exec i s') := by
  have hl' := k.lifeOk hl
  have hp := k.panel
  have hlife := k.life
  cases i with
  | clrs v => exact .of_completes (completes_clrs v hl) (by simpa only [hp, hlife] using completes_clrs v hl')
  | wsb v => exact .of_completes (completes_wsb v hl) (by simpa only [hp, hlife] using completes_wsb v hl')
  | wsba v => exact .of_completes (completes_wsba v hl) (by simpa only [hp, hlife] using completes_wsba v hl')
  | rfsh par =>
    cases par with
    | false => exact .of_completes (completes_rfsh_full hl) (by simpa only [hp, hlife] using completes_rfsh_full hl')
    | true => exact .of_completes (completes_rfsh_part hl) (by simpa only [hp, hlife] using completes_rfsh_part hl')
  | rfshr => exact .of_completes (completes_rfshr hl) (by simpa only [hp, hlife, k.rect rfl] using completes_rfshr hl')
  | pwroff => exact .of_completes (completes_pwroff s) (by simpa only [hp, hlife] using completes_pwroff s')
  | hiber => exact .of_completes (completes_hiber s) (by simpa only [hp, hlife] using completes_hiber s')
  | wimg inv mir pgm =>
    simp only [exec, execWimg]
    exact k.onGeom_alike (k.imageGeom rfl) fun g hg => k.monoWrite_alike rfl hl (imageGeom_window hg) (imageGeom_columns hg)
  | wimgp inv mir pgm =>
    simp only [exec, execWimgp]
    exact k.onGeom_alike (k.partGeom rfl rfl _) fun g hg => k.monoWrite_alike rfl hl (partGeom_window hg) (partGeom_columns hg)
  | wimg4 bpp inv mir pgm =>
    simp only [exec, execWimg4]
    exact k.needsPrev_alike (k.onGeom_alike (k.imageGeom rfl) fun g hg => k.greyWrite_alike rfl hl (imageGeom_window hg))
  | wimgp4 bpp inv mir pgm =>
    simp only [exec, execWimgp4]
    exact k.needsPrev_alike (k.onGeom_alike (k.partGeom rfl rfl _) fun g hg => k.greyWrite_alike rfl hl (partGeom_window hg))
  | dimg inv mir pgm =>
    simp only [exec, execDimg]
    exact k.onGeom_alike (k.imageGeom rfl) fun g hg => k.monoDraw_alike rfl hl (imageGeom_window hg) rfl (imageGeom_columns hg)
  | dimgp inv mir pgm =>
    simp only [exec, execDimgp]
    exact k.onGeom_alike (k.partGeom rfl rfl _) fun g hg => k.monoDraw_alike rfl hl (partGeom_window hg) rfl (partGeom_columns hg)
  | dimg4 bpp inv mir pgm =>
    simp only [exec, execDimg4]
    exact k.needsPrev_alike (k.onGeom_alike (k.imageGeom rfl) fun g hg => k.greyDraw_alike rfl hl (imageGeom_window hg) rfl)
  | dimgp4 bpp inv mir pgm =>
    simp only [exec, execDimgp4]
    exact k.needsPrev_alike (k.onGeom_alike (k.partGeom rfl rfl _) fun g hg => k.greyDraw_alike rfl hl (partGeom_window hg) rfl)

/-- Settles O47: from the same inputs every command ends alike. -/
theorem outcomeDependsOnInputsOnly : Obligations.OutcomeDependsOnInputsOnly :=
  fun _ _ _ hc k => (k.exec_alike hc.lifeOk).outcome

end Sys2Proof.Machine
end

section
/-! PROOF. What every step keeps (O54, O58, O59, O60): a step that runs a command runs one of the shapes of `Shape`, and each invariant is a fact
about the events and the mode and flags of a shape. -/

namespace Sys2Proof.Machine

variable {i : Instr} {p : Panel} {s t : State} {l m : Life} {evs : List Event} {d : Bool}

/-! ### One step, for an invariant of the engine -/

/-- A command in a coherent state: it only sets a flag of `DIAG` (R172), or its events are legal and of some shape. -/
theorem exec_engine (hc : Coherent s) (e : exec i s = .next t) : SameEngine s t ∨ (Legal s t ∧ Shaped s t) := by
  by_cases hp : i.isFourGrey = true ∧ s.panel.hasPrev = false
  · obtain rfl : setIllegal s = t := Host.Outcome.next.inj ((exec_illegal hp).symm.trans e)
    exact .inl ⟨rfl, rfl, rfl, rfl, id⟩
  · exact .inr ⟨legal_exec hc e hp, shape_exec hc e hp⟩

/-- A property of the engine, its trace and the controller that every command and block reset keep is kept by every step. -/
theorem step_keeps {P : State → Prop} (same : ∀ {s t}, SameEngine s t → P s → P t)
    (command : ∀ {s t}, Coherent s → Legal s t → Shaped s t → P s → P t) (reset : ∀ b v, P (blockReset b v))
    (hc : Coherent s) (hs : P s) (h : step s = .next t) : P t := by
  cases step_to h with
  | idle h _ => exact same h hs
  | command i rest w during u _ _ e r =>
    subst r
    have hl := sameEngine_launched s rest w during
    refine same (sameEngine_endCommand _ during u) ?_
    rcases exec_engine (hl.coherent hc) e with hu | ⟨hleg, hsh⟩
    · exact same hu (same hl hs)
    · exact command (hl.coherent hc) hleg hsh (same hl hs)
  | reset b v _ _ _ r => subst r; exact reset b v

/-- No command is left running by a step (R26). -/
theorem step_busy (hb : s.busy = false) (h : step s = .next t) : t.busy = false := by
  cases step_to h with
  | idle _ b => exact b.trans hb
  | command _ _ _ _ _ _ _ _ r => subst r; rfl
  | reset _ _ _ _ _ r => subst r; rfl

/-! ### R27 (I-a), (I-b), (I-c) -/

theorem coherent_iff : Coherent s ↔ LifeOk s.life ∧ (s.life.hibernating = true → s.panel.hasReset = true) :=
  ⟨fun ⟨ha, hb, hc⟩ => ⟨⟨ha, hb⟩, hc⟩, fun ⟨⟨ha, hb⟩, hc⟩ => ⟨ha, hb, hc⟩⟩

theorem fullLife_ready (p : Panel) (l : Life) : Ready (fullLife p l) := ⟨rfl, rfl⟩

theorem againLife_ready (h : Ready l) : Ready (againLife p l) := by
  unfold againLife; split <;> exact h

/-- What mode and flags a command leaves: those it found, ready ones, those of a power-off (R144), or deep sleep (R201). -/
theorem Shape.life_cases (h : Shape p l evs d m) :
    m = l ∨ Ready m ∨ m = powerOffLife p l ∨
      (p.hasReset = true ∧ m = ⟨.fullRefresh, false, true, l.initialWrite, l.initialRefresh, false⟩) := by
  cases h with
  | nothing d => exact .inl rfl
  | mono | grey | fill | clrs | full => exact .inr (.inl ⟨rfl, rfl⟩)
  | monoDraw r q => exact .inr (.inl (againLife_ready (refreshLife_ready p (monoLife_ready l) q)))
  | greyDraw r q => exact .inr (.inl (refreshLife_ready p (greyLife_ready l) q))
  | rect q =>
    unfold refreshLife
    split
    · exact .inr (.inl (fullLife_ready p l))
    · split
      · exact .inl rfl
      · exact .inr (.inl ⟨rfl, rfl⟩)
  | off => exact .inr (.inr (.inl rfl))
  | sleep _ hr => exact .inr (.inr (.inr ⟨hr, rfl⟩))

/-- A power-off keeps the mode with what the controller holds, or loses both (R144). -/
theorem powerOffLife_ok (p : Panel) (h : LifeOk l) : LifeOk (powerOffLife p l) := by
  obtain ⟨hoff, hsleep, -, -⟩ := powerOffLife_keeps p l
  refine ⟨fun hd => ?_, fun hb => ⟨hoff, ?_⟩⟩
  · unfold powerOffLife at hd ⊢
    split at hd
    · split at hd <;> simp_all
    · simp_all
  · have hb := (h.2 (hsleep ▸ hb)).1
    simp_all [powerOffLife]

/-- (I-a) to (I-c) after a command of some shape. -/
theorem Shaped.coherent (hc : Coherent s) (h : Shaped s t) : Coherent t := by
  obtain ⟨evs, d, hd, hsh⟩ := h
  obtain ⟨hl, hr⟩ := coherent_iff.mp hc
  rw [coherent_iff, hd.host.panel]
  rcases hsh.life_cases with e | hready | e | ⟨hreset, e⟩
  · rw [e]; exact ⟨hl, hr⟩
  · exact ⟨lifeOk_of_ready hready, fun hb => by simp [hready.2] at hb⟩
  · rw [e]; exact ⟨powerOffLife_ok _ hl, fun hb => hr ((powerOffLife_keeps s.panel s.life).2.1 ▸ hb)⟩
  · rw [e]; exact ⟨⟨fun _ => rfl, fun _ => ⟨rfl, rfl⟩⟩, fun _ => hreset⟩

theorem resetFor_coherent (p : Panel) : Coherent (State.resetFor p) := ⟨fun _ => rfl, nofun, nofun⟩

/-- Settles O54: a command leaves mode and flags that it found, ready ones, or those of a power-off or of deep sleep. -/
theorem coherenceKept : Obligations.CoherenceKept := fun _ _ hc hb h =>
  ⟨step_keeps (fun hs hc => hs.coherent hc) (fun hc _ hsh _ => hsh.coherent hc) (fun _ v => resetFor_coherent v.panel) hc hc h,
    step_busy hb h⟩

/-! ### The engine's belief about the controller -/

theorem sleep_of_keepsPlanes {e : Event} (h : e.keepsPlanes = true) (a : Bool) : Event.sleep a e = a := by
  cases e with
  | seq n => cases n with
    | deepSleep => simp [Event.keepsPlanes] at h
    | _ => rfl
  | reset => simp [Event.keepsPlanes] at h
  | window _ | planeSel _ | start | xfer _ | stop | wait _ => rfl

/-- A run of events that neither wakes nor puts to sleep. -/
theorem foldl_sleep_of_keepsPlanes (h : ∀ e ∈ evs, e.keepsPlanes = true) (a : Bool) : evs.foldl Event.sleep a = a :=
  List.foldlRecOn (motive := (· = a)) evs Event.sleep rfl fun b hb e he => by rw [sleep_of_keepsPlanes (h e he), hb]

@[simp] theorem foldl_sleep_planeStream (q : Plane) (r : Rect) (bytes : List Byte) (a : Bool) :
    (planeStream q r bytes).foldl Event.sleep a = a := by
  have hx : (bytes.map Event.xfer).foldl Event.sleep a = a := by
    induction bytes with
    | nil => rfl
    | cons b l ih => exact ih
  simp [planeStream, Event.sleep, hx]

@[simp] theorem foldl_sleep_bothFills (p : Panel) (v : Byte) (a : Bool) : (bothFills p v).foldl Event.sleep a = a := by
  unfold bothFills fillEvents; split <;> simp

@[simp] theorem foldl_sleep_fillTable (m : Mode) (a : Bool) : (fillTable m).1.foldl Event.sleep a = a :=
  foldl_sleep_of_keepsPlanes (fillTable_keepsPlanes m) a

@[simp] theorem foldl_sleep_monoTable (m : Mode) (a : Bool) : (monoTable m).1.foldl Event.sleep a = a :=
  foldl_sleep_of_keepsPlanes (monoTable_keepsPlanes m) a

/-- After `EnsureInit` the controller is awake (R131, R136). -/
theorem foldl_sleep_ensureEvents (h : LifeOk l) : (ensureEvents l).foldl Event.sleep l.hibernating = false := by
  unfold ensureEvents
  cases hb : l.hibernating with
  | true => rw [if_neg (by simp [(h.2 hb).2]), if_pos rfl]; rfl
  | false => split <;> rfl

theorem foldl_sleep_preludeEvents (h : LifeOk l) : (preludeEvents p l).foldl Event.sleep l.hibernating = false := by
  rw [preludeEvents, List.foldl_append, foldl_sleep_ensureEvents h]
  split <;> simp

theorem foldl_sleep_monoLead (h : LifeOk l) : (monoLead p l).foldl Event.sleep l.hibernating = false := by
  rw [monoLead, List.foldl_append, foldl_sleep_preludeEvents h, foldl_sleep_monoTable]

theorem foldl_sleep_greyLead (h : LifeOk l) : (greyLead p l).foldl Event.sleep l.hibernating = false := by
  rw [greyLead, List.foldl_append, foldl_sleep_preludeEvents h]; rfl

theorem foldl_sleep_fullEvents (p : Panel) (h : LifeOk l) : (fullEvents p l).foldl Event.sleep l.hibernating = false := by
  obtain ⟨hbefore, hafter⟩ := fullTable_keepsPlanes p l.mode
  rw [fullEvents, List.foldl_append, List.foldl_append, List.foldl_append, foldl_sleep_ensureEvents h, foldl_sleep_of_keepsPlanes hbefore,
    foldl_sleep_of_keepsPlanes (powerEvents_keepsPlanes l), foldl_sleep_of_keepsPlanes hafter]

theorem foldl_sleep_rectEvents (g : Rect) (h : LifeOk l) : (rectEvents l g).foldl Event.sleep l.hibernating = false := by
  obtain ⟨hbefore, hafter⟩ := rectTable_keepsPlanes l.mode
  rw [rectEvents, List.foldl_append, List.foldl_append, List.foldl_append, foldl_sleep_ensureEvents h, foldl_sleep_of_keepsPlanes hbefore,
    foldl_sleep_of_keepsPlanes (powerEvents_keepsPlanes l), List.foldl_cons, foldl_sleep_of_keepsPlanes hafter]
  rfl

theorem foldl_sleep_refreshEvents (p : Panel) (q : Rect) (h : LifeOk l) :
    (refreshEvents p l q).foldl Event.sleep l.hibernating = (refreshLife p l q).hibernating := by
  unfold refreshEvents refreshLife
  split
  · exact foldl_sleep_fullEvents p h
  · split
    · rfl
    · exact foldl_sleep_rectEvents _ h

theorem foldl_sleep_againEvents (q : Plane) (r : Rect) (bytes : List Byte) (a : Bool) :
    (againEvents p l (planeStream q r bytes)).foldl Event.sleep a = a := by
  unfold againEvents; split <;> simp

/-- The controller sleeps after a command exactly when the engine says so (R202). -/
theorem Shape.sleep_eq (h : Shape p l evs d m) (hl : LifeOk l) : evs.foldl Event.sleep l.hibernating = m.hibernating := by
  have hmono : LifeOk (monoLife l) := lifeOk_of_ready (monoLife_ready l)
  have hgrey : LifeOk (greyLife l) := lifeOk_of_ready (greyLife_ready l)
  have hfill : LifeOk ⟨(fillTable l.mode).2, l.powerIsOn, false, false, l.initialRefresh, true⟩ := lifeOk_of_ready ⟨rfl, rfl⟩
  cases h with
  | nothing d => rfl
  | mono r bytes hb => rw [List.foldl_append, foldl_sleep_monoLead hl, foldl_sleep_planeStream]; rfl
  | grey r cur prev =>
    rw [List.foldl_append, List.foldl_append, foldl_sleep_greyLead hl, foldl_sleep_planeStream, foldl_sleep_planeStream]; rfl
  | monoDraw r q first second =>
    rw [List.foldl_append, List.foldl_append, List.foldl_append, foldl_sleep_monoLead hl, foldl_sleep_planeStream,
      foldl_sleep_againEvents]
    refine (foldl_sleep_refreshEvents p q hmono).trans ?_
    unfold againLife; split <;> rfl
  | greyDraw r q cur prev =>
    rw [List.foldl_append, List.foldl_append, List.foldl_append, foldl_sleep_greyLead hl, foldl_sleep_planeStream,
      foldl_sleep_planeStream]
    exact foldl_sleep_refreshEvents p q hgrey
  | fill q v w hw =>
    rw [List.foldl_append, List.foldl_append, foldl_sleep_ensureEvents hl, foldl_sleep_fillTable, fillEvents, foldl_sleep_planeStream]
  | clrs v =>
    rw [List.foldl_append, List.foldl_append, List.foldl_append, foldl_sleep_ensureEvents hl, foldl_sleep_fillTable,
      foldl_sleep_bothFills]
    exact foldl_sleep_fullEvents p hfill
  | full => exact foldl_sleep_fullEvents p hl
  | rect q => exact foldl_sleep_refreshEvents p q hl
  | off =>
    rw [foldl_sleep_of_keepsPlanes (powerOffEvents_keepsPlanes l)]
    exact (powerOffLife_keeps p l).2.1.symm
  | sleep h hr => rw [List.foldl_append]; rfl

/-- The belief after a command: its events move the controller as they move the link and as the mode and flags say (R28, R130, R202). -/
theorem Shaped.beliefRight (hc : Coherent s) (hleg : Legal s t) (hsh : Shaped s t) (hs : BeliefRight s) : BeliefRight t := by
  intro hlost
  obtain ⟨evs, d, hd, hsh⟩ := hsh
  obtain ⟨evs', d', hd', -, hlink⟩ := hleg
  obtain rfl : evs' = evs := List.append_cancel_left (hd'.trace.symm.trans hd.trace)
  obtain ⟨hlost₀, hctl⟩ := hd.planes hlost
  obtain ⟨hpow, hsleep, hload⟩ := hs hlost₀
  obtain ⟨k, hk, hkpow, hkload⟩ := hlink ⟨s.ctl.loaded, s.ctl.powered⟩ ⟨hpow, hload⟩
  obtain ⟨ml, mp, ma⟩ := foldl_matches evs' hlost₀ ⟨rfl, rfl, rfl⟩ hk
  rw [← hctl] at ml mp ma
  refine ⟨mp.trans hkpow, ?_, fun hi => ml.trans (hkload hi)⟩
  rw [ma, hsleep]
  exact hsh.sleep_eq hc.lifeOk

theorem SameEngine.beliefRight (h : SameEngine s t) (hs : BeliefRight s) : BeliefRight t := by
  have hl := h.life
  simp only [State.life, Life.mk.injEq] at hl
  obtain ⟨hm, hp, hb, -, -, hi⟩ := hl
  unfold BeliefRight
  rw [h.ctl, hm, hp, hb, hi]
  exact hs

/-- After block reset the controller is off and awake, or nothing is said of it (R233(c), R246). -/
theorem blockReset_beliefRight (b : Bool) (v : State) : BeliefRight (blockReset b v) := by
  intro hlost
  cases b with
  | true => exact ⟨rfl, rfl, nofun⟩
  | false =>
    have h : (v.ctl.lost || v.ctl.asleep || v.ctl.powered) = false := hlost
    simp only [Bool.or_eq_false_iff] at h
    obtain ⟨⟨-, hasleep⟩, hpowered⟩ := h
    exact ⟨hpowered, hasleep, nofun⟩

/-- Settles O58: a command's events move the controller as its belief says, and block reset leaves it off and awake or lost. -/
theorem beliefKept : Obligations.BeliefKept := fun _ _ hc =>
  step_keeps SameEngine.beliefRight (fun hc hleg hsh => hsh.beliefRight hc hleg) blockReset_beliefRight hc

/-! ### The first refresh is a full one -/

/-- The events take `initial_refresh` from `r` to `r'`: where it is 0 afterwards, it was 0 before or they hold a full refresh, and so it is at
each partial update among them (R27 (I-d), R191). -/
structure FullFirst (p : Panel) (evs : List Event) (r r' : Bool) : Prop where
  cleared : r' = false → r = false ∨ fullRefreshIn p evs
  partials : ∀ before after, evs = before ++ .seq .updatePart :: after → r = false ∨ fullRefreshIn p before

/-- A longer trace holds the full refreshes of its parts. -/
theorem fullRefreshIn.mono {a b : List Event} (h : fullRefreshIn p a) (hab : a <:+: b) : fullRefreshIn p b :=
  h.imp (·.trans hab) (·.trans hab)

/-- After the first refresh there is nothing to show. -/
theorem FullFirst.of_refreshed (evs : List Event) (r : Bool) : FullFirst p evs false r := ⟨fun _ => .inl rfl, fun _ _ _ => .inl rfl⟩

theorem FullFirst.of_not_mem (h : .seq .updatePart ∉ evs) (r : Bool) : FullFirst p evs r r :=
  ⟨.inl, fun _ _ e => absurd (by simp [e]) h⟩

theorem FullFirst.append {a b : List Event} {r r' r'' : Bool} (h : FullFirst p a r r') (k : FullFirst p b r' r'') :
    FullFirst p (a ++ b) r r'' where
  cleared := fun e => by
    rcases k.cleared e with e | hb
    · exact (h.cleared e).imp_right (·.mono (List.infix_append' [] a b))
    · exact .inr (hb.mono (List.suffix_append a b).isInfix)
  partials := fun before after e => by
    rcases List.append_eq_append_iff.mp e with ⟨c, rfl, hb⟩ | ⟨c, rfl, hc⟩
    · rcases k.partials c after hb with hr | hc
      · exact (h.cleared hr).imp_right (·.mono (List.prefix_append a c).isInfix)
      · exact .inr (hc.mono (List.suffix_append a c).isInfix)
    · cases c with
      | nil =>
        rcases k.partials [] after hc.symm with hr | hc
        · simpa using h.cleared hr
        · exact .inr (hc.mono (List.nil_infix))
      | cons e c =>
        obtain ⟨rfl, -⟩ := List.cons.inj hc
        exact h.partials before c rfl

/-! Which events are no partial update. -/

theorem updatePart_not_mem_planeStream (q : Plane) (r : Rect) (bytes : List Byte) : .seq .updatePart ∉ planeStream q r bytes := by
  simp [planeStream]

theorem updatePart_not_mem_bothFills (p : Panel) (v : Byte) : .seq .updatePart ∉ bothFills p v := by
  unfold bothFills fillEvents planeStream; split <;> simp

theorem updatePart_not_mem_ensureEvents (l : Life) : .seq .updatePart ∉ ensureEvents l := by
  unfold ensureEvents; split <;> [simp; (split <;> simp)]

theorem updatePart_not_mem_fillTable (m : Mode) : .seq .updatePart ∉ (fillTable m).1 := by cases m <;> simp [fillTable]

theorem updatePart_not_mem_monoTable (m : Mode) : .seq .updatePart ∉ (monoTable m).1 := by cases m <;> simp [monoTable]

theorem updatePart_not_mem_powerEvents (l : Life) : .seq .updatePart ∉ powerEvents l := by unfold powerEvents; split <;> simp

theorem updatePart_not_mem_powerOffEvents (l : Life) : .seq .updatePart ∉ powerOffEvents l := by unfold powerOffEvents; split <;> simp

theorem updatePart_not_mem_preludeEvents (p : Panel) (l : Life) : .seq .updatePart ∉ preludeEvents p l := by
  unfold preludeEvents
  split <;> simp [updatePart_not_mem_ensureEvents, updatePart_not_mem_fillTable, updatePart_not_mem_bothFills]

theorem updatePart_not_mem_monoLead (p : Panel) (l : Life) : .seq .updatePart ∉ monoLead p l := by
  simp [monoLead, updatePart_not_mem_preludeEvents, updatePart_not_mem_monoTable]

theorem updatePart_not_mem_greyLead (p : Panel) (l : Life) : .seq .updatePart ∉ greyLead p l := by
  simp [greyLead, updatePart_not_mem_preludeEvents]

theorem updatePart_not_mem_againEvents (p : Panel) (l : Life) (q : Plane) (r : Rect) (bytes : List Byte) :
    .seq .updatePart ∉ againEvents p l (planeStream q r bytes) := by
  unfold againEvents
  split <;> simp [updatePart_not_mem_monoTable, updatePart_not_mem_planeStream]

theorem updatePart_not_mem_fullTable (p : Panel) (m : Mode) :
    .seq .updatePart ∉ (fullTable p m).1 ∧ .seq .updatePart ∉ (fullTable p m).2.1 := by cases m <;> simp [fullTable]

/-! The refreshes. -/

/-- What `RefreshFull` ends with is a full refresh (R190). -/
theorem fullRefreshIn_fullTable (p : Panel) (m : Mode) : fullRefreshIn p (fullTable p m).2.1 := by
  cases m with
  | greyRefresh => exact .inr (List.infix_refl _)
  | fullRefresh | fastRefresh | forcedFullRefresh => exact .inl (List.infix_refl _)

theorem fullFirst_fullEvents (p : Panel) (l : Life) (r : Bool) : FullFirst p (fullEvents p l) r false where
  cleared := fun _ => .inr ((fullRefreshIn_fullTable p l.mode).mono (List.suffix_append _ _).isInfix)
  partials := fun before after e => by
    have h : .seq .updatePart ∈ fullEvents p l := by rw [e]; simp
    simp [fullEvents, updatePart_not_mem_ensureEvents, updatePart_not_mem_powerEvents, updatePart_not_mem_fullTable] at h

/-- A partial update is never the first refresh: that one is redirected (R191). -/
theorem fullFirst_refreshEvents (p : Panel) (l : Life) (q : Rect) :
    FullFirst p (refreshEvents p l q) l.initialRefresh (refreshLife p l q).initialRefresh := by
  unfold refreshEvents refreshLife
  split
  · exact fullFirst_fullEvents p l _
  · rename_i hred
    have hr : l.initialRefresh = false := by simp only [redirectDue, Bool.not_eq_true, Bool.or_eq_false_iff] at hred; exact hred.1
    rw [hr]
    exact .of_refreshed _ _

/-- Every command keeps the order. -/
theorem Shape.fullFirst (h : Shape p l evs d m) : FullFirst p evs l.initialRefresh m.initialRefresh := by
  cases h with
  | nothing d => exact .of_not_mem (by simp) _
  | mono r bytes hb => exact .of_not_mem (by simp [updatePart_not_mem_monoLead, updatePart_not_mem_planeStream]) l.initialRefresh
  | grey r cur prev => exact .of_not_mem (by simp [updatePart_not_mem_greyLead, updatePart_not_mem_planeStream]) l.initialRefresh
  | monoDraw r q first second =>
    have hlead : FullFirst p (monoLead p l ++ planeStream .cur r first) l.initialRefresh (monoLife l).initialRefresh :=
      .of_not_mem (by simp [updatePart_not_mem_monoLead, updatePart_not_mem_planeStream]) _
    refine (hlead.append (fullFirst_refreshEvents p (monoLife l) q)).append ?_
    rw [show (againLife p (refreshLife p (monoLife l) q)).initialRefresh = (refreshLife p (monoLife l) q).initialRefresh by
      unfold againLife; split <;> rfl]
    exact .of_not_mem (updatePart_not_mem_againEvents p _ .prev r second) _
  | greyDraw r q cur prev =>
    have hlead : FullFirst p (greyLead p l ++ (planeStream .cur r cur ++ planeStream .prev r prev)) l.initialRefresh
        (greyLife l).initialRefresh :=
      .of_not_mem (by simp [updatePart_not_mem_greyLead, updatePart_not_mem_planeStream]) _
    exact hlead.append (fullFirst_refreshEvents p (greyLife l) q)
  | fill q v w hw =>
    exact .of_not_mem (by simp [updatePart_not_mem_ensureEvents, updatePart_not_mem_fillTable, fillEvents, updatePart_not_mem_planeStream]) _
  | clrs v =>
    refine FullFirst.append (r' := l.initialRefresh) (.of_not_mem ?_ _) (fullFirst_fullEvents p _ _)
    simp [updatePart_not_mem_ensureEvents, updatePart_not_mem_fillTable, updatePart_not_mem_bothFills]
  | full => exact fullFirst_fullEvents p l _
  | rect q => exact fullFirst_refreshEvents p l q
  | off =>
    rw [(powerOffLife_keeps p l).2.2.2]
    exact .of_not_mem (updatePart_not_mem_powerOffEvents l) _
  | sleep h hr => exact .of_not_mem (by simp [updatePart_not_mem_powerOffEvents]) l.initialRefresh

/-- The two halves of the claim about a trace say that its events take `initial_refresh` from its reset value 1 to what it is. -/
theorem fullFirst_iff {tr : List Event} {r : Bool} :
    FullFirst p tr true r ↔ (r = false → fullRefreshIn p tr) ∧ PartialAfterFull p tr :=
  ⟨fun ⟨hr, hp⟩ => ⟨by simpa using hr, by simpa [PartialAfterFull] using hp⟩,
    fun ⟨hr, hp⟩ => ⟨fun e => .inr (hr e), fun b a e => .inr (hp b a e)⟩⟩

/-- Settles O59: the trace so far and the events of a command compose. -/
theorem fullRefreshComesFirst : Obligations.FullRefreshComesFirst := fun s t hc hr hp h => by
  refine fullFirst_iff.mp (step_keeps (P := fun s => FullFirst s.panel s.trace true s.initialRefresh) ?_ ?_ ?_ hc
    (fullFirst_iff.mpr ⟨hr, hp⟩) h)
  · intro s t h k
    rw [h.panel, h.trace, show t.initialRefresh = s.initialRefresh from congrArg Life.initialRefresh h.life]
    exact k
  · rintro s t - - ⟨evs, d, hd, hsh⟩ k
    rw [hd.host.panel, hd.trace]
    exact k.append hsh.fullFirst
  · exact fun b v => .of_not_mem (by simp [blockReset, State.resetFor]) true

/-! ### The reset state -/

/-- Settles O60: at reset the trace is empty and the controller is at its power-up state, so each invariant is read off the reset values. -/
theorem resetMeetsInvariants : Obligations.ResetMeetsInvariants := fun p hp =>
  ⟨resetFor_coherent p, rfl, reset_memoriesOk p, hp, rfl, ⟨⟨none, false⟩, rfl, rfl, nofun⟩, fun _ => ⟨rfl, rfl, nofun⟩, nofun,
    fun before after e => by simp [State.resetFor] at e⟩

end Sys2Proof.Machine
end

section
/-! PROOF. What no command changes (O42), and what the host sees of the block between commands: the register map (O6), `STATUS` (O7), `DIAG` (O8),
the operand registers (O9), accesses while `BUSY = 1` (O10), the reset state (O14). -/

namespace Sys2Proof.Machine

variable {i : Instr} {s t : State}

/-! ### What no command changes -/

/-- A command in any state: it is reserved on a block with one plane (R172), or it does what a list of events does. -/
theorem exec_traced (e : exec i s = .next t) :
    ((i.isFourGrey && !s.panel.hasPrev) = true ∧ t = setIllegal s) ∨ ((i.isFourGrey && !s.panel.hasPrev) = false ∧ Traced s t) := by
  by_cases hp : i.isFourGrey = true ∧ s.panel.hasPrev = false
  · exact .inl ⟨by simp [hp], Host.Outcome.next.inj (e.symm.trans (exec_illegal hp))⟩
  · exact .inr ⟨by simpa using hp, traced_exec e hp⟩

theorem sameHostSide_setIllegal (s : State) : SameHostSide s (setIllegal s) := by constructor <;> rfl

/-- Without a `Wait` no answer is taken and `TIMEOUT` stays (R53, R214). -/
theorem Waited.unwaited (h : Waited 0 s t) : t.diag.timeout = s.diag.timeout ∧ t.answers = s.answers := by
  obtain ⟨ha, -, ht⟩ := h.listed (Nat.zero_le _)
  exact ⟨by simpa using ht, ha⟩

/-- Settles O42: the frame of a run of events, and of `setIllegal` for a reserved 4G command. -/
theorem commandFrame : Obligations.CommandFrame := by
  intro i s t e
  rcases exec_traced e with ⟨h4, rfl⟩ | ⟨h4, ht⟩
  · exact ⟨sameHostSide_setIllegal s, fun sp a => by rw [(sameHostSide_setIllegal s).memory], ⟨[], by simp, by simp, fun _ => ⟨rfl, rfl⟩⟩,
      rfl, by simp [h4], id, id, id, id⟩
  · obtain ⟨evs, d, hd⟩ := ht.did
    exact ⟨hd.host, fun sp a => by rw [hd.host.memory], ⟨evs, hd.trace, hd.count, fun h0 => (h0 ▸ hd.waits).unwaited⟩,
      hd.waits.busyWr, by simp [h4, hd.waits.illegal], fun h => by simp [hd.drop, h], hd.waits.sticky, ht.write, ht.refresh⟩

theorem exec_host (e : exec i s = .next t) : SameHostSide s t := by
  obtain ⟨host, -⟩ := commandFrame i s t e
  exact host

theorem exec_busyWr (e : exec i s = .next t) : t.diag.busyWr = s.diag.busyWr := by
  obtain ⟨-, -, -, busyWr, -⟩ := commandFrame i s t e
  exact busyWr

/-! ### The bits of `STATUS` and `DIAG` -/

theorem getLsbD_bitAt (n k : Nat) (b : Bool) : (bitAt n b).getLsbD k = (b && decide (n < 32) && decide (n = k)) := by
  cases b <;> simp [bitAt, BitVec.getLsbD_twoPow]

theorem statusWord_getLsbD (s : State) (k : Nat) : (statusWord s).getLsbD k =
    ((s.busy && decide (0 = k)) || (decide (k < 32) && !decide (k < 1) && s.mode.code.getLsbD (k - 1)) || (s.powerIsOn && decide (3 = k)) ||
      (s.hibernating && decide (4 = k)) || (s.initialWrite && decide (5 = k)) || (s.initialRefresh && decide (6 = k)) ||
      (s.initDone && decide (7 = k))) := by
  simp only [statusWord, BitVec.getLsbD_or, getLsbD_bitAt, BitVec.getLsbD_shiftLeft, BitVec.getLsbD_setWidth]
  by_cases hk : k < 32
  · simp [hk, show k - 1 < 32 by omega]
  · simp [hk]

/-- `STATUS` has its fields at their bits and zeros above (R16). -/
theorem statusWord_bits (s : State) :
    (statusWord s).getLsbD 0 = s.busy ∧ (statusWord s).extractLsb' 1 2 = s.mode.code ∧ (statusWord s).getLsbD 3 = s.powerIsOn ∧
    (statusWord s).getLsbD 4 = s.hibernating ∧ (statusWord s).getLsbD 5 = s.initialWrite ∧
    (statusWord s).getLsbD 6 = s.initialRefresh ∧ (statusWord s).getLsbD 7 = s.initDone ∧
    ∀ n, 8 ≤ n → (statusWord s).getLsbD n = false := by
  have code_high (k : Nat) (hk : 2 ≤ k) : s.mode.code.getLsbD k = false := BitVec.getLsbD_of_ge _ _ hk
  have high (k : Nat) (hk : 3 ≤ k) : (statusWord s).getLsbD k = ((s.powerIsOn && decide (3 = k)) || (s.hibernating && decide (4 = k)) ||
      (s.initialWrite && decide (5 = k)) || (s.initialRefresh && decide (6 = k)) || (s.initDone && decide (7 = k))) := by
    simp [statusWord_getLsbD, code_high (k - 1) (by omega), show 0 ≠ k by omega]
  refine ⟨?_, ?_, (high 3 (by decide)).trans (by simp), (high 4 (by decide)).trans (by simp), (high 5 (by decide)).trans (by simp),
    (high 6 (by decide)).trans (by simp), (high 7 (by decide)).trans (by simp), fun n hn => ?_⟩
  · rw [statusWord_getLsbD]; simp
  · refine BitVec.eq_of_getLsbD_eq fun k hk => ?_
    rw [BitVec.getLsbD_extractLsb', statusWord_getLsbD]
    obtain rfl | rfl : k = 0 ∨ k = 1 := by omega
    · simp
    · simp
  · rw [high n (by omega)]
    simp [show 3 ≠ n by omega, show 4 ≠ n by omega, show 5 ≠ n by omega, show 6 ≠ n by omega, show 7 ≠ n by omega]

theorem Diag.word_getLsbD (d : Diag) (k : Nat) :
    d.word.getLsbD k = ((d.drop && decide (0 = k)) || (d.timeout && decide (1 = k)) || (d.illegal && decide (2 = k)) ||
      (d.busyWr && decide (3 = k))) := by
  simp [Diag.word, BitVec.getLsbD_or, getLsbD_bitAt]

/-- `DIAG` has its flags at their bits and zeros above (R17). -/
theorem Diag.word_bits (d : Diag) : d.word.getLsbD 0 = d.drop ∧ d.word.getLsbD 1 = d.timeout ∧ d.word.getLsbD 2 = d.illegal ∧
    d.word.getLsbD 3 = d.busyWr ∧ ∀ n, 4 ≤ n → d.word.getLsbD n = false := by
  refine ⟨(d.word_getLsbD 0).trans (by simp), (d.word_getLsbD 1).trans (by simp), (d.word_getLsbD 2).trans (by simp),
    (d.word_getLsbD 3).trans (by simp), fun n hn => (d.word_getLsbD n).trans ?_⟩
  simp [show 0 ≠ n by omega, show 1 ≠ n by omega, show 2 ≠ n by omega, show 3 ≠ n by omega]

/-- A 1 written to `DIAG` clears its bit (R17). -/
theorem Diag.word_clear (d : Diag) (v : Word) : (d.clear v).word = d.word &&& ~~~v := by
  refine BitVec.eq_of_getLsbD_eq fun k hk => ?_
  rw [BitVec.getLsbD_and, BitVec.getLsbD_not, Diag.word_getLsbD, Diag.word_getLsbD]
  by_cases h : k < 4
  · interval_cases k <;> simp [Diag.clear]
  · simp [show 0 ≠ k by omega, show 1 ≠ k by omega, show 2 ≠ k by omega, show 3 ≠ k by omega]

/-! ### The operand registers -/

/-- The two halves of a word, put together again (R11). -/
theorem packHalves_halves (v : Word) : packHalves (hiHalf v) (loHalf v) = v := by
  rw [packHalves, hiHalf, loHalf, BitVec.extractLsb'_append_extractLsb'_eq_extractLsb' (by decide)]
  simp

theorem regOfWord_reserved : ∀ {n : Nat}, 9 ≤ n → regOfWord n = .reserved
  | _ + 9, _ => rfl

theorem regOfWord_eq_status {n : Nat} : regOfWord n = .status ↔ n = 1 := by
  unfold regOfWord; split <;> simp_all

/-! ### One host access -/

/-- A read returns the register and changes nothing else (R14, R46). -/
theorem step_read (s : State) (n : Nat) (rest : List HostAction) :
    step { s with hostq := .read n :: rest } = .next { s with hostq := rest, rdata := readReg (regOfWord n) s } := by
  have h : ∀ r, readReg r { s with hostq := rest } = readReg r s := by intro r; cases r <;> rfl
  simp only [step, hostStep, h]

/-- A write of another register than `CMD` while `BUSY = 0`. -/
theorem step_write (hb : s.busy = false) {n : Nat} (hn : 1 ≤ n) (v : Word) (rest : List HostAction) :
    step { s with hostq := .write n v [] :: rest } = .next (writeReg (regOfWord n) v { s with hostq := rest }) := by
  have hr : regOfWord n ≠ .cmd := by unfold regOfWord; split <;> simp at hn ⊢
  simp only [step, hostStep, hostWrite, hb, Bool.false_eq_true, ↓reduceIte]
  rfl

/-- A write while `BUSY = 1`. -/
theorem step_writeBusy (hb : s.busy = true) (n : Nat) (v : Word) (rest : List HostAction) :
    step { s with hostq := .write n v [] :: rest } = .next (writeBusy (regOfWord n) { s with hostq := rest }) := by
  simp only [step, hostStep, hostWrite, hb, ↓reduceIte]
  rfl

/-- A write of `CMD` while `BUSY = 0`. -/
theorem step_writeCmd (hb : s.busy = false) (v : Word) (during : List Overlap) (rest : List HostAction) :
    step { s with hostq := .write 0 v during :: rest } = writeCmd v during { s with hostq := rest } := by
  simp [step, hostStep, hostWrite, hb, regOfWord]

/-- `STATUS` is 0x60 after reset: the two first-time flags (R16, R29). -/
theorem statusWord_resetFor (p : Panel) : statusWord (State.resetFor p) = 0x00000060#32 := by
  simp only [statusWord, State.resetFor, Mode.code]
  decide

/-- Every other register is 0 after reset (R29). -/
theorem readReg_resetFor (p : Panel) {r : HostReg} (h : r ≠ .status) : readReg r (State.resetFor p) = 0#32 := by
  cases r with
  | status => exact absurd rfl h
  | cmd | src | xferCnt | reserved => rfl
  | diag => simp [readReg, State.resetFor, Diag.word, bitAt]
  | xy | wh | pxy | bwh => simp [readReg, State.resetFor, packHalves]

/-- Settles O7: the bits of the view, a read, an ignored write, and the reset values. -/
theorem statusIsLiveView : Obligations.StatusIsLiveView :=
  ⟨statusWord_bits, fun s rest => step_read s 1 rest, fun _ v rest hb => step_write hb (le_refl 1) v rest, ⟨rfl, rfl, rfl, rfl⟩, statusWord_resetFor⟩

/-- Settles O8: the flags are read bit by bit, and clearing them is `AND NOT` on the word. -/
theorem diagWriteOneClears : Obligations.DiagWriteOneClears :=
  ⟨Diag.word_bits, fun s v rest hb => ⟨s.diag.clear v, step_write hb (by decide) v rest, s.diag.word_clear v⟩⟩

/-- Settles O9: each write is `writeReg`, and two halves put together are the word. -/
theorem operandRegistersHoldAnyWord : Obligations.OperandRegistersHoldAnyWord := fun _ v rest hb =>
  ⟨step_write hb (by decide) v rest, step_write hb (by decide) v rest, step_write hb (by decide) v rest, step_write hb (by decide) v rest,
    step_write hb (by decide) v rest, rfl, packHalves_halves v, packHalves_halves v, packHalves_halves v, packHalves_halves v⟩

/-- The nine registers are the words 0 to 8; of a write while `BUSY = 1` they leave `BUSYWR` set (R14, R216; log 22). -/
theorem writeBusy_eq (n : Nat) (s : State) :
    writeBusy (regOfWord n) s = { s with diag := { s.diag with busyWr := s.diag.busyWr || decide (n ≤ 8) } } := by
  by_cases hn : n ≤ 8
  · interval_cases n <;> simp [regOfWord, writeBusy, setBusyWr]
  · simp [regOfWord_reserved (show 9 ≤ n by omega), writeBusy, hn]

/-- Settles O10: of the nine registers, `writeBusy` sets `BUSYWR` alone. -/
theorem busyWriteOnlySetsFlag : Obligations.BusyWriteOnlySetsFlag := fun s n v rest hb hn =>
  ⟨by rw [step_writeBusy hb, writeBusy_eq]; simp [hn], step_read s n rest⟩

/-- Settles O14: the reset values are those of the table, and no byte of a controller at power-up is known. -/
theorem resetState : Obligations.ResetState := fun _ =>
  ⟨rfl, rfl, rfl, rfl, rfl, rfl, rfl, rfl, rfl, rfl, rfl, rfl, rfl, rfl, rfl, rfl, rfl, rfl, rfl, rfl, rfl, fun q k => powerUp_byteAt 0 q k, rfl⟩

/-- An operand register reads back as it was written (R19). -/
theorem readReg_writeReg_operand {n : Nat} (h3 : 3 ≤ n) (h7 : n ≤ 7) (v : Word) (s : State) :
    readReg (regOfWord n) (writeReg (regOfWord n) v s) = v := by
  interval_cases n
  · rfl
  all_goals exact packHalves_halves v

/-- A write of `CMD` stores the word, whatever it then launches (R15, R78). -/
theorem writeCmd_cmd {v : Word} (h : writeCmd v [] s = .next t) : t.cmd = v := by
  unfold writeCmd at h
  split at h
  · obtain ⟨u, he, hu⟩ := next_of_andThen h
    obtain rfl := Host.Outcome.next.inj hu
    exact (exec_host he).cmd
  · obtain rfl := Host.Outcome.next.inj h
    rfl

/-- Settles O6: reads and writes go through `readReg` and `writeReg` by word index; a `CMD` write also runs its command, which leaves `CMD` alone. -/
theorem registerMap : Obligations.RegisterMap := by
  refine ⟨fun s n rest => ?_, fun s n v rest hb hn => ?_, fun s n v rest hb h3 h7 => ?_, fun s v rest hb => ?_, fun s t v rest hb h => ?_,
    fun p n => ?_⟩
  · refine ⟨readReg (regOfWord n) s, step_read s n rest, ?_, ?_, ?_, ?_, ?_, ?_, ?_, ?_, ?_,
      fun h9 => by rw [regOfWord_reserved h9]; rfl⟩ <;> (rintro rfl; rfl)
  · rw [step_write hb (by omega)]
    rcases hn with rfl | h8
    · rfl
    · obtain rfl | h9 := h8.eq_or_lt
      · rfl
      · rw [regOfWord_reserved h9]; rfl
  · exact ⟨_, step_write hb (by omega) v rest, readReg_writeReg_operand h3 h7 v _⟩
  · exact ⟨_, step_write hb (by decide) v rest, s.diag.word_clear v⟩
  · exact writeCmd_cmd ((step_writeCmd hb v [] rest).symm.trans h)
  · split
    · rename_i hn; subst hn; exact statusWord_resetFor p
    · rename_i hn; exact readReg_resetFor p (mt regOfWord_eq_status.mp hn)

end Sys2Proof.Machine
end

section
/-! PROOF. The host's accesses while a command runs (O11), and the moments of a command at which its reads fall (O12). -/

namespace Sys2Proof.Machine

variable {i : Instr} {s t : State} {ms : List Live}

/-! ### What the accesses of a busy period change -/

theorem hostStore_rdata (st : HostStore) (s : State) : (hostStore st s).rdata = s.rdata := by unfold hostStore; split <;> rfl

/-- A store changes the memories alone, whatever else the state holds. -/
theorem hostStore_memory {s s' : State} (h : ∀ sp, s.memory sp = s'.memory sp) (st : HostStore) (sp : Space) :
    (hostStore st s).memory sp = (hostStore st s').memory sp := by
  obtain ⟨d, a, b⟩ := st
  have hram : s.ram = s'.ram := h .ram
  have hpgm : s.pgm = s'.pgm := h .pgm
  cases d <;> cases sp <;> simp [hostStore, State.memory, hram, hpgm]

/-- Accesses set `BUSYWR` where they write a register; besides they change memories, the value read and the counter of free draws (R31, R60,
R216). -/
theorem busyAccesses_eq (ms : List Live) (during : List Overlap) (s : State) : ∃ ram pgm rdata draws,
    busyAccesses ms during s =
      { s with
        diag := { s.diag with busyWr := s.diag.busyWr || during.any Overlap.writesRegister }
        ram := ram, pgm := pgm, rdata := rdata, draws := draws } := by
  induction during generalizing ms s with
  | nil => exact ⟨s.ram, s.pgm, s.rdata, s.draws, by simp [busyAccesses]⟩
  | cons o l ih =>
    cases o with
    | write n v =>
      obtain ⟨ram, pgm, rdata, draws, e⟩ := ih ms (writeBusy (regOfWord n) s)
      refine ⟨ram, pgm, rdata, draws, ?_⟩
      rw [busyAccesses, e, writeBusy_eq]
      simp [Overlap.writesRegister, Bool.or_assoc]
    | read n =>
      obtain ⟨ram, pgm, rdata, draws, e⟩ := ih (runOn s ms)
        { s with rdata := readReg (regOfWord n) (s.at ((runOn s ms).headD s.live)), draws := s.draws + 1 }
      exact ⟨ram, pgm, rdata, draws, by rw [busyAccesses, e]; simp [Overlap.writesRegister]⟩
    | store st =>
      obtain ⟨ram, pgm, rdata, draws, e⟩ := ih ms (hostStore st s)
      refine ⟨ram, pgm, rdata, draws, ?_⟩
      rw [busyAccesses, e, hostStore]
      split <;> simp [Overlap.writesRegister]

/-- The memories after a busy period are those that the stores alone leave, in their order (R60; log 9). -/
theorem busyAccesses_memory (during : List Overlap) {s s' : State} (h : ∀ sp, s.memory sp = s'.memory sp) (ms : List Live) (sp : Space) :
    (busyAccesses ms during s).memory sp = ((storesOf during).foldl (fun v st => hostStore st v) s').memory sp := by
  induction during generalizing ms s s' with
  | nil => exact h sp
  | cons o l ih =>
    cases o with
    | write n v => exact ih (fun sp => by rw [writeBusy_eq]; exact h sp) ms
    | read n => exact ih (s := { s with rdata := readReg (regOfWord n) (s.at ((runOn s ms).headD s.live)), draws := s.draws + 1 }) h _
    | store st => exact ih (hostStore_memory h st) ms

/-- Without a read the value last read stays. -/
theorem busyAccesses_rdata {during : List Overlap} (h : ∀ o ∈ during, ∀ n, o ≠ .read n) (ms : List Live) (s : State) :
    (busyAccesses ms during s).rdata = s.rdata := by
  induction during generalizing s with
  | nil => rfl
  | cons o l ih =>
    have hl : ∀ o ∈ l, ∀ n, o ≠ .read n := fun o ho => h o (by simp [ho])
    cases o with
    | write n v => exact (ih hl _).trans (by rw [writeBusy_eq])
    | read n => exact absurd rfl (h (.read n) (by simp) n)
    | store st => exact (ih hl _).trans (hostStore_rdata st s)

/-- The state after a read that falls on moment `v`. -/
def State.afterRead (n : Nat) (v : Live) (s : State) : State :=
  { s with rdata := readReg (regOfWord n) (s.at v), draws := s.draws + 1 }

/-- A read after the accesses `a` falls on one of the moments, and what comes after it finds the moments from that one on (log 8). -/
theorem busyAccesses_read (h : ms ≠ []) (a : List Overlap) (n : Nat) (s : State) :
    ∃ (j : Nat) (hj : j < ms.length), ∀ b,
      busyAccesses ms (a ++ .read n :: b) s = busyAccesses (ms.drop j) b ((busyAccesses ms a s).afterRead n ms[j]) := by
  obtain ⟨j, hj, ha⟩ := busyAccesses_append h a s
  obtain ⟨k, hk, hr⟩ := runOn_eq (ms := ms.drop j) (by simpa using hj) (busyAccesses ms a s)
  rw [List.length_drop] at hk
  have hjk : j + k < ms.length := by omega
  have hhead : ((ms.drop j).drop k).headD (busyAccesses ms a s).live = ms[j + k] := by
    rw [List.drop_drop, List.headD_eq_head?_getD, List.head?_drop, List.getElem?_eq_getElem hjk, Option.getD_some]
  refine ⟨j + k, hjk, fun b => ?_⟩
  rw [ha, busyAccesses, hr, hhead, List.drop_drop]
  rfl

/-! ### Overlapping accesses -/

/-- A launched command that goes on ends the step, with the accesses that overlap it (R78). -/
theorem step_runs {w : Word} {during : List Overlap} {rest : List HostAction} (hb : s.busy = false)
    (hd : decodeFor s.panel.hasPrev w = some i) (e : exec i (launched s rest w during) = .next t) :
    step { s with hostq := .write 0 w during :: rest } = .next (endCommand (launched s rest w during).live during t) := by
  have e' : exec i (beginCommand during (storeCmd w { s with hostq := rest })) = .next t := e
  rw [step_writeCmd hb]
  simp only [writeCmd, hd, runCommand, e']
  rfl

/-- The end of a command is its effect and what its accesses add (R31). -/
theorem endCommand_eq (first : Live) (during : List Overlap) (t : State) :
    endCommand first during t =
      { t with
        busy := false
        racing := []
        seen := []
        diag := { t.diag with busyWr := t.diag.busyWr || during.any Overlap.writesRegister }
        ram := (endCommand first during t).ram, pgm := (endCommand first during t).pgm
        rdata := (endCommand first during t).rdata, draws := (endCommand first during t).draws } := by
  obtain ⟨ram, pgm, rdata, draws, e⟩ := busyAccesses_eq (momentsOf first t) during t
  simp only [endCommand, e]

/-- The last read of a busy period falls on a moment of the command, after the accesses before it. -/
theorem endCommand_lastRead (first : Live) {before after : List Overlap} (n : Nat) (h : ∀ o ∈ after, ∀ k, o ≠ .read k) (t : State) :
    ∃ v ∈ momentsOf first t, (endCommand first (before ++ .read n :: after) t).rdata =
      readReg (regOfWord n) ((busyAccesses (momentsOf first t) before t).at v) := by
  obtain ⟨j, hj, hread⟩ := busyAccesses_read (ms := momentsOf first t) (by simp [momentsOf]) before n t
  refine ⟨_, List.getElem_mem hj, ?_⟩
  calc (endCommand first (before ++ .read n :: after) t).rdata
      = (busyAccesses (momentsOf first t) (before ++ .read n :: after) t).rdata := rfl
    _ = _ := by rw [hread, busyAccesses_rdata h]; rfl

/-- Settles O11: the end of a command is its accesses after it; the last read among them falls on one of its moments. -/
theorem overlappingAccesses : Obligations.OverlappingAccesses := by
  intro s t w i during rest hb hd s₀ e
  have host : SameHostSide s₀ t := exec_host e
  have hwr : t.diag.busyWr = s.diag.busyWr := exec_busyWr (s := s₀) e
  refine ⟨_, step_runs hb hd e, endCommand_eq _ during t, busyAccesses_memory during (fun _ => rfl) _,
    fun h => busyAccesses_rdata h _ t, ?_⟩
  rintro before n after rfl hafter
  obtain ⟨v, hv, hread⟩ := endCommand_lastRead s₀.live n hafter t
  obtain ⟨ram, pgm, rdata, draws, hB⟩ := busyAccesses_eq (momentsOf s₀.live t) before t
  rw [hB, hwr] at hread
  refine ⟨v, hv, ?_⟩
  rw [show (endCommand (launched s rest w (before ++ .read n :: after)).live (before ++ .read n :: after) t).rdata = _ from hread]
  refine ⟨?_, ?_, ?_, ?_, ?_, ?_, ?_, ?_, ?_, fun h9 => by rw [regOfWord_reserved h9]; rfl⟩ <;> rintro rfl
  · exact host.cmd
  · have hbits := statusWord_bits (State.at { t with diag := { t.diag with busyWr := s.diag.busyWr || before.any Overlap.writesRegister } } v)
    exact ⟨hbits.1.trans host.busy, hbits.2⟩
  · rfl
  · exact host.src
  · exact congrArg₂ packHalves host.y host.x
  · exact congrArg₂ packHalves host.h host.w
  · exact congrArg₂ packHalves host.yPart host.xPart
  · exact congrArg₂ packHalves host.hBitmap host.wBitmap
  · rfl

/-! ### Two reads in order -/

/-- Of two reads the later one falls on no earlier moment. -/
theorem reads_in_order (h : ms ≠ []) (s : State) (a b : List Overlap) (n k : Nat) :
    ∃ j₁ j₂, j₁ ≤ j₂ ∧ j₂ < ms.length ∧
      (busyAccesses ms (a ++ [.read n]) s).rdata = readReg (regOfWord n) ((busyAccesses ms a s).at (ms.getD j₁ s.live)) ∧
      (busyAccesses ms (a ++ .read n :: (b ++ [.read k])) s).rdata =
        readReg (regOfWord k) ((busyAccesses ms (a ++ .read n :: b) s).at (ms.getD j₂ s.live)) := by
  obtain ⟨j, hj, hfirst⟩ := busyAccesses_read h a n s
  obtain ⟨d, hd, hsecond⟩ := busyAccesses_read (ms := ms.drop j) (by simpa using hj) b k ((busyAccesses ms a s).afterRead n ms[j])
  rw [List.length_drop] at hd
  refine ⟨j, j + d, Nat.le_add_right j d, by omega, ?_, ?_⟩
  · rw [hfirst, List.getD_eq_getElem _ _ hj]
    rfl
  · rw [hfirst, hfirst, hsecond, List.getD_eq_getElem _ _ (by omega), List.getElem_drop]
    rfl

/-! ### The moments of every command -/

theorem passed_fill (q : Plane) (v : Byte) (s : State) : Passed false s (fill q v s) := passed_emitAll _ s

theorem passed_fillPrev (v : Byte) (s : State) : Passed false s (fillPrev v s) := by
  unfold fillPrev; split <;> [exact passed_fill .prev v s; exact .refl s]

theorem passed_fillScreen (v : Byte) (s : State) : Passed false s (fillScreen v s) :=
  ((passed_clearWrite s).trans (passed_modeStepFill _)).trans (passed_fill .cur v _)

theorem passed_initialFill (s : State) : Passed false s (initialFill s) := by
  unfold initialFill
  split <;> [exact (passed_fillScreen s.panel.initFill s).trans (passed_fillPrev _ _); exact .refl s]

theorem passed_streamImage {q : Plane} {g : Geom} {o : Option (List Byte)} (e : streamImage q g o s = .next t) : Passed false s t := by
  cases o with
  | none => cases e
  | some l =>
    obtain rfl := Host.Outcome.next.inj e
    exact passed_emitAll _ s

theorem passed_monoWrite {m : ReadMode} {g : Geom} (e : monoWrite m g s = .next t) : Passed false s t :=
  ((passed_initialFill s).trans (passed_modeStepMono _)).trans (passed_streamImage e)

theorem passed_greyWrite {b : Bpp} {m : ReadMode} {g : Geom} (e : greyWrite b m g s = .next t) : Passed false s t := by
  obtain ⟨u, hcur, hprev⟩ := next_of_andThen e
  exact (((passed_initialFill s).trans (passed_modeStepGrey _)).trans (passed_streamImage hcur)).trans (passed_streamImage hprev)

theorem passed_drawAgain {m : ReadMode} {g : Geom} (e : drawAgain m g s = .next t) : Passed false s t := by
  unfold drawAgain at e
  split at e
  · exact (passed_modeStepMono s).trans (passed_streamImage e)
  · obtain rfl := Host.Outcome.next.inj e
    exact .refl s

theorem passed_monoDraw {m : ReadMode} {g : Geom} (e : monoDraw m g s = .next t) : Passed false s t := by
  obtain ⟨u, hw, hd⟩ := next_of_andThen e
  exact ((passed_monoWrite hw).trans (passed_refreshRect _ _)).trans (passed_drawAgain hd)

theorem passed_greyDraw {b : Bpp} {m : ReadMode} {g : Geom} (e : greyDraw b m g s = .next t) : Passed false s t := by
  obtain ⟨u, hw, hd⟩ := next_of_andThen e
  obtain rfl := Host.Outcome.next.inj hd
  exact (passed_greyWrite hw).trans (passed_refreshRect _ _)

/-- A rectangle command sets `DROP`, or passes through the moments of what it does on its geometry (R96). -/
theorem passed_onGeom {o : Option Geom} {k : Geom → State → Out} (hk : ∀ g, k g s = .next t → Passed false s t)
    (e : onGeom o k s = .next t) : Passed false s t := by
  rcases onGeom_next e with ⟨-, rfl⟩ | ⟨g, -, e⟩
  · exact passed_setDrop s
  · exact hk g e

/-- A 4G command sets `ILLEGAL` on a block with one plane (R172). -/
theorem passed_needsPrev {k : State → Out} (e : needsPrev k s = .next t) (hk : k s = .next t → Passed false s t) : Passed false s t := by
  unfold needsPrev at e
  split at e
  · exact hk e
  · obtain rfl := Host.Outcome.next.inj e
    exact passed_setIllegal s

theorem passed_hiber (e : execHiber s = .next t) : Passed true s t := by
  obtain rfl := Host.Outcome.next.inj e
  split
  · exact .refl s
  · split <;> [exact (passed_powerOffProc s).trans (passed_deepSleep _); exact passed_powerOffProc s]

/-- Every command but `PWROFF` and `HIBER` only goes forward. -/
theorem passed_exec_forward (hp : i ≠ .pwroff) (hh : i ≠ .hiber) (e : exec i s = .next t) : Passed false s t := by
  cases i with
  | clrs v =>
    obtain rfl := Host.Outcome.next.inj e
    exact ((passed_fillScreen v s).trans (passed_fillPrev v _)).trans (passed_refreshFull _)
  | wsb v =>
    obtain rfl := Host.Outcome.next.inj e
    exact passed_fillScreen v s
  | wsba v =>
    obtain rfl := Host.Outcome.next.inj e
    refine (passed_modeStepFill s).trans ?_
    split <;> exact passed_fill _ v _
  | wimg inv mir pgm | wimgp inv mir pgm => exact passed_onGeom (fun _ => passed_monoWrite) e
  | wimg4 b inv mir pgm =>
    unfold exec execWimg4 at e
    exact passed_needsPrev e (passed_onGeom fun _ => passed_greyWrite)
  | wimgp4 b inv mir pgm =>
    unfold exec execWimgp4 at e
    exact passed_needsPrev e (passed_onGeom fun _ => passed_greyWrite)
  | dimg inv mir pgm | dimgp inv mir pgm => exact passed_onGeom (fun _ => passed_monoDraw) e
  | dimg4 b inv mir pgm =>
    unfold exec execDimg4 at e
    exact passed_needsPrev e (passed_onGeom fun _ => passed_greyDraw)
  | dimgp4 b inv mir pgm =>
    unfold exec execDimgp4 at e
    exact passed_needsPrev e (passed_onGeom fun _ => passed_greyDraw)
  | rfsh par =>
    obtain rfl := Host.Outcome.next.inj e
    cases par <;> [exact passed_refreshFull s; exact passed_refreshRect _ s]
  | rfshr =>
    obtain rfl := Host.Outcome.next.inj e
    exact passed_refreshRect _ s
  | pwroff => exact absurd rfl hp
  | hiber => exact absurd rfl hh

/-- Every command passes through its moments in order. -/
theorem passed_exec (e : exec i s = .next t) : Passed (i == .pwroff || i == .hiber) s t := by
  by_cases hp : i = .pwroff
  · subst hp
    obtain rfl := Host.Outcome.next.inj e
    exact passed_powerOffProc s
  · by_cases hh : i = .hiber
    · subst hh
      exact passed_hiber e
    · rw [beq_false_of_ne hp, beq_false_of_ne hh]
      exact passed_exec_forward hp hh e

/-- Settles O12: every command passes through its moments in order, and of two reads the later one falls on no earlier moment. -/
theorem liveReadsFollowTheCommand : Obligations.LiveReadsFollowTheCommand :=
  ⟨fun _ _ _ e => passed_exec e, fun _ s a b n k h => reads_in_order h s a b n k⟩

end Sys2Proof.Machine
end

section
/-! PROOF. The geometry of a write and of a part write: when empty, window, cut-off and source (O20). -/

namespace Sys2Proof.Machine

/-- The common tail of R92 and R93 is the part of the aligned rectangle inside the plane: its first pixel is in both where it is not empty. -/
theorem geomPlace_placed (p : Panel) (x y w h wb hb xs ys : Int) :
    Placed p x y w h wb hb xs ys (geomPlace p x y w h wb hb xs ys) := by
  unfold geomPlace
  simp only
  split
  · rename_i hempty
    exact ⟨⟨fun _ a b => by omega, fun _ => rfl⟩, nofun⟩
  · rename_i hfull
    refine ⟨⟨nofun, fun hnone => ?_⟩, ?_⟩
    · exact absurd ⟨by omega, by omega, by omega, by omega, by omega, by omega, by omega, by omega⟩
        (hnone (max (floor8 x) 0) (max y 0))
    · rintro g ⟨rfl⟩
      exact ⟨fun a b => by simp only; omega, rfl, rfl, rfl, rfl, rfl, rfl⟩

/-- Rounding down to a unit is the one multiple of it within a unit below (R9). -/
theorem floorU_eq {a xs : Int} {u : Nat} (h0 : xs % u = 0) (h1 : xs ≤ a) (h2 : a < xs + u) : floorU a u = xs := by
  have hsub : (a - xs) % u = a - xs := Int.emod_eq_of_lt (by omega) (by omega)
  have hmod : a % u = a - xs := by rw [← hsub, Int.sub_emod, h0, sub_zero, Int.emod_emod]
  rw [floorU, hmod]
  omega

/-- Settles O20: both geometries are `geomPlace`, a part's after its empty cases and with its column rounded down to the unit. -/
theorem writeWindowIsTheAlignedPart : Obligations.WriteWindowIsTheAlignedPart := by
  refine ⟨fun _ => rfl, fun _ _ => rfl, fun p r => geomPlace_placed .., fun p r q b => ⟨fun hnothing => ?_, fun hsome xs h0 h1 h2 => ?_⟩⟩
  · unfold geomPart
    split
    · rfl
    · rw [if_pos (by omega)]
  · unfold geomPart
    rw [if_neg (by omega), if_neg (by omega), floorU_eq h0 h1 h2]
    exact geomPlace_placed ..

end Sys2Proof.Machine
end

section
/-! PROOF. What every step keeps of the trace and of the source memories: the transport protocol (O56), the canonical form (O55). -/

namespace Sys2Proof.Machine

variable {s t : State}

/-- No step changes the panel (R5; log 1). -/
theorem step_panel (h : step s = .next t) : t.panel = s.panel := by
  cases step_to h with
  | idle h _ => exact h.panel
  | command i rest w during u _ _ e r =>
    subst r
    exact (sameEngine_endCommand _ during u).panel.trans (exec_host e).panel
  | reset b v p _ _ r => subst r; exact p

/-- A legal run continues a trace that is a complete run of the protocol (R50 to R54, R59). -/
theorem Legal.protocolOk (h : Legal s t) (hp : PanelOk s.panel) (hs : ProtocolOk s) : ProtocolOk t := by
  obtain ⟨evs, d, hd, hrun, -⟩ := h
  unfold ProtocolOk at hs ⊢
  rw [hd.host.panel, hd.trace, protocolRun_append, hs, hrun hp]

theorem SameEngine.protocolOk (h : SameEngine s t) (hs : ProtocolOk s) : ProtocolOk t := by
  unfold ProtocolOk
  rw [h.panel, h.trace]
  exact hs

/-- Settles O56: a command's events are a legal run, which continues the trace's; block reset leaves the empty trace. -/
theorem protocolKept : Obligations.ProtocolKept := fun s t hp hc hs h =>
  have hpt : PanelOk t.panel := by rw [step_panel h]; exact hp
  have keep : PanelOk t.panel → ProtocolOk t :=
    step_keeps (P := fun s => PanelOk s.panel → ProtocolOk s)
      (fun he hs hp => he.protocolOk (hs (he.panel ▸ hp)))
      (fun _ hleg hsh hs hp => by
        obtain ⟨evs, d, hd, -⟩ := hsh
        rw [hd.host.panel] at hp
        exact hleg.protocolOk hp (hs hp))
      (fun _ _ _ => rfl) hc (fun _ => hs) h
  ⟨hpt, keep hpt⟩

theorem SameHostSide.memoriesOk (h : SameHostSide s t) (hs : MemoriesOk s) : MemoriesOk t := by
  unfold MemoriesOk
  rw [h.ram, h.pgm]
  exact hs

/-- Settles O55: only the host's stores write a source memory, and each keeps its form; a command and block reset write none. -/
theorem memoriesKept : Obligations.MemoriesKept := fun s t hs h => by
  cases step_to h with
  | idle h _ => exact h.memories hs
  | command i rest w during u _ _ e r =>
    subst r
    have hlaunched := (sameEngine_launched s rest w during).memories hs
    exact (sameEngine_endCommand _ during u).memories ((exec_host e).memoriesOk hlaunched)
  | reset b v _ m _ r =>
    obtain ⟨hram, hpgm⟩ := m
    subst r
    exact ⟨hram ▸ hs.1, hpgm ▸ hs.2⟩

end Sys2Proof.Machine
end

section
/-! PROOF. Source bytes: a host store and a later read (O16), and the place of a pixel in a byte (O26). -/

namespace Sys2Proof.Machine

/-! ### Store, then read -/

theorem step_store (s : State) (st : HostStore) (rest : List HostAction) :
    step { s with hostq := .store st :: rest } = .next (hostStore st { s with hostq := rest }) := rfl

/-- A host store changes the two source memories and nothing else (R60). -/
theorem hostStore_eq (st : HostStore) (s : State) :
    hostStore st s = { s with ram := (hostStore st s).ram, pgm := (hostStore st s).pgm } := by
  unfold hostStore; split <;> rfl

/-- Without a racing store a read is the byte listed at an address of the space (R41). -/
theorem memRead_eq_cellGet {s : State} (hr : s.racing = []) (sp : Space) (tag : ReadTag) (a : Int) :
    memRead s sp tag a = if 0 ≤ a ∧ a < 2 ^ 32 then cellGet (s.memory sp) a.toNat else none := by
  unfold memRead
  simp only [racersAt, hr, List.filter_nil, List.map_nil]
  split
  · cases cellGet (s.memory sp) a.toNat <;> rfl
  · rfl

/-- Settles O16: a read gives the byte listed, and a store lists its byte at one address of one space. -/
theorem hostStoreThenRead : Obligations.HostStoreThenRead := by
  intro s st rest hr
  have hquiet : (hostStore st { s with hostq := rest }).racing = [] := by rw [hostStore_eq]; exact hr
  refine ⟨_, step_store s st rest, hostStore_eq st _, fun tag => ?_, fun sp tag a hother => ?_, fun sp tag a hout => ?_⟩
  · have hrange : (0 : Int) ≤ st.addr.toNat ∧ (st.addr.toNat : Int) < 2 ^ 32 := ⟨by omega, by exact_mod_cast st.addr.isLt⟩
    rw [memRead_eq_cellGet hquiet, if_pos hrange, cellGet_hostStore]
    simp
  · rw [memRead_eq_cellGet hquiet, memRead_eq_cellGet hr, cellGet_hostStore]
    by_cases ha : 0 ≤ a ∧ a < 2 ^ 32
    · rw [if_pos ha, if_pos ha, if_neg fun h => hother ⟨h.1, by omega⟩]
      rfl
    · rw [if_neg ha, if_neg ha]
  · rw [memRead_eq_cellGet hquiet, if_neg (by omega)]

/-! ### The leftmost pixel -/

/-- A pixel's value is bits `8 - bpp*(k + 1)` and up of its byte (R43, R115). -/
theorem byteField_testBit (b : Bpp) (byte : Byte) (k j : Nat) :
    (byteField b byte k).testBit j = (decide (j < bppBitsPer b) && byte.getLsbD (8 - bppBitsPer b * (k + 1) + j)) := by
  rw [byteField, Nat.testBit_mod_two_pow, Nat.testBit_shiftRight, BitVec.getLsbD]

/-- Bits pushed in from the right: the last is bit 0, and what was there before is moved up (R118). -/
theorem getLsbD_foldl_packBits (bits : List Bool) (acc : Byte) {j : Nat} (hj : j < 8) :
    (bits.foldl (fun (out : Byte) bit => (out <<< 1) ||| (BitVec.ofBool bit).setWidth 8) acc).getLsbD j =
      if j < bits.length then bits.getD (bits.length - 1 - j) false else acc.getLsbD (j - bits.length) := by
  induction bits generalizing acc with
  | nil => simp
  | cons bit bits ih =>
    rw [List.foldl_cons, ih]
    simp only [List.length_cons]
    rcases lt_trichotomy j bits.length with h | h | h
    · rw [if_pos h, if_pos (by omega), show bits.length + 1 - 1 - j = (bits.length - 1 - j) + 1 by omega, List.getD_cons_succ]
    · subst h
      simp
    · rw [if_neg (by omega), if_neg (by omega)]
      simp [show j - bits.length ≠ 0 by omega, show j - bits.length < 8 by omega,
        show j - (bits.length + 1) = j - bits.length - 1 by omega]
      rfl

/-- Settles O26: a pixel's value is a bit field of its byte, and eight bits are packed by pushing them in from the right. -/
theorem leftmostPixelIsHighest : Obligations.LeftmostPixelIsHighest := by
  refine ⟨fun b byte k j _ hj => ?_, fun b byte k => Nat.mod_lt _ (Nat.two_pow_pos _), fun bits hlen k hk => ?_⟩
  · rw [byteField_testBit, decide_eq_true hj, Bool.true_and]
  · rw [packBits, getLsbD_foldl_packBits bits _ (by omega), hlen, if_pos (by omega)]
    congr 1
    omega

end Sys2Proof.Machine
end

section
/-! PROOF. What a command sends besides pixels: the answers to its `Wait`s (O52), the wake-up before all else (O50), and the refresh and
lifecycle commands, which stream nothing (O44). -/

namespace Sys2Proof.Machine

variable {i : Instr} {p : Panel} {s t : State} {l m : Life} {evs : List Event} {d : Bool}

/-! ### `Wait`s -/

/-- Settles O52: a reserved 4G command waits for nothing; of any other the answers and the loss of the controller are those of `Traced`. -/
theorem timeoutLosesTheController : Obligations.TimeoutLosesTheController := by
  intro i s t e
  rcases exec_traced e with ⟨-, rfl⟩ | ⟨-, ht⟩
  · exact ⟨⟨[], by simp, fun _ => by simp⟩, fun htime hlost => by simp [htime, hlost]⟩
  · obtain ⟨evs, d, hd⟩ := ht.did
    refine ⟨⟨evs, hd.trace, fun hlen => ?_⟩, ht.lost⟩
    obtain ⟨hanswers, -, htime⟩ := hd.waits.listed hlen
    exact ⟨hanswers, htime⟩

/-! ### `Reset` -/

/-- The events take `hibernating` from `b` to `b'`: awake, without a `Reset`; asleep, there are none, or they begin with the one `Reset` and the
full init (R54, R131). -/
structure WakesFirst (evs : List Event) (b b' : Bool) : Prop where
  awake : b = false → .reset ∉ evs
  asleep : b = true → (evs = [] ∧ b' = true) ∨ (b' = false ∧ ∃ rest, evs = .reset :: .seq .initFull :: rest ∧ .reset ∉ rest)

theorem WakesFirst.nil (b : Bool) : WakesFirst [] b b := ⟨by simp, fun h => .inl ⟨rfl, h⟩⟩

/-- After the wake-up anything may follow but a `Reset`. -/
theorem WakesFirst.append {a b : List Event} {h : Bool} (ha : WakesFirst a h false) (hb : .reset ∉ b) : WakesFirst (a ++ b) h false where
  awake := fun e => by simp [ha.awake e, hb]
  asleep := fun e => by
    rcases ha.asleep e with ⟨-, hf⟩ | ⟨-, rest, rfl, hrest⟩
    · cases hf
    · exact .inr ⟨rfl, rest ++ b, rfl, by simp [hrest, hb]⟩

theorem reset_not_mem_of_keepsPlanes (h : ∀ e ∈ evs, e.keepsPlanes = true) : .reset ∉ evs := fun hmem => by
  simpa [Event.keepsPlanes] using h _ hmem

theorem reset_not_mem_planeStream (q : Plane) (r : Rect) (bytes : List Byte) : .reset ∉ planeStream q r bytes := by simp [planeStream]

theorem reset_not_mem_bothFills (p : Panel) (v : Byte) : .reset ∉ bothFills p v := by
  unfold bothFills fillEvents; split <;> simp [reset_not_mem_planeStream]

theorem reset_not_mem_againEvents (q : Plane) (r : Rect) (bytes : List Byte) : .reset ∉ againEvents p l (planeStream q r bytes) := by
  unfold againEvents
  split <;> simp [reset_not_mem_of_keepsPlanes (monoTable_keepsPlanes l.mode), reset_not_mem_planeStream]

/-- `EnsureInit` wakes a sleeping controller, which under (I-b) is not initialised (R27, R131, R136). -/
theorem wakesFirst_ensureEvents (h : LifeOk l) : WakesFirst (ensureEvents l) l.hibernating false where
  awake := fun hb => reset_not_mem_of_keepsPlanes (ensureEvents_keepsPlanes hb)
  asleep := fun hb => .inr ⟨rfl, [], by simp [ensureEvents, hb, (h.2 hb).2], by simp⟩

theorem wakesFirst_preludeEvents (h : LifeOk l) : WakesFirst (preludeEvents p l) l.hibernating false := by
  refine (wakesFirst_ensureEvents h).append ?_
  split <;> simp [reset_not_mem_of_keepsPlanes (fillTable_keepsPlanes l.mode), reset_not_mem_bothFills]

theorem wakesFirst_monoLead (h : LifeOk l) : WakesFirst (monoLead p l) l.hibernating false :=
  (wakesFirst_preludeEvents h).append (reset_not_mem_of_keepsPlanes (monoTable_keepsPlanes _))

theorem wakesFirst_greyLead (h : LifeOk l) : WakesFirst (greyLead p l) l.hibernating false :=
  (wakesFirst_preludeEvents h).append (by simp)

theorem wakesFirst_fullEvents (p : Panel) (h : LifeOk l) : WakesFirst (fullEvents p l) l.hibernating false := by
  obtain ⟨hbefore, hafter⟩ := fullTable_keepsPlanes p l.mode
  exact (((wakesFirst_ensureEvents h).append (reset_not_mem_of_keepsPlanes hbefore)).append
    (reset_not_mem_of_keepsPlanes (powerEvents_keepsPlanes l))).append (reset_not_mem_of_keepsPlanes hafter)

theorem wakesFirst_rectEvents (g : Rect) (h : LifeOk l) : WakesFirst (rectEvents l g) l.hibernating false := by
  obtain ⟨hbefore, hafter⟩ := rectTable_keepsPlanes l.mode
  exact (((wakesFirst_ensureEvents h).append (reset_not_mem_of_keepsPlanes hbefore)).append
    (reset_not_mem_of_keepsPlanes (powerEvents_keepsPlanes l))).append (by simp [reset_not_mem_of_keepsPlanes hafter])

/-- A refresh that drops sends nothing and wakes nothing (R191). -/
theorem wakesFirst_refreshEvents (p : Panel) (q : Rect) (h : LifeOk l) :
    WakesFirst (refreshEvents p l q) l.hibernating (refreshLife p l q).hibernating := by
  unfold refreshEvents refreshLife
  split
  · exact wakesFirst_fullEvents p h
  · split
    · exact .nil _
    · exact wakesFirst_rectEvents _ h

/-- A refresh after a write finds the controller awake. -/
theorem reset_not_mem_refreshEvents (p : Panel) (q : Rect) (h : Ready l) : .reset ∉ refreshEvents p l q :=
  (wakesFirst_refreshEvents p q (lifeOk_of_ready h)).awake h.2

/-- Every command wakes the controller before anything else, or leaves it asleep. -/
theorem Shape.wakesFirst (h : Shape p l evs d m) (hl : LifeOk l) : WakesFirst evs l.hibernating m.hibernating := by
  cases h with
  | nothing d => exact .nil _
  | mono r bytes hb => exact (wakesFirst_monoLead hl).append (reset_not_mem_planeStream _ _ _)
  | grey r cur prev => exact (wakesFirst_greyLead hl).append (by simp [reset_not_mem_planeStream])
  | monoDraw r q first second =>
    rw [(againLife_ready (refreshLife_ready p (monoLife_ready l) q)).2]
    exact (((wakesFirst_monoLead hl).append (reset_not_mem_planeStream _ _ _)).append
      (reset_not_mem_refreshEvents p q (monoLife_ready l))).append (reset_not_mem_againEvents _ _ _)
  | greyDraw r q cur prev =>
    rw [(refreshLife_ready p (greyLife_ready l) q).2]
    exact ((wakesFirst_greyLead hl).append (by simp [reset_not_mem_planeStream])).append
      (reset_not_mem_refreshEvents p q (greyLife_ready l))
  | fill q v w hw =>
    exact ((wakesFirst_ensureEvents hl).append (reset_not_mem_of_keepsPlanes (fillTable_keepsPlanes _))).append
      (reset_not_mem_planeStream _ _ _)
  | clrs v =>
    exact (((wakesFirst_ensureEvents hl).append (reset_not_mem_of_keepsPlanes (fillTable_keepsPlanes _))).append
      (reset_not_mem_bothFills p v)).append ((wakesFirst_fullEvents p (lifeOk_of_ready ⟨rfl, rfl⟩)).awake rfl)
  | full => exact wakesFirst_fullEvents p hl
  | rect q => exact wakesFirst_refreshEvents p q hl
  | off =>
    refine ⟨fun _ => reset_not_mem_of_keepsPlanes (powerOffEvents_keepsPlanes l), fun hb => .inl ⟨?_, ?_⟩⟩
    · simp [powerOffEvents, (hl.2 hb).1]
    · rw [(powerOffLife_keeps p l).2.1, hb]
  | sleep h hr =>
    refine ⟨fun _ => ?_, fun hb => by simp [h] at hb⟩
    simp [reset_not_mem_of_keepsPlanes (powerOffEvents_keepsPlanes l)]

/-- Settles O50: every shape of a command wakes the controller first; a reserved 4G command sends nothing. -/
theorem wakeBeforeAnythingElse : Obligations.WakeBeforeAnythingElse := by
  intro i s t hc e
  rcases exec_engine hc e with hsame | ⟨-, evs, d, hd, hsh⟩
  · have hb : t.hibernating = s.hibernating := congrArg Life.hibernating hsame.life
    exact ⟨[], by simp [hsame.trace], by simp, fun h => .inl ⟨rfl, hb.trans h⟩⟩
  · have hw := hsh.wakesFirst hc.lifeOk
    exact ⟨evs, hd.trace, hw.awake, hw.asleep⟩

/-! ### Refresh and lifecycle commands stream no byte -/

theorem xfers_of_keepsPlanes (h : ∀ e ∈ evs, e.keepsPlanes = true) : evs.countP Event.isXfer = 0 :=
  List.countP_eq_zero.mpr fun e he hx => by
    have := h e he
    cases e <;> simp_all [Event.isXfer, Event.keepsPlanes]

theorem ensureEvents_xfers (l : Life) : (ensureEvents l).countP Event.isXfer = 0 := by
  unfold ensureEvents; split <;> [rfl; (split <;> rfl)]

theorem fullEvents_xfers (p : Panel) (l : Life) : (fullEvents p l).countP Event.isXfer = 0 := by
  obtain ⟨hbefore, hafter⟩ := fullTable_keepsPlanes p l.mode
  simp [fullEvents, ensureEvents_xfers, xfers_of_keepsPlanes hbefore, xfers_of_keepsPlanes (powerEvents_keepsPlanes l),
    xfers_of_keepsPlanes hafter]

theorem rectEvents_xfers (l : Life) (g : Rect) : (rectEvents l g).countP Event.isXfer = 0 := by
  obtain ⟨hbefore, hafter⟩ := rectTable_keepsPlanes l.mode
  simp [rectEvents, ensureEvents_xfers, xfers_of_keepsPlanes hbefore, xfers_of_keepsPlanes (powerEvents_keepsPlanes l),
    xfers_of_keepsPlanes hafter, Event.isXfer]

theorem refreshEvents_xfers (p : Panel) (l : Life) (q : Rect) : (refreshEvents p l q).countP Event.isXfer = 0 := by
  unfold refreshEvents
  split
  · exact fullEvents_xfers p l
  · split
    · rfl
    · exact rectEvents_xfers l _

theorem hiberEvents_xfers (p : Panel) (l : Life) : (hiberEvents p l).countP Event.isXfer = 0 := by
  unfold hiberEvents
  split
  · rfl
  · rw [List.countP_append, xfers_of_keepsPlanes (powerOffEvents_keepsPlanes l)]
    split <;> rfl

theorem refreshLife_initialWrite (p : Panel) (l : Life) (q : Rect) : (refreshLife p l q).initialWrite = l.initialWrite := by
  unfold refreshLife
  split <;> [rfl; (split <;> rfl)]

theorem hiberLife_initialWrite (p : Panel) (l : Life) : (hiberLife p l).initialWrite = l.initialWrite := by
  unfold hiberLife
  split
  · rfl
  · split
    · rfl
    · exact (powerOffLife_keeps p l).2.2.1

/-- `HIBER` that does not put the controller to sleep changes no plane: the panel has no reset line (R201). -/
theorem hiberEvents_keepsPlanes (hb : l.hibernating = false) (hb' : (hiberLife p l).hibernating = false) :
    ∀ e ∈ hiberEvents p l, e.keepsPlanes = true := by
  cases hr : p.hasReset with
  | true => simp [hiberLife, hb, hr] at hb'
  | false => simpa [hiberEvents, hb, hr] using powerOffEvents_keepsPlanes l

/-- Between the two states no byte was streamed, and an awake controller kept both planes (R18, R56, R57). -/
def MovesNoPixels (s t : State) : Prop :=
  t.xferCnt = s.xferCnt ∧ t.initialWrite = s.initialWrite ∧
  (t.ctl.lost = false → s.hibernating = false → t.hibernating = false → SamePlane .cur s.ctl t.ctl ∧ SamePlane .prev s.ctl t.ctl)

/-- A command that completes without an `Xfer`, and without `Reset` or deep sleep where it stays awake, moves no pixel (R18, R56, R57). -/
theorem Completes.movesNoPixels (h : Completes i s evs d l) (e : exec i s = .next t) (hx : evs.countP Event.isXfer = 0)
    (hw : l.initialWrite = s.life.initialWrite)
    (hk : s.life.hibernating = false → l.hibernating = false → ∀ e ∈ evs, e.keepsPlanes = true) : MovesNoPixels s t := by
  obtain ⟨t', e', hd, rfl⟩ := h
  obtain rfl : t' = t := Host.Outcome.next.inj (e'.symm.trans e)
  refine ⟨by simp [hd.count, hx], hw, fun hlost hb hb' => ?_⟩
  obtain ⟨hlost₀, hctl⟩ := hd.planes hlost
  rw [hctl]
  exact ⟨foldl_keepsPlanes evs (hk hb hb') _ hlost₀ .cur, foldl_keepsPlanes evs (hk hb hb') _ hlost₀ .prev⟩

/-- Settles O44: each of the four commands completes by a table without an `Xfer`. -/
theorem refreshMovesNoPixels : Obligations.RefreshMovesNoPixels := by
  intro i s t hc hi e
  have hl := hc.lifeOk
  rcases hi with ⟨par, rfl⟩ | rfl | rfl | rfl
  · cases par with
    | false => exact (completes_rfsh_full hl).movesNoPixels e (fullEvents_xfers _ _) rfl fun hb _ => fullEvents_keepsPlanes hb
    | true =>
      exact (completes_rfsh_part hl).movesNoPixels e (refreshEvents_xfers _ _ _) (refreshLife_initialWrite _ _ _) fun hb _ =>
        refreshEvents_keepsPlanes _ hb
  · exact (completes_rfshr hl).movesNoPixels e (refreshEvents_xfers _ _ _) (refreshLife_initialWrite _ _ _) fun hb _ =>
      refreshEvents_keepsPlanes _ hb
  · exact (completes_pwroff s).movesNoPixels e (xfers_of_keepsPlanes (powerOffEvents_keepsPlanes _))
      (powerOffLife_keeps s.panel s.life).2.2.1 fun _ _ => powerOffEvents_keepsPlanes _
  · exact (completes_hiber s).movesNoPixels e (hiberEvents_xfers _ _) (hiberLife_initialWrite _ _) hiberEvents_keepsPlanes

end Sys2Proof.Machine
end

section
/-! PROOF. Where the bytes of a plane stream land (O45), and those of an image write (O46). -/

namespace Sys2Proof.Machine

variable {p : Panel} {q q' : Plane} {r : Rect} {bytes : List Byte} {c c' c₁ c₂ c₃ : Controller}

/-! ### The bytes of a plane -/

/-- A byte of a controller that is not lost is the known one, or else a free value of its draw (R57; log 12). -/
theorem byteAt_of_not_lost (h : c.lost = false) (q : Plane) (k : Nat) :
    c.byteAt q k = (cellGet (c.plane q) k).getD (Config.planeByte c.epoch q k) := by
  unfold Controller.byteAt
  rw [if_neg (by simp [h])]
  cases cellGet (c.plane q) k <;> rfl

/-- The start of a bracket at the controller: the window and plane are set, the byte counter is 0 (R52, R56). -/
def Controller.opened (c : Controller) (q : Plane) (r : Rect) : Controller := { c with window := r, sel := q, count := 0 }

/-- A plane stream is its `Xfer`s in the window opened for them (R52). -/
theorem foldl_planeStream (hc : c.lost = false) :
    (planeStream q r bytes).foldl (Controller.act p) c = (bytes.map Event.xfer).foldl (Controller.act p) (c.opened q r) := by
  have hopen : (c.act p (.window r)).act p (.planeSel q) = c.opened q r := by simp [Controller.act, Controller.opened, hc]
  have hlost : (c.opened q r).lost = false := hc
  rw [planeStream, List.foldl_cons, List.foldl_cons, hopen, List.foldl_cons, List.foldl_append]
  simp [Controller.act, hlost, foldl_act_lost]

/-- Byte `j` of a stream lands in row `j / (w/8)` and column `j % (w/8)` of the window, and the other plane stays (R52, R56). -/
theorem planeStream_lands (hw : WindowOk p r) (hc : c.lost = false) (hlen : bytes.length = r.h.toNat * (r.w / 8).toNat) :
    let c' := (planeStream q r bytes).foldl (Controller.act p) c
    Lands p q r bytes c c' ∧ ∀ q', q' ≠ q → SamePlane q' c c' := by
  intro c'
  have hwidth : 0 ≤ r.w / 8 := by omega
  have hcols : 0 < (r.w / 8).toNat := by omega
  have hfit : ((0 + bytes.length : Nat) : Int) ≤ r.w / 8 * r.h := by
    rw [Nat.zero_add, hlen, Nat.cast_mul, Int.toNat_of_nonneg hwidth, Int.toNat_of_nonneg (by omega), mul_comm]
  have hin : Inside (c.opened q r) q r 0 := ⟨hc, rfl, rfl, rfl⟩
  have hopened : ∀ k, (c.opened q r).plane k = c.plane k := by intro k; cases k <;> rfl
  obtain ⟨hinside, hepoch, -, -, -, hother, hbyte, hrest⟩ := foldl_xfers hw bytes (c.opened q r) 0 hin hfit
  rw [← foldl_planeStream hc] at hinside hepoch hother hbyte hrest
  have hlost : c'.lost = false := hinside.lost
  have hep : c'.epoch = c.epoch := hepoch
  have hindex : ∀ row col, row < r.h.toNat → col < (r.w / 8).toNat → row * (r.w / 8).toNat + col < bytes.length := by
    intro row col hrow hcol
    calc row * (r.w / 8).toNat + col < (row + 1) * (r.w / 8).toNat := by rw [Nat.succ_mul]; omega
      _ ≤ bytes.length := by rw [hlen]; exact Nat.mul_le_mul_right _ hrow
  refine ⟨⟨fun row col hrow hcol => ?_, fun k hk => ?_⟩, fun q' hq k => ?_⟩
  · have hb := hbyte _ (hindex row col hrow hcol)
    rw [Nat.zero_add, planeIndex_eq hw row col hcol] at hb
    rw [byteAt_of_not_lost hlost, hb]
    rfl
  · rw [byteAt_of_not_lost hlost, byteAt_of_not_lost hc, hep, ← hopened q, hrest k fun j hj => ?_]
    rw [Nat.zero_add, ← Nat.div_add_mod' j (r.w / 8).toNat, planeIndex_eq hw _ _ (Nat.mod_lt _ hcols)]
    refine hk _ _ ?_ (Nat.mod_lt _ hcols)
    rw [Nat.div_lt_iff_lt_mul hcols, ← hlen]
    exact hj
  · rw [byteAt_of_not_lost hlost, byteAt_of_not_lost hc, hep, hother q' hq, hopened]

/-- Settles O45: the bracket opens a window at counter 0, and its `Xfer`s fill it in order. -/
theorem planeStreamLands : Obligations.PlaneStreamLands := fun _ _ _ q' _ _ hw hc hq hlen =>
  have ⟨hlands, hsame⟩ := planeStream_lands hw hc hlen
  ⟨hlands, hsame q' hq⟩

/-! ### An image write -/

theorem SamePlane.trans (h : SamePlane q c₁ c₂) (k : SamePlane q c₂ c₃) : SamePlane q c₁ c₃ := fun n => (k n).trans (h n)

/-- What lands does so whatever left the plane alone before it. -/
theorem SamePlane.lands (h : SamePlane q c₁ c₂) (k : Lands p q r bytes c₂ c₃) : Lands p q r bytes c₁ c₃ :=
  ⟨k.1, fun n hn => (k.2 n hn).trans (h n)⟩

/-- What has landed stays where nothing touches the plane after it. -/
theorem Lands.same (h : Lands p q r bytes c₁ c₂) (k : SamePlane q c₂ c₃) : Lands p q r bytes c₁ c₃ :=
  ⟨fun row col hr hc => (k _).trans (h.1 row col hr hc), fun n hn => (k n).trans (h.2 n hn)⟩

variable {s t : State} {l : Life} {m : ReadMode} {b : Bpp} {g : Geom}

/-- Awake and after the first write, a mono write begins with nothing but an init (R138, R140). -/
theorem monoLead_keepsPlanes (hb : l.hibernating = false) (hw : l.initialWrite = false) : ∀ e ∈ monoLead p l, e.keepsPlanes = true := by
  simp only [monoLead, preludeEvents, hw, Bool.false_eq_true, ↓reduceIte, List.append_nil, List.mem_append]
  rintro e (he | he)
  · exact ensureEvents_keepsPlanes hb e he
  · exact monoTable_keepsPlanes _ e he

/-- A 4G write likewise (R139, R140). -/
theorem greyLead_keepsPlanes (hb : l.hibernating = false) (hw : l.initialWrite = false) : ∀ e ∈ greyLead p l, e.keepsPlanes = true := by
  simp only [greyLead, preludeEvents, hw, Bool.false_eq_true, ↓reduceIte, List.append_nil, List.mem_append, List.mem_singleton]
  rintro e (he | rfl)
  · exact ensureEvents_keepsPlanes hb e he
  · rfl

/-- Without a `Wait` the controller has taken the events: those of `lead`, which touch no plane, then those of `rest` (R56, R58(d)). -/
theorem Did.ctl_of_lead {lead rest : List Event} {d : Bool} (h : Did (lead ++ rest) d s t) (hc : s.ctl.lost = false)
    (hk : ∀ e ∈ lead, e.keepsPlanes = true) (hl : lead.countP Event.isWait = 0) (hr : rest.countP Event.isWait = 0) :
    ∃ c, c.lost = false ∧ (∀ q, SamePlane q s.ctl c) ∧ t.ctl = rest.foldl (Controller.act s.panel) c :=
  ⟨lead.foldl (Controller.act s.panel) s.ctl, by simpa using hc, foldl_keepsPlanes lead hk s.ctl hc,
    by rw [h.unwaited (by simp [hl, hr]), List.foldl_append]⟩

/-! No `Wait` comes before a stream (R160). -/

theorem fillTable_waits (m : Mode) : (fillTable m).1.countP Event.isWait = 0 := by cases m <;> rfl

theorem monoTable_waits (m : Mode) : (monoTable m).1.countP Event.isWait = 0 := by cases m <;> rfl

theorem bothFills_waits (p : Panel) (v : Byte) : (bothFills p v).countP Event.isWait = 0 := by unfold bothFills; split <;> simp

theorem preludeEvents_waits (p : Panel) (l : Life) : (preludeEvents p l).countP Event.isWait = 0 := by
  unfold preludeEvents
  split <;> simp [ensureEvents_waits, fillTable_waits, bothFills_waits]

theorem monoLead_waits (p : Panel) (l : Life) : (monoLead p l).countP Event.isWait = 0 := by
  simp [monoLead, preludeEvents_waits, monoTable_waits]

theorem greyLead_waits (p : Panel) (l : Life) : (greyLead p l).countP Event.isWait = 0 := by
  simp [greyLead, preludeEvents_waits, Event.isWait]

/-- A stream of an image is as long as its window (R110). -/
theorem stream_length (h : bytes.length = (g.w1 / 8).toNat * g.h1.toNat) : bytes.length = g.rect.h.toNat * (g.rect.w / 8).toNat := by
  rw [h, Nat.mul_comm]; rfl

/-- Where a mono write puts its bytes (R56, R165, R166). -/
theorem monoWrite_lands (hl : LifeOk s.life) (hb : s.hibernating = false) (hw : s.initialWrite = false) (hc : s.ctl.lost = false)
    (hr : s.racing = []) (hcol : (g.xs + g.dx) % 8 = 0) (hg : WindowOk s.panel g.rect) (e : monoWrite m g s = .next t) :
    Lands s.panel .cur g.rect (monoPixels s m g) s.ctl t.ctl ∧ SamePlane .prev s.ctl t.ctl := by
  rcases monoWrite_cases hcol (geom_width hg).1 hl (m := m) with ⟨-, bytes, t', hstream, e', hd, -⟩ | ⟨-, e'⟩
  · obtain rfl : t' = t := Host.Outcome.next.inj (e'.symm.trans e)
    obtain ⟨c, hlost, hsame, hctl⟩ := hd.ctl_of_lead hc (monoLead_keepsPlanes hb hw) (monoLead_waits _ _) (by simp)
    obtain ⟨hlands, hother⟩ := planeStream_lands (q := .cur) hg hlost (stream_length hstream.length)
    rw [hctl, ← hstream.quiet hr]
    exact ⟨(hsame .cur).lands hlands, (hsame .prev).trans (hother .prev (by decide))⟩
  · rw [e] at e'; cases e'

/-- Where a 4G write puts its bytes: the second stream leaves the first plane alone (R56, R167, R168). -/
theorem greyWrite_lands (hl : LifeOk s.life) (hb : s.hibernating = false) (hw : s.initialWrite = false) (hc : s.ctl.lost = false)
    (hr : s.racing = []) (hg : WindowOk s.panel g.rect) (e : greyWrite b m g s = .next t) :
    Lands s.panel .cur g.rect (greyPixels s .cur b m g) s.ctl t.ctl ∧ Lands s.panel .prev g.rect (greyPixels s .prev b m g) s.ctl t.ctl := by
  rcases greyWrite_cases (geom_width hg) hl (b := b) (m := m) with ⟨-, cur, prev, t', hcur, hprev, e', hd, -⟩ | ⟨-, e'⟩
  · obtain rfl : t' = t := Host.Outcome.next.inj (e'.symm.trans e)
    obtain ⟨c, hlost, hsame, hctl⟩ := hd.ctl_of_lead hc (greyLead_keepsPlanes hb hw) (greyLead_waits _ _) (by simp)
    rw [List.foldl_append] at hctl
    obtain ⟨hlands, hother⟩ := planeStream_lands (q := .cur) hg hlost (stream_length hcur.length)
    obtain ⟨hlands', hother'⟩ := planeStream_lands (q := .prev) (c := (planeStream .cur g.rect cur).foldl (Controller.act s.panel) c) hg
      (by simpa using hlost) (stream_length hprev.length)
    rw [hctl, ← hcur.quiet hr, ← hprev.quiet hr]
    exact ⟨((hsame .cur).lands hlands).same (hother' .cur (by decide)), ((hsame .prev).trans (hother .prev (by decide))).lands hlands'⟩
  · rw [e] at e'; cases e'

/-- Settles O46: a write that goes on is its lead, which changes no plane here, and its streams, which land. -/
theorem imageLandsInItsWindow : Obligations.ImageLandsInItsWindow := by
  intro s b inv mir pgm g hcoh hb hw hc hr m
  have hl := hcoh.lifeOk
  refine ⟨fun t i hi e => ?_, fun t i hp hi e => ?_⟩
  · rcases hi with ⟨rfl, hg⟩ | ⟨rfl, hg⟩
    · simp only [exec, execWimg, hg, onGeom] at e
      exact monoWrite_lands hl hb hw hc hr (imageGeom_columns hg) (imageGeom_window hg) e
    · simp only [exec, execWimgp, hg, onGeom] at e
      exact monoWrite_lands hl hb hw hc hr (partGeom_columns hg) (partGeom_window hg) e
  · rcases hi with ⟨rfl, hg⟩ | ⟨rfl, hg⟩
    · simp only [exec, execWimg4, needsPrev, hp, ↓reduceIte, hg, onGeom] at e
      exact greyWrite_lands hl hb hw hc hr (imageGeom_window hg) e
    · simp only [exec, execWimgp4, needsPrev, hp, ↓reduceIte, hg, onGeom] at e
      exact greyWrite_lands hl hb hw hc hr (partGeom_window hg) e

end Sys2Proof.Machine
end

section
/-! PROOF. `PGM` selects the space and nothing else (O49): what reads no source byte is blind to the source memories, and a source read in the
exchanged memories of the other space is the same read. -/

namespace Sys2Proof.Machine

/-! ### Operations that are blind to the source memories -/

/-- The state with other source memories and other racing stores. -/
def State.withSources (s : State) (ram pgm : List Host.Cell) (racing : List HostStore) : State :=
  { s with ram := ram, pgm := pgm, racing := racing }

@[simp] theorem withSources_mode (s : State) (ram pgm : List Host.Cell) (racing : List HostStore) :
    (s.withSources ram pgm racing).mode = s.mode := rfl

@[simp] theorem withSources_panel (s : State) (ram pgm : List Host.Cell) (racing : List HostStore) :
    (s.withSources ram pgm racing).panel = s.panel := rfl

/-- `f` does the same whatever the source memories and the racing stores hold, and leaves them alone. -/
def Blind (f : State → State) : Prop :=
  ∀ s ram pgm racing, f (s.withSources ram pgm racing) = (f s).withSources ram pgm racing

theorem Blind.comp {f k : State → State} (hk : Blind k) (hf : Blind f) : Blind fun s => k (f s) := fun s ram pgm racing =>
  (congrArg k (hf s ram pgm racing)).trans (hk (f s) ram pgm racing)

/-- A choice in which the source memories have no part. -/
theorem Blind.ite {c : State → Bool} {f k : State → State} (hc : ∀ s ram pgm racing, c (s.withSources ram pgm racing) = c s) (hf : Blind f)
    (hk : Blind k) : Blind fun s => if c s then f s else k s := fun s ram pgm racing => by
  simp only [hc]
  split <;> [exact hf ..; exact hk ..]

theorem blind_id : Blind fun s => s := fun _ _ _ _ => rfl

theorem blind_emitAll (evs : List Event) : Blind (emitAll evs) := fun _ _ _ _ => rfl

theorem blind_wait (c : WaitClass) : Blind (wait c) := fun s ram pgm racing => by
  simp only [wait, takeAnswer, emit, emitAll, State.withSources]
  cases s.answers with
  | nil => rfl
  | cons a l => cases a <;> rfl

theorem blind_wake : Blind wake := .ite (c := State.hibernating) (fun _ _ _ _ => rfl) (fun _ _ _ _ => rfl) blind_id

theorem blind_initWith (n : SeqName) (m : Mode) : Blind (initWith n m) :=
  have hsend : Blind fun t => { note { emit (.seq n) t with initDone := true } with mode := m } := fun _ _ _ _ => rfl
  hsend.comp blind_wake

theorem blind_ensureInit : Blind ensureInit := .ite (c := State.initDone) (fun _ _ _ _ => rfl) blind_id (blind_initWith _ _)

theorem blind_modeStepFill : Blind modeStepFill := fun s ram pgm racing => by
  unfold modeStepFill
  simp only [blind_ensureInit s ram pgm racing, withSources_mode]
  cases (ensureInit s).mode with
  | greyRefresh => exact blind_initWith ..
  | fullRefresh | fastRefresh | forcedFullRefresh => rfl

theorem blind_modeStepMono : Blind modeStepMono := fun s ram pgm racing => by
  unfold modeStepMono
  simp only [blind_ensureInit s ram pgm racing, withSources_mode]
  cases (ensureInit s).mode with
  | greyRefresh | fullRefresh => exact blind_initWith ..
  | fastRefresh | forcedFullRefresh => rfl

theorem blind_modeStepGrey : Blind modeStepGrey := (blind_initWith _ _).comp blind_ensureInit

theorem blind_fill (q : Plane) (v : Byte) : Blind (fill q v) := fun _ _ _ _ => rfl

theorem blind_initialFill : Blind initialFill := by
  have hprev (v : Byte) : Blind (fillPrev v) := .ite (c := fun s => s.panel.hasPrev) (fun _ _ _ _ => rfl) (blind_fill .prev v) blind_id
  have hfills (v : Byte) : Blind fun s => fillPrev v (fill .cur v (modeStepFill { s with initialWrite := false })) :=
    (hprev v).comp ((blind_fill .cur v).comp (blind_modeStepFill.comp fun _ _ _ _ => rfl))
  exact .ite (c := State.initialWrite) (fun _ _ _ _ => rfl) (fun s => hfills s.panel.initFill s) blind_id

theorem blind_ensurePower : Blind ensurePower := by
  have hsend : Blind fun s => { wait .pon (emit (.seq .powerOn) s) with powerIsOn := true } :=
    Blind.comp (k := fun t => { t with powerIsOn := true }) (fun _ _ _ _ => rfl) ((blind_wait .pon).comp (blind_emitAll [.seq .powerOn]))
  exact .ite (c := State.powerIsOn) (fun _ _ _ _ => rfl) blind_id hsend

theorem blind_refreshFullReady : Blind refreshFullReady := fun s ram pgm racing => by
  unfold refreshFullReady
  simp only [blind_ensureInit s ram pgm racing, withSources_mode]
  cases (ensureInit s).mode with
  | fastRefresh => exact (blind_ensurePower.comp (blind_initWith _ _)) _ ram pgm racing
  | fullRefresh | greyRefresh | forcedFullRefresh => exact blind_ensurePower ..

theorem blind_refreshRectReady : Blind refreshRectReady := fun s ram pgm racing => by
  unfold refreshRectReady
  simp only [blind_ensureInit s ram pgm racing, withSources_mode]
  cases (ensureInit s).mode with
  | fullRefresh => exact (blind_ensurePower.comp (blind_initWith _ _)) _ ram pgm racing
  | fastRefresh | greyRefresh | forcedFullRefresh => exact blind_ensurePower ..

theorem blind_updateFull : Blind updateFull := fun s ram pgm racing => by
  have hsend : Blind fun s => { wait .full (emit (.seq .updateFull) s) with mode := .fullRefresh } :=
    Blind.comp (k := fun t => { t with mode := .fullRefresh }) (fun _ _ _ _ => rfl) ((blind_wait .full).comp (blind_emitAll [.seq .updateFull]))
  unfold updateFull
  simp only [withSources_mode, withSources_panel]
  cases s.mode with
  | greyRefresh => exact ((blind_wait .grey).comp (blind_emitAll _)) s ram pgm racing
  | fullRefresh | fastRefresh | forcedFullRefresh => exact hsend s ram pgm racing

theorem blind_refreshFull : Blind refreshFull :=
  Blind.comp (k := fun t => { note t with initialRefresh := false }) (fun _ _ _ _ => rfl) (blind_updateFull.comp blind_refreshFullReady)

theorem blind_updateRect (g : Rect) : Blind (updateRect g) := fun s ram pgm racing => by
  unfold updateRect
  simp only [withSources_mode]
  cases s.mode with
  | greyRefresh => exact ((blind_wait .grey).comp (blind_emitAll _)) s ram pgm racing
  | fullRefresh | fastRefresh | forcedFullRefresh => exact ((blind_wait .part).comp (blind_emitAll _)) s ram pgm racing

theorem blind_refreshRect (r : Rect) : Blind (refreshRect r) := by
  refine .ite (c := redirected) (fun _ _ _ _ => rfl) blind_refreshFull fun s ram pgm racing => ?_
  simp only [withSources_panel]
  cases geomRefresh s.panel r with
  | none => rfl
  | some g => exact ((blind_updateRect g).comp blind_refreshRectReady) s ram pgm racing

/-! ### The exchanged memories -/

theorem swapSpaces_eq (s : State) :
    s.swapSpaces = s.withSources s.pgm s.ram (s.racing.map fun r => { r with space := otherSpace r.space }) := rfl

/-- What is blind to the source memories does the same to exchanged ones. -/
theorem Blind.swapSpaces {f : State → State} (h : Blind f) {s : State} (hs : SameHostSide s (f s)) : f s.swapSpaces = (f s).swapSpaces := by
  rw [swapSpaces_eq, swapSpaces_eq, h, hs.ram, hs.pgm, hs.racing]

theorem otherSpace_inj {a b : Space} : otherSpace a = otherSpace b ↔ a = b := by cases a <;> cases b <;> decide

theorem memory_swapSpaces (s : State) (sp : Space) : s.swapSpaces.memory (otherSpace sp) = s.memory sp := by cases sp <;> rfl

theorem racersAt_swapSpaces (s : State) (sp : Space) (a : Nat) : racersAt s.swapSpaces (otherSpace sp) a = racersAt s sp a := by
  simp [racersAt, State.swapSpaces, List.filter_map, Function.comp_def, otherSpace_inj]

/-- The read of the other space in the exchanged memories (R42). -/
theorem memRead_swapSpaces (s : State) (sp : Space) (tag : ReadTag) (a : Int) :
    memRead s.swapSpaces (otherSpace sp) tag a = memRead s sp tag a := by
  unfold memRead
  rw [memory_swapSpaces, racersAt_swapSpaces]
  rfl

/-- Reading as `m` says, but in the other space. -/
def ReadMode.other (m : ReadMode) : ReadMode := { m with space := otherSpace m.space }

theorem spaceOf_not (pgm : Bool) : spaceOf (!pgm) = otherSpace (spaceOf pgm) := by cases pgm <;> rfl

theorem readMode_not (inv mir pgm : Bool) : (⟨inv, mir, spaceOf !pgm⟩ : ReadMode) = ReadMode.other ⟨inv, mir, spaceOf pgm⟩ := by
  rw [spaceOf_not]; rfl

variable (s : State) (q : Plane) (g : Geom) (b : Bpp) (m : ReadMode)

theorem monoByte_swapSpaces (i jb : Nat) : monoByte s.swapSpaces q g m.other i jb = monoByte s q g m i jb := by
  unfold monoByte
  exact congrArg (Option.map _) (memRead_swapSpaces ..)

theorem pixelValue_swapSpaces (tag : ReadTag) (r c : Int) : pixelValue s.swapSpaces g b m.other tag r c = pixelValue s g b m tag r c := by
  unfold pixelValue
  exact congrArg (Option.map _) (memRead_swapSpaces ..)

theorem greyByte_swapSpaces (i jb : Nat) : greyByte s.swapSpaces q g b m.other i jb = greyByte s q g b m i jb := by
  unfold greyByte
  simp only [pixelValue_swapSpaces]
  rfl

theorem monoBytes_swapSpaces : monoBytes s.swapSpaces q g m.other = monoBytes s q g m :=
  congrArg (windowBytes g) (funext fun i => funext fun jb => monoByte_swapSpaces s q g m i jb)

theorem greyBytes_swapSpaces : greyBytes s.swapSpaces q g b m.other = greyBytes s q g b m :=
  congrArg (windowBytes g) (funext fun i => funext fun jb => greyByte_swapSpaces s q g b m i jb)

/-! ### The image commands -/

/-- `k` does to exchanged memories what `f` does, up to the exchange. -/
def Swaps (k f : State → Out) : Prop := ∀ s : State, k s.swapSpaces = mapNext State.swapSpaces (f s)

/-- A command's two parts, one after the other. -/
theorem Swaps.andThen {k f k' f' : State → Out} (h : Swaps k f) (h' : Swaps k' f') :
    Swaps (fun s => Machine.andThen (k s) k') fun s => Machine.andThen (f s) f' := fun s => by
  simp only [h s]
  cases f s with
  | next t => exact h' t
  | fault r => rfl
  | refused r => rfl

theorem swaps_streamImage (o : Option (List Byte)) : Swaps (streamImage q g o) (streamImage q g o) := fun s => by
  cases o <;> rfl

theorem swaps_writeMono : Swaps (writeMono q g m.other) (writeMono q g m) := fun s => by
  unfold writeMono
  rw [monoBytes_swapSpaces]
  exact swaps_streamImage ..

theorem swaps_writeGrey : Swaps (writeGrey g b m.other) (writeGrey g b m) := by
  have hstream (q : Plane) : Swaps (fun s => streamImage q g (greyBytes s q g b m.other) s) fun s => streamImage q g (greyBytes s q g b m) s :=
    fun s => by simp only [greyBytes_swapSpaces]; exact swaps_streamImage ..
  exact (hstream .cur).andThen (hstream .prev)

theorem swaps_monoWrite : Swaps (monoWrite m.other g) (monoWrite m g) := fun s => by
  unfold monoWrite
  rw [(blind_modeStepMono.comp blind_initialFill).swapSpaces ((traced_initialFill s).trans (traced_modeStepMono _)).host]
  exact swaps_writeMono ..

theorem swaps_greyWrite : Swaps (greyWrite b m.other g) (greyWrite b m g) := fun s => by
  unfold greyWrite
  rw [(blind_modeStepGrey.comp blind_initialFill).swapSpaces ((traced_initialFill s).trans (traced_modeStepGrey _)).host]
  exact swaps_writeGrey ..

theorem swaps_drawAgain : Swaps (drawAgain m.other g) (drawAgain m g) := fun s => by
  unfold drawAgain
  rw [show s.swapSpaces.panel = s.panel from rfl]
  split
  · rw [blind_modeStepMono.swapSpaces (traced_modeStepMono s).host]
    exact swaps_writeMono ..
  · rfl

/-- What follows a refresh. -/
theorem Swaps.afterRefresh {k f : State → Out} (h : Swaps k f) (r : Rect) :
    Swaps (fun s => k (refreshRect r s)) fun s => f (refreshRect r s) := fun s =>
  (congrArg k ((blind_refreshRect r).swapSpaces (traced_refreshRect r s).host)).trans (h _)

theorem swaps_next : Swaps .next .next := fun _ => rfl

theorem swaps_monoDraw : Swaps (monoDraw m.other g) (monoDraw m g) := fun s =>
  (swaps_monoWrite g m).andThen ((swaps_drawAgain g m).afterRefresh s.rect) s

theorem swaps_greyDraw : Swaps (greyDraw b m.other g) (greyDraw b m g) := fun s =>
  (swaps_greyWrite g b m).andThen (swaps_next.afterRefresh s.rect) s

/-- A rectangle command finds the same geometry, and on `EMPTY` drops in both (R96). -/
theorem swaps_onGeom {o : State → Option Geom} {k f : Geom → State → Out} (ho : ∀ s : State, o s.swapSpaces = o s)
    (h : ∀ g, Swaps (k g) (f g)) : Swaps (fun s => onGeom (o s) k s) fun s => onGeom (o s) f s := fun s => by
  simp only [ho s]
  cases o s with
  | none => rfl
  | some g => exact h g s

/-- A 4G command is reserved in both, or in neither (R172). -/
theorem swaps_needsPrev {k f : State → Out} (h : Swaps k f) : Swaps (needsPrev k) (needsPrev f) := fun s => by
  unfold needsPrev
  rw [show s.swapSpaces.panel = s.panel from rfl]
  split
  · exact h s
  · rfl

theorem swaps_image {k f : Geom → State → Out} (h : ∀ g, Swaps (k g) (f g)) :
    Swaps (fun s => onGeom (imageGeom s) k s) fun s => onGeom (imageGeom s) f s := swaps_onGeom (fun _ => rfl) h

theorem swaps_part (u : Nat) {k f : Geom → State → Out} (h : ∀ g, Swaps (k g) (f g)) :
    Swaps (fun s => onGeom (partGeom s u) k s) fun s => onGeom (partGeom s u) f s := swaps_onGeom (fun _ => rfl) h

/-- Settles O49: flipping `PGM` reads in the other space, and every part of an image command does the same in the exchanged memories. -/
theorem pgmOnlySelectsTheSpace : Obligations.PgmOnlySelectsTheSpace := by
  refine ⟨rfl, rfl, fun s b inv mir pgm => ?_⟩
  simp only [exec, execWimg, execWimgp, execWimg4, execWimgp4, execDimg, execDimgp, execDimg4, execDimgp4, readMode_not]
  exact ⟨swaps_image (fun g => swaps_monoWrite g _) s, swaps_part 8 (fun g => swaps_monoWrite g _) s,
    swaps_needsPrev (swaps_image fun g => swaps_greyWrite g b _) s, swaps_needsPrev (swaps_part _ fun g => swaps_greyWrite g b _) s,
    swaps_image (fun g => swaps_monoDraw g _) s, swaps_part 8 (fun g => swaps_monoDraw g _) s,
    swaps_needsPrev (swaps_image fun g => swaps_greyDraw g b _) s, swaps_needsPrev (swaps_part _ fun g => swaps_greyDraw g b _) s⟩

end Sys2Proof.Machine
end

section
/-! PROOF. The command word: decoding is the inverse of encoding (O1, O2), the words without a command (O3), and a write of `CMD` in the step
(O4, O5). -/

namespace Sys2Proof.Machine

variable {s : State} {i : Instr} {w : Word}

/-! ### The fields of a word, masked out and put back -/

theorem and_bit (w : Word) (n : Nat) : w &&& BitVec.twoPow 32 n = bitAt n (w.getLsbD n) := BitVec.and_twoPow w n

/-- A byte of a word, masked out, is the byte in its place. -/
theorem and_byteMask (w : Word) (n : Nat) : w &&& 0x000000FF#32 <<< n = (w.extractLsb' n 8).setWidth 32 <<< n := by
  have mask (k : Nat) : (0x000000FF#32).getLsbD k = decide (k < 8) := by
    rw [show 0x000000FF#32 = (BitVec.allOnes 8).setWidth 32 from rfl, BitVec.getLsbD_setWidth, BitVec.getLsbD_allOnes]
    simp
    omega
  refine BitVec.eq_of_getLsbD_eq fun k hk => ?_
  rw [BitVec.getLsbD_and, BitVec.getLsbD_shiftLeft, mask, BitVec.getLsbD_shiftLeft, BitVec.getLsbD_setWidth, BitVec.getLsbD_extractLsb']
  by_cases h : k < n
  · simp [h]
  · simp [h, hk, show k - n < 32 by omega, show n + (k - n) = k by omega, Bool.and_comm]

theorem and_valMask (w : Word) : w &&& 0x00FF0000#32 = valBits (valField w) := and_byteMask w 16

theorem and_opcMask (w : Word) : w &&& 0x000000FF#32 = (opcField w).setWidth 32 :=
  (and_byteMask w 0).trans (BitVec.shiftLeft_zero _)

theorem and_flagMask (w : Word) : w &&& 0x00000700#32 = flagBits (invField w) (mirField w) (pgmField w) := by
  have mask : 0x00000700#32 = BitVec.twoPow 32 8 ||| BitVec.twoPow 32 9 ||| BitVec.twoPow 32 10 := by decide
  rw [mask, BitVec.and_or_distrib_left, BitVec.and_or_distrib_left, and_bit, and_bit, and_bit]
  rfl

theorem bppBits_bppOfCode (lo hi : Bool) : bppBits (bppOfCode lo hi) = bitAt 11 lo ||| bitAt 12 hi := by
  revert lo hi; decide

theorem and_bppMask (w : Word) : w &&& 0x00001800#32 = bppBits (bppField w) := by
  have mask : 0x00001800#32 = BitVec.twoPow 32 11 ||| BitVec.twoPow 32 12 := by decide
  rw [mask, BitVec.and_or_distrib_left, and_bit, and_bit, bppField, bppBits_bppOfCode]

/-! ### A row of the opcode map -/

/-- What a row fixes and what it leaves free make up the word. -/
theorem eq_of_matchesRow {mask pat : Word} (h : matchesRow mask pat w = true) : pat ||| w &&& ~~~mask = w := by
  rw [matchesRow, beq_iff_eq] at h
  rw [← h, ← BitVec.and_or_distrib_left, BitVec.or_not_self, BitVec.and_allOnes]

section
variable {pat : Word}

theorem eq_of_valRow (h : matchesRow 0xFF00FFFF#32 pat w = true) : pat ||| valBits (valField w) = w := by
  rw [← and_valMask]; exact eq_of_matchesRow h

theorem eq_of_flagRow (h : matchesRow 0xFFFFF8FF#32 pat w = true) : pat ||| flagBits (invField w) (mirField w) (pgmField w) = w := by
  rw [← and_flagMask]; exact eq_of_matchesRow h

theorem eq_of_greyRow (h : matchesRow 0xFFFFE0FF#32 pat w = true) :
    pat ||| bppBits (bppField w) ||| flagBits (invField w) (mirField w) (pgmField w) = w := by
  rw [← and_flagMask, ← and_bppMask, BitVec.or_assoc, ← BitVec.and_or_distrib_left]; exact eq_of_matchesRow h

theorem eq_of_parRow (h : matchesRow 0xFFFFDFFF#32 pat w = true) : pat ||| bitAt 13 (parField w) = w := by
  rw [parField, ← and_bit]; exact eq_of_matchesRow h

theorem eq_of_plainRow (h : matchesRow 0xFFFFFFFF#32 pat w = true) : pat = w := by
  simpa using eq_of_matchesRow h

end

/-! ### Decoding and encoding -/

/-- What holds of one row's command where the row matches, and of what the rows after it give, holds of what they give together. -/
theorem forall_mem_row {P : Instr → Prop} {c : Prop} [Decidable c] {o : Option Instr} (h : c → P i) (ho : ∀ j ∈ o, P j) :
    ∀ j ∈ (if c then some i else o), P j := by
  split
  · rename_i hc
    simpa using h hc
  · exact ho

/-- No row of the map drops a bit: each is of one of five forms (R71 to R73). -/
theorem encode_of_mem_decode (w : Word) : ∀ i ∈ decode w, encode i = w :=
  forall_mem_row eq_of_valRow <| forall_mem_row eq_of_valRow <| forall_mem_row eq_of_valRow <|
  forall_mem_row eq_of_flagRow <| forall_mem_row eq_of_flagRow <| forall_mem_row eq_of_greyRow <| forall_mem_row eq_of_greyRow <|
  forall_mem_row eq_of_flagRow <| forall_mem_row eq_of_flagRow <| forall_mem_row eq_of_greyRow <| forall_mem_row eq_of_greyRow <|
  forall_mem_row eq_of_parRow <| forall_mem_row eq_of_plainRow <| forall_mem_row eq_of_plainRow <| forall_mem_row eq_of_plainRow <|
  by simp

theorem decode_encode (i : Instr) : decode (encode i) = some i := by
  cases i with
  | clrs v => exact Laws.Encoding.clrs v
  | wsb v => exact Laws.Encoding.wsb v
  | wsba v => exact Laws.Encoding.wsba v
  | wimg a b c => exact Laws.Encoding.wimg a b c
  | wimgp a b c => exact Laws.Encoding.wimgp a b c
  | wimg4 n a b c => exact Laws.Encoding.wimg4 n a b c
  | wimgp4 n a b c => exact Laws.Encoding.wimgp4 n a b c
  | dimg a b c => exact Laws.Encoding.dimg a b c
  | dimgp a b c => exact Laws.Encoding.dimgp a b c
  | dimg4 n a b c => exact Laws.Encoding.dimg4 n a b c
  | dimgp4 n a b c => exact Laws.Encoding.dimgp4 n a b c
  | rfsh p => exact Laws.Encoding.rfsh p
  | rfshr => exact Laws.Encoding.rfshr
  | pwroff => exact Laws.Encoding.pwroff
  | hiber => exact Laws.Encoding.hiber

/-- Settles O2: a command's word decodes to it, and a row that matches gives the word back. -/
theorem decodeInvertsEncode : Obligations.DecodeInvertsEncode := fun _ i =>
  ⟨fun h => (encode_of_mem_decode _ i h).symm, fun h => h ▸ decode_encode i⟩

/-! ### Reserved words -/

/-- The opcode of a command (R73). -/
def opcOf : Instr → Byte
  | .clrs _ => 0x01#8
  | .wsb _ => 0x02#8
  | .wsba _ => 0x03#8
  | .wimg .. => 0x04#8
  | .wimgp .. => 0x05#8
  | .wimg4 .. => 0x06#8
  | .wimgp4 .. => 0x07#8
  | .dimg .. => 0x08#8
  | .dimgp .. => 0x09#8
  | .dimg4 .. => 0x0A#8
  | .dimgp4 .. => 0x0B#8
  | .rfsh _ => 0x0C#8
  | .rfshr => 0x0D#8
  | .pwroff => 0x0E#8
  | .hiber => 0x0F#8

theorem opcField_or (a b : Word) : opcField (a ||| b) = opcField a ||| opcField b := BitVec.extractLsb'_or

theorem opcField_valBits (v : Byte) : opcField (valBits v) = 0#8 := by revert v; decide

theorem opcField_flagBits (inv mir pgm : Bool) : opcField (flagBits inv mir pgm) = 0#8 := by revert inv mir pgm; decide

theorem opcField_bppBits (b : Bpp) : opcField (bppBits b) = 0#8 := by cases b <;> decide

theorem opcField_bitAt_par (b : Bool) : opcField (bitAt 13 b) = 0#8 := by cases b <;> decide

theorem opcField_encode (i : Instr) : opcField (encode i) = opcOf i := by
  cases i <;>
    simp only [encode, opcField_or, opcField_valBits, opcField_flagBits, opcField_bppBits, opcField_bitAt_par, BitVec.or_zero] <;>
    rfl

theorem encode_unused (i : Instr) : encode i &&& ~~~usedBits (opcOf i) = 0#32 := by
  cases i with
  | clrs v | wsb v | wsba v => revert v; decide
  | wimg inv mir pgm | wimgp inv mir pgm | dimg inv mir pgm | dimgp inv mir pgm => revert inv mir pgm; decide
  | wimg4 b inv mir pgm | wimgp4 b inv mir pgm | dimg4 b inv mir pgm | dimgp4 b inv mir pgm => cases b <;> revert inv mir pgm <;> decide
  | rfsh par => revert par; decide
  | rfshr | pwroff | hiber => decide

theorem reservedWord_iff (hasPrev : Bool) (w : Word) : ReservedWord hasPrev w ↔
    (opcField w).toNat = 0 ∨ 0x10 ≤ (opcField w).toNat ∨ w &&& ~~~usedBits (opcField w) ≠ 0#32 ∨
      (hasPrev = false ∧ (opcField w = 0x06#8 ∨ opcField w = 0x07#8 ∨ opcField w = 0x0A#8 ∨ opcField w = 0x0B#8)) := Iff.rfl

/-- A command's word is reserved only where the command is a 4G one and the block has one plane (R172). -/
theorem reservedWord_encode (hasPrev : Bool) (i : Instr) : ReservedWord hasPrev (encode i) ↔ i.wf hasPrev = false := by
  rw [reservedWord_iff, opcField_encode, encode_unused]
  cases i <;> simp [opcOf, Instr.wf, Instr.isFourGrey]

/-- A word with no 1 outside the fields of its opcode matches the opcode's row (R73, R74). -/
theorem matchesRow_of_unused (h : w &&& ~~~usedBits (opcField w) = 0#32) :
    matchesRow (0x000000FF#32 ||| ~~~usedBits (opcField w)) ((opcField w).setWidth 32) w = true := by
  rw [matchesRow, beq_iff_eq, BitVec.and_or_distrib_left, h, and_opcMask, BitVec.or_zero]

theorem row_eq_none_iff {c : Prop} [Decidable c] {o : Option Instr} : (if c then some i else o) = none ↔ ¬ c ∧ o = none := by
  split <;> simp [*]

/-- Where nothing is decoded, none of the fifteen rows matches. -/
theorem not_matchesRow_of_decode_eq_none (h : decode w = none) {k : Byte} (h0 : k.toNat ≠ 0) (h16 : k.toNat < 0x10) :
    ¬ matchesRow (0x000000FF#32 ||| ~~~usedBits k) (k.setWidth 32) w = true := by
  simp only [decode, row_eq_none_iff] at h
  obtain ⟨h1, h2, h3, h4, h5, h6, h7, h8, h9, hA, hB, hC, hD, hE, hF, -⟩ := h
  obtain ⟨n, hn, rfl⟩ : ∃ n < 0x10, k = BitVec.ofNat 8 n := ⟨k.toNat, h16, by simp⟩
  interval_cases n
  · exact absurd rfl h0
  exacts [h1, h2, h3, h4, h5, h6, h7, h8, h9, hA, hB, hC, hD, hE, hF]

theorem reservedWord_of_decode_eq_none (hasPrev : Bool) (h : decode w = none) : ReservedWord hasPrev w := by
  rw [reservedWord_iff]
  by_contra! hr
  obtain ⟨h0, h16, hu, -⟩ := hr
  exact not_matchesRow_of_decode_eq_none h h0 h16 (matchesRow_of_unused hu)

/-- Settles O3: a word that decodes is a command's, which is reserved where it is not admitted; any other fits no row. -/
theorem reservedWords : Obligations.ReservedWords := by
  intro hasPrev w
  cases h : decode w with
  | none => simp [decodeFor, h, reservedWord_of_decode_eq_none hasPrev h]
  | some i =>
    obtain rfl := encode_of_mem_decode w i h
    simp [decodeFor, h, reservedWord_encode]

/-! ### The step on a write of `CMD` -/

theorem step_decoded (hb : s.busy = false) (hd : decodeFor s.panel.hasPrev w = some i) (rest : List HostAction) :
    step { s with hostq := .write 0 w [] :: rest } =
      andThen (exec i (launched s rest w [])) fun t => .next (endCommand (launched s rest w []).live [] t) := by
  rw [step_writeCmd hb]
  simp only [writeCmd, hd]
  rfl

theorem step_undecoded (hb : s.busy = false) (hd : decodeFor s.panel.hasPrev w = none) (rest : List HostAction) :
    step { s with hostq := .write 0 w [] :: rest } =
      .next { s with hostq := rest, cmd := w, xferCnt := 0, diag := { s.diag with illegal := true } } := by
  rw [step_writeCmd hb]
  simp only [writeCmd, hd]
  rfl

/-- Settles O5: a decoded word runs its command, which no access overlaps, and `endCommand` clears `BUSY`; any other sets `ILLEGAL`. -/
theorem stepRunsTheCommand : Obligations.StepRunsTheCommand := fun _ _ rest hb =>
  ⟨fun _ hd => step_decoded hb hd rest, fun hd => step_undecoded hb hd rest⟩

/-- Settles O4: a reserved word decodes to no command. -/
theorem reservedWordIgnored : Obligations.ReservedWordIgnored := fun s w rest hb hr =>
  step_undecoded hb ((reservedWords s.panel.hasPrev w).mpr hr) rest

/-- Settles O1, by running the decoder on the fifteen words. -/
theorem writtenWordsDecode : Obligations.WrittenWordsDecode := by
  unfold Obligations.WrittenWordsDecode
  decide

end Sys2Proof.Machine
end

section
/-! PROOF. What always holds of a geometry result (O18), the window of a rectangle refresh (O19), and what an empty rectangle does (O21). -/

namespace Sys2Proof.Machine

/-! ### Rounding to bytes (R9) -/

/-- `floor8 a` is the greatest multiple of 8 that is at most `a`. -/
theorem le_floor8_iff {a m : Int} (hm : m % 8 = 0) : m ≤ floor8 a ↔ m ≤ a := by
  unfold floor8
  omega

/-- `ceil8 a` is the least multiple of 8 that is at least `a`. -/
theorem ceil8_le_iff {a m : Int} (hm : m % 8 = 0) : ceil8 a ≤ m ↔ a ≤ m := by
  unfold ceil8 floor8
  omega

theorem floor8_le (a : Int) : floor8 a ≤ a := (le_floor8_iff (floor8_mod a)).mp le_rfl

theorem le_ceil8 (a : Int) : a ≤ ceil8 a := (ceil8_le_iff (ceil8_mod a)).mp le_rfl

/-! ### A non-empty result -/

section
variable {p : Panel} {r : Rect}

/-- A window the engine may emit is at least one byte wide and one row high. -/
theorem windowOk_size (h : WindowOk p r) : 8 ≤ r.w ∧ 1 ≤ r.h := by
  obtain ⟨-, hbytes, -, -, -, -, hw, hh⟩ := h
  omega

/-- A rectangle that is placed touches only columns and rows it was given, because its first and its last pixel are among them; so where the
given rows lie inside the bitmap, the touched ones do. -/
theorem geomPlace_inside {x y w h wb hb xs ys : Int} {g : Geom} (e : geomPlace p x y w h wb hb xs ys = some g) (h0 : 0 ≤ ys)
    (hrows : ys + h ≤ hb) :
    WindowOk p g.rect ∧ 8 ≤ g.w1 ∧ 1 ≤ g.h1 ∧ g.dx % 8 = 0 ∧ 0 ≤ g.dx ∧ g.dx + g.w1 ≤ ceil8 w ∧ 0 ≤ g.dy ∧ g.dy + g.h1 ≤ h ∧
      0 ≤ g.ys + g.dy ∧ g.ys + g.dy + g.h1 ≤ g.hb := by
  have hwin := geomPlace_window e
  obtain ⟨hw, hh⟩ : 8 ≤ g.w1 ∧ 1 ≤ g.h1 := windowOk_size hwin
  obtain ⟨hinside, hdx, hdy, -, hhb, -, hys⟩ := (geomPlace_placed p x y w h wb hb xs ys).2 g e
  have hfirst := (hinside g.x1 g.y1).mpr (by omega)
  have hlast := (hinside (g.x1 + g.w1 - 1) (g.y1 + g.h1 - 1)).mpr (by omega)
  exact ⟨hwin, hw, hh, (geomPlace_columns e).1, by omega, by omega, by omega, by omega, by omega, by omega⟩

/-- A part that is not empty starts on a row of the bitmap, and is placed (R93). -/
theorem geomPart_eq_some {q : PartOperands} {u : Nat} {g : Geom} (e : geomPart p r q u = some g) :
    0 ≤ q.yp ∧ geomPlace p r.x r.y (min r.w (q.wb - floorU q.xp u)) (min r.h (q.hb - q.yp)) q.wb q.hb (floorU q.xp u) q.yp = some g := by
  unfold geomPart at e
  simp only [Option.ite_none_left_eq_some] at e
  obtain ⟨-, hinside, hplace⟩ := e
  exact ⟨by omega, hplace⟩

end

/-- Settles O18: both rectangles that move pixels are placed from rows inside the bitmap, all of it or the part's, which ends at its edge. -/
theorem geometryResultInside : Obligations.GeometryResultInside := by
  refine ⟨fun p r g e => ?_, fun p r q b g e => ?_, fun p r g e => ?_⟩
  · exact geomPlace_inside e le_rfl (zero_add r.h).le
  · obtain ⟨h0, hplace⟩ := geomPart_eq_some e
    exact geomPlace_inside hplace h0 (by omega)
  · have hwin := geomRefresh_window e
    exact ⟨hwin, windowOk_size hwin⟩

/-! ### The window of a rectangle refresh -/

section
variable (p : Panel) (r : Rect)

/-- The pixel `(x, y)` lies in the rectangle and on the panel. -/
def Asked (x y : Int) : Prop :=
  r.x ≤ x ∧ x < r.x + r.w ∧ r.y ≤ y ∧ y < r.y + r.h ∧ 0 ≤ x ∧ x < p.width ∧ 0 ≤ y ∧ y < p.height

/-- `GeomRefresh` clips first: no pixel is left and it is empty, or the pixels left are a rectangle and its columns are widened to bytes (R94). -/
theorem geomRefresh_cases :
    (geomRefresh p r = none ∧ ∀ x y, ¬ Asked p r x y) ∨
    ∃ x1 y1 xe ye, x1 < xe ∧ y1 < ye ∧ (∀ x y, Asked p r x y ↔ x1 ≤ x ∧ x < xe ∧ y1 ≤ y ∧ y < ye) ∧
      geomRefresh p r = some ⟨floor8 x1, y1, ceil8 xe - floor8 x1, ye - y1⟩ := by
  unfold geomRefresh Asked
  by_cases hempty : min (r.x + r.w) p.width - max r.x 0 ≤ 0 ∨ min (r.y + r.h) p.height - max r.y 0 ≤ 0
  · exact .inl ⟨if_pos hempty, fun x y => by omega⟩
  · exact .inr ⟨_, _, _, _, by omega, by omega, fun x y => by omega, if_neg hempty⟩

end

/-- Settles O19: a window that covers the clipped rectangle reaches its first and its last pixel, and rounding goes to the nearest byte. -/
theorem refreshWindowCovers : Obligations.RefreshWindowCovers := by
  intro p r asked
  rcases geomRefresh_cases p r with ⟨hnone, hno⟩ | ⟨x1, y1, xe, ye, hx, hy, hasked, hsome⟩
  · rw [hnone]
    exact ⟨⟨fun _ => hno, fun _ => rfl⟩, nofun⟩
  · have hfirst : Asked p r x1 y1 := (hasked _ _).mpr (by omega)
    have hlast : Asked p r (xe - 1) (ye - 1) := (hasked _ _).mpr (by omega)
    rw [hsome]
    refine ⟨⟨nofun, fun hno => absurd hfirst (hno _ _)⟩, ?_⟩
    rintro g ⟨rfl⟩
    refine ⟨fun x y h => ?_, fun a hax haw hcover => ?_⟩
    · have hin := (hasked x y).mp h
      have hleft := floor8_le x1
      have hright := le_ceil8 xe
      simp only
      omega
    · have hcover1 := hcover _ _ hfirst
      have hcover2 := hcover _ _ hlast
      have hleft : a.x ≤ floor8 x1 := (le_floor8_iff hax).mpr (by omega)
      have hright : ceil8 xe ≤ a.x + a.w := (ceil8_le_iff (by omega)).mpr (by omega)
      simp only
      omega

/-! ### The empty rectangle (R96) -/

section
variable {s : State}

theorem onGeom_empty {o : Option Geom} (h : o = none) (k : Geom → State → Out) : onGeom o k s = .next (setDrop s) := by rw [h]; rfl

theorem needsPrev_of_hasPrev (h : s.panel.hasPrev = true) (k : State → Out) : needsPrev k s = k s := if_pos h

theorem refreshRect_empty {r : Rect} (hr : redirected s = false) (h : geomRefresh s.panel r = none) : refreshRect r s = setDrop s := by
  simp [refreshRect, hr, h]

end

/-- Settles O21: each image command is `onGeom` of its geometry, and `RFSHR` is `RefreshRect`, not redirected. -/
theorem emptyRectangleDoesNothing : Obligations.EmptyRectangleDoesNothing := by
  refine fun s inv mir pgm b => ⟨fun h => ?_, fun h => ?_, fun h hp => ?_, fun hi hm h => ?_⟩
  · simp only [exec, execWimg, execDimg, execWimg4, execDimg4, onGeom_empty h]
    refine ⟨rfl, rfl, fun hp => ?_⟩
    simp only [needsPrev_of_hasPrev hp, onGeom_empty h]
    exact ⟨rfl, rfl⟩
  · simp only [exec, execWimgp, execDimgp, onGeom_empty h]
    exact ⟨rfl, rfl⟩
  · simp only [exec, execWimgp4, execDimgp4, needsPrev_of_hasPrev hp, onGeom_empty h]
    exact ⟨rfl, rfl⟩
  · have hr : redirected s = false := by simp [redirected, hi, hm]
    simp only [exec, execRfshr, refreshRect_empty hr h]
    rfl

end Sys2Proof.Machine
end

section
/-! PROOF. From source bytes to plane bytes: tones and plane bits (O25), inverted greys (O24), 1 bit per pixel as mono (O27), the length of a stream
(O29). -/

namespace Sys2Proof.Machine

/-! ### Tones and plane bits (R116, R117) -/

section
variable (p : Panel) (b : Bpp) (v : Nat)

theorem fullScale_eq : 2 ^ bppBitsPer b - 1 = 2 * defaultThreshold b - 1 := by cases b <;> rfl

theorem defaultThreshold_pos : 0 < defaultThreshold b := Nat.two_pow_pos _

theorem fullScale_ne_zero : 2 ^ bppBitsPer b - 1 ≠ 0 := by cases b <;> decide

theorem toneOf_fullScale : toneOf p b (2 ^ bppBitsPer b - 1) = .white := if_pos rfl

theorem toneOf_zero : toneOf p b 0 = .black := (if_neg (fullScale_ne_zero b).symm).trans (if_pos rfl)

/-- What each of the tests of R116 answers, taken in their order. -/
theorem toneOf_iff :
    (toneOf p b v = .white ↔ v = 2 ^ bppBitsPer b - 1) ∧ (toneOf p b v = .black ↔ v = 0) ∧
    (toneOf p b v = .grey1 ↔ v ≠ 2 ^ bppBitsPer b - 1 ∧ v ≠ 0 ∧ greyTh p b ≤ v) ∧
    (toneOf p b v = .grey2 ↔ v ≠ 2 ^ bppBitsPer b - 1 ∧ v ≠ 0 ∧ v < greyTh p b) := by
  have hfull := fullScale_ne_zero b
  unfold toneOf
  split_ifs <;> simp only [true_iff, false_iff] <;> omega

end

/-- Settles O25: each tone is one outcome of the tests of R116, and the pairing table is `planeBit`'s definition. -/
theorem tonesAndPlaneBits : Obligations.TonesAndPlaneBits := by
  refine ⟨fun p b v _ => toneOf_iff p b v, fun p => ⟨rfl, rfl, rfl⟩, ⟨rfl, rfl, rfl⟩, fun p v hv => ?_,
    fun p => ⟨⟨rfl, rfl⟩, ⟨rfl, rfl⟩, ⟨rfl, rfl⟩, ⟨rfl, rfl⟩⟩⟩
  obtain rfl | rfl : v = 0 ∨ v = 1 := by omega
  · exact toneOf_zero p .one
  · exact toneOf_fullScale p .one

/-! ### Eight bits in a byte (R118) -/

/-- Of eight packed bits the first is bit 7. -/
theorem getLsbD_packBits {bits : List Bool} (hlen : bits.length = 8) {j : Nat} (hj : j < 8) :
    (packBits bits).getLsbD j = bits.getD (7 - j) false := by
  rw [packBits, getLsbD_foldl_packBits bits _ hj, hlen, if_pos hj]

theorem packBits_map_not {bits : List Bool} (hlen : bits.length = 8) : packBits (bits.map (!·)) = ~~~packBits bits := by
  refine BitVec.eq_of_getLsbD_eq fun j hj => ?_
  rw [getLsbD_packBits (by simpa using hlen) hj, BitVec.getLsbD_not, getLsbD_packBits hlen hj]
  simp [List.getD_eq_getElem?_getD, List.getElem?_eq_getElem (show 7 - j < bits.length by omega), hj]

/-- A byte's bits from the highest on, packed, are the byte. -/
theorem packBits_getLsbD (byte : Byte) : packBits ((List.range 8).map fun k => byte.getLsbD (7 - k)) = byte := by
  refine BitVec.eq_of_getLsbD_eq fun j hj => ?_
  rw [getLsbD_packBits (by simp) hj]
  simp [List.getD_eq_getElem?_getD, List.getElem?_range (show 7 - j < 8 by omega), show 7 - (7 - j) = j by omega]

/-! ### Inverted greys (R119) -/

/-- A pixel of a complemented byte: its bits are complemented, and it lies inside the byte. -/
theorem byteField_not (b : Bpp) (byte : Byte) {k : Nat} (hk : k < pixelsPerByte b) :
    byteField b (~~~byte) k = 2 ^ bppBitsPer b - 1 - byteField b byte k := by
  have hlt : byteField b byte k < 2 ^ bppBitsPer b := Nat.mod_lt _ (Nat.two_pow_pos _)
  refine Nat.eq_of_testBit_eq fun j => ?_
  rw [show 2 ^ bppBitsPer b - 1 - byteField b byte k = 2 ^ bppBitsPer b - (byteField b byte k + 1) by omega,
    Nat.testBit_two_pow_sub_succ hlt, byteField_testBit, byteField_testBit]
  by_cases hj : j < bppBitsPer b
  · have hin : 8 - bppBitsPer b * (k + 1) + j < 8 := by cases b <;> simp only [bppBitsPer, pixelsPerByte] at * <;> omega
    simp [hj, hin]
  · simp [hj]

/-- At the default threshold the greys lie symmetrically about the middle of the scale. -/
theorem toneOf_fullScale_sub {p : Panel} {b : Bpp} (hth : greyTh p b = defaultThreshold b) {v : Nat} (hv : v ≤ 2 ^ bppBitsPer b - 1) :
    toneOf p b (2 ^ bppBitsPer b - 1 - v) = (toneOf p b v).swap := by
  have hfull := fullScale_eq b
  have hpos := defaultThreshold_pos b
  obtain ⟨hwhite, hblack, hgrey1, hgrey2⟩ := toneOf_iff p b v
  obtain ⟨-, -, hgrey1', hgrey2'⟩ := toneOf_iff p b (2 ^ bppBitsPer b - 1 - v)
  cases ht : toneOf p b v with
  | white => rw [hwhite.mp ht, Nat.sub_self, toneOf_zero]; rfl
  | black => rw [hblack.mp ht, Nat.sub_zero, toneOf_fullScale]; rfl
  | grey1 => have hv := hgrey1.mp ht; exact hgrey2'.mpr (by omega)
  | grey2 => have hv := hgrey2.mp ht; exact hgrey1'.mpr (by omega)

theorem planeBit_swap (p : Panel) (q : Plane) (t : Tone) : planeBit p q t.swap = !planeBit p q t := by
  cases t <;> cases q <;> simp [planeBit, Tone.swap]

section
variable {s : State} {b : Bpp} (hth : greyTh s.panel b = defaultThreshold b) (mir : Bool) (sp : Space) (g : Geom)
include hth

/-- `INV` complements the source byte of a pixel, and so swaps its tone. -/
theorem sourceTone_inv (r c : Int) : sourceTone s b ⟨true, mir, sp⟩ g r c = (sourceTone s b ⟨false, mir, sp⟩ g r c).swap := by
  have hk : (c % pixelsPerByte b).toNat < pixelsPerByte b := by cases b <;> simp only [pixelsPerByte] <;> omega
  have hv (byte : Byte) (k : Nat) : byteField b byte k ≤ 2 ^ bppBitsPer b - 1 := Nat.le_sub_one_of_lt (Nat.mod_lt _ (Nat.two_pow_pos _))
  simp only [sourceTone, applyInv, ↓reduceIte, byteField_not b _ hk, toneOf_fullScale_sub hth (hv _ _)]
  rfl

theorem greyPixels_inv (q : Plane) : greyPixels s q b ⟨true, mir, sp⟩ g = (greyPixels s q b ⟨false, mir, sp⟩ g).map (~~~·) := by
  simp only [greyPixels, List.map_flatMap, List.map_map]
  refine List.flatMap_congr fun i _ => List.map_congr_left fun jb _ => ?_
  rw [Function.comp_apply, ← packBits_map_not (by simp), List.map_map]
  simp only [sourceTone_inv hth, planeBit_swap]
  rfl

end

/-- Settles O24: a complemented byte holds the complements of its values, which at the default threshold have the swapped tones, and swapped tones
have the complementary plane bits. With threshold 1 at 2 bits per pixel both 1 and 2 are grey 1. -/
theorem greyInversion : Obligations.GreyInversion := by
  refine ⟨fun b byte k hk => byteField_not b byte hk, fun p b => ⟨toneOf_fullScale p b, toneOf_zero p b⟩,
    fun p b v hth hv => toneOf_fullScale_sub hth hv, ⟨{ Panel.reference with greyTh2 := 1 }, .two, 1, by decide, by decide⟩,
    fun s q b mir sp g hth => greyPixels_inv hth mir sp g q⟩

/-! ### One bit per pixel (R118, R167) -/

/-- Reads that share one answer: all of them succeed with it, or none. -/
theorem allSome_map_const {α β γ : Type} (o : Option α) (f : γ → α → β) {l : List γ} (hl : l ≠ []) :
    allSome (l.map fun k => o.map (f k)) = o.map fun a => l.map fun k => f k a := by
  cases o with
  | none =>
    obtain ⟨k, l, rfl⟩ := List.exists_cons_of_ne_nil hl
    rfl
  | some a => exact allSome_map_some (fun k => f k a) l

theorem byteField_one (byte : Byte) {k : Nat} (hk : k < 8) : byteField .one byte k = (byte.getLsbD (7 - k)).toNat := by
  rw [BitVec.getLsbD, Nat.toNat_testBit, byteField, Nat.shiftRight_eq_div_pow]
  simp only [bppBitsPer, pow_one, show 8 - 1 * (k + 1) = 7 - k by omega]

/-- At 1 bit per pixel only white and black occur, and both planes take the bit itself. -/
theorem planeBit_toneOf_one (p : Panel) (q : Plane) (bit : Bool) : planeBit p q (toneOf p .one bit.toNat) = bit := by
  cases bit with
  | false => rw [Bool.toNat_false, toneOf_zero]; rfl
  | true => rw [Bool.toNat_true, show 1 = 2 ^ bppBitsPer .one - 1 from rfl, toneOf_fullScale]; rfl

/-- The eight pixels of a whole source byte are eight reads of that byte. -/
theorem greyByte_one {s : State} (hr : s.racing = []) {g : Geom} (hc : (g.xs + g.dx) % 8 = 0) (q : Plane) (m : ReadMode) (i jb : Nat) :
    greyByte s q g .one m i jb = monoByte s .cur g m i jb := by
  have hpixel : (List.range 8).map (fun (k : Nat) =>
      (pixelValue s g .one m ⟨q, i, jb, k⟩ (srcRow g m.mir i) (g.xs + g.dx + 8 * jb + k)).map fun v =>
        planeBit s.panel q (toneOf s.panel .one v)) =
      (List.range 8).map fun (k : Nat) => (monoByte s .cur g m i jb).map fun byte => byte.getLsbD (7 - k) := by
    refine List.map_congr_left fun k hk => ?_
    have hk : k < 8 := List.mem_range.mp hk
    have hcol : (g.xs + g.dx + 8 * (jb : Int) + k) / 8 = (g.xs + g.dx + 8 * jb) / 8 := by omega
    have hpos : ((g.xs + g.dx + 8 * (jb : Int) + k) % pixelsPerByte .one).toNat = k := by simp only [pixelsPerByte]; omega
    simp only [pixelValue, monoByte, memRead_eq_cellGet hr, pixelAddr_one, hcol, hpos, Option.map_map, Function.comp_def,
      byteField_one _ hk, planeBit_toneOf_one]
  simp only [greyByte]
  rw [hpixel, allSome_map_const _ (fun k byte => BitVec.getLsbD byte (7 - k)) (by decide), Option.map_map]
  simp only [Function.comp_def, packBits_getLsbD, Option.map_id']

/-- Settles O27: byte by byte, the window being the same. -/
theorem oneBitGreyIsMono : Obligations.OneBitGreyIsMono := fun _ q m g hr hc =>
  congrArg (windowBytes g) (funext fun i => funext fun jb => greyByte_one hr hc q m i jb)

/-! ### The length of a stream (R110, R111, R120(a)) -/

/-- Settles O29: a plane stream sends each byte as one `Xfer`, and an image has `h1` rows of `w1/8` bytes. -/
theorem streamLengths : Obligations.StreamLengths := by
  refine ⟨fun p q v => ?_, fun s q m g => ?_, fun s q b m g => ?_⟩
  · rw [fillEvents, planeStream_xfers, List.length_replicate, planeBytes]
  · rw [planeStream_xfers, monoPixels]
    simp [List.length_flatMap, Nat.mul_comm]
  · rw [planeStream_xfers, greyPixels]
    simp [List.length_flatMap, Nat.mul_comm]

end Sys2Proof.Machine
end

section
/-! PROOF. Where in the bitmap the bytes of a picture lie: the row of a window row (O22), the columns and the addresses (O28). -/

namespace Sys2Proof.Machine

/-! ### Rows (R95, R112) -/

section
variable {s : State} {g : Geom}

/-- The rows of a geometry result lie inside the bitmap. -/
theorem geom_rows (h : imageGeom s = some g ∨ ∃ b, partGeom s (unitOf b) = some g) : 0 ≤ g.ys + g.dy ∧ g.ys + g.dy + g.h1 ≤ g.hb := by
  obtain ⟨himage, hpart, -⟩ := geometryResultInside
  rcases h with e | ⟨b, e⟩
  · obtain ⟨-, -, -, -, -, -, -, -, hlow, hhigh⟩ := himage _ _ _ e
    exact ⟨hlow, hhigh⟩
  · obtain ⟨-, -, -, -, -, -, -, -, hlow, hhigh⟩ := hpart _ _ _ b _ e
    exact ⟨hlow, hhigh⟩

theorem srcRow_inside (h : imageGeom s = some g ∨ ∃ b, partGeom s (unitOf b) = some g) {i : Nat} (hi : (i : Int) < g.h1) (mir : Bool) :
    0 ≤ srcRow g mir i ∧ srcRow g mir i ≤ g.hb - 1 := by
  have hrows := geom_rows h
  cases mir <;> simp only [srcRow, Bool.false_eq_true, ↓reduceIte] <;> omega

theorem imageGeom_hb (e : imageGeom s = some g) : g.hb = s.rect.h := by
  obtain ⟨-, -, -, -, hhb, -⟩ := (geomPlace_placed ..).2 g e
  exact hhb

theorem partGeom_hb {u : Nat} (e : partGeom s u = some g) : g.hb = s.part.hb := by
  obtain ⟨-, -, -, -, hhb, -⟩ := (geomPlace_placed ..).2 g (geomPart_eq_some e).2
  exact hhb

/-- Two window rows that read the same source row give the same bytes: without a racing store it does not matter which read a read is. -/
theorem monoByte_of_srcRow (hr : s.racing = []) {mir mir' : Bool} {i i' : Nat} (hrow : srcRow g mir i = srcRow g mir' i') (q : Plane)
    (inv : Bool) (sp : Space) (jb : Nat) : monoByte s q g ⟨inv, mir, sp⟩ i jb = monoByte s q g ⟨inv, mir', sp⟩ i' jb := by
  simp only [monoByte, memRead_eq_cellGet hr, hrow]

theorem greyByte_of_srcRow (hr : s.racing = []) {mir mir' : Bool} {i i' : Nat} (hrow : srcRow g mir i = srcRow g mir' i') (q : Plane)
    (inv : Bool) (sp : Space) (jb : Nat) (b : Bpp) : greyByte s q g b ⟨inv, mir, sp⟩ i jb = greyByte s q g b ⟨inv, mir', sp⟩ i' jb := by
  simp only [greyByte, pixelValue, memRead_eq_cellGet hr, hrow]

end

/-- Settles O22: the rows of a geometry result lie inside the bitmap (R95), so their mirror images do, and a source row is read in the same way
whichever window row asks for it. -/
theorem sourceRowInsideBitmap : Obligations.SourceRowInsideBitmap := by
  refine fun s g i h hi => ⟨rfl, rfl, srcRow_inside h hi, imageGeom_hb, fun _ => partGeom_hb, fun q inv sp i' jb hr hrow => ?_⟩
  exact ⟨monoByte_of_srcRow hr hrow q inv sp jb, greyByte_of_srcRow hr hrow q inv sp jb⟩

/-! ### Columns and addresses (R44, R95, R121) -/

section
variable {s : State} {g : Geom} {b : Bpp}

/-- A part starts inside the bitmap, and rounding its column down to the unit keeps it there (R93). -/
theorem partGeom_xs_nonneg (e : partGeom s (unitOf b) = some g) : 0 ≤ g.xs := by
  have hxs := (geomPlace_columns (geomPart_eq_some e).2).2
  unfold partGeom geomPart at e
  simp only [Option.ite_none_left_eq_some] at e
  obtain ⟨-, hinside, -⟩ := e
  have hxp : 0 ≤ s.part.xp := by omega
  rw [hxs]
  cases b <;> simp only [floorU, unitOf] <;> omega

/-- The columns of a geometry result start inside the bitmap and end with its last byte, counted in whole bytes from `xs` on. -/
theorem geom_columns (h : imageGeom s = some g ∨ partGeom s (unitOf b) = some g) :
    0 ≤ g.xs ∧ 0 ≤ g.dx ∧ g.dx + g.w1 ≤ ceil8 (g.wb - g.xs) := by
  obtain ⟨himage, hpart, -⟩ := geometryResultInside
  rcases h with e | e
  · obtain ⟨-, -, -, hwb, -, hxs, -⟩ := (geomPlace_placed ..).2 g e
    obtain ⟨-, -, -, -, hdx, hw, -⟩ := himage _ _ _ e
    exact ⟨hxs.ge, hdx, by rw [hwb, hxs, sub_zero]; exact hw⟩
  · obtain ⟨-, -, -, hwb, -, hxs, -⟩ := (geomPlace_placed ..).2 g (geomPart_eq_some e).2
    obtain ⟨-, -, -, -, hdx, hw, -⟩ := hpart _ _ _ b _ e
    refine ⟨partGeom_xs_nonneg e, hdx, hw.trans ?_⟩
    rw [hwb, hxs, ceil8_le_iff (ceil8_mod _)]
    exact (min_le_right _ _).trans (le_ceil8 _)

/-- Column `c` of a row of whole bytes lies in one of the row's bytes (R44). -/
theorem column_lt_stride {wb c : Int} (hc : c < ceil8 wb) (b : Bpp) : c / pixelsPerByte b < stride wb (bppBitsPer b) := by
  have hmod := ceil8_mod wb
  cases b <;> simp only [stride, pixelsPerByte, bppBitsPer] <;> omega

/-- A row and a column of the bitmap are an address of the bitmap (R44). -/
theorem pixelAddr_inside {r c : Int} (hr : 0 ≤ r ∧ r ≤ g.hb - 1) (hc : 0 ≤ c ∧ c < ceil8 g.wb) :
    s.srcAddr ≤ pixelAddr s g b r c ∧ pixelAddr s g b r c ≤ s.srcAddr + stride g.wb (bppBitsPer b) * g.hb - 1 := by
  have hbyte : 0 ≤ c / pixelsPerByte b := Int.ediv_nonneg hc.1 (by omega)
  have hlast := column_lt_stride hc.2 b
  have hstride : 0 ≤ stride g.wb (bppBitsPer b) := by omega
  have hstart : 0 ≤ r * stride g.wb (bppBitsPer b) := mul_nonneg hr.1 hstride
  have hend : r * stride g.wb (bppBitsPer b) ≤ (g.hb - 1) * stride g.wb (bppBitsPer b) := mul_le_mul_of_nonneg_right hr.2 hstride
  rw [sub_mul, one_mul, mul_comm g.hb] at hend
  simp only [pixelAddr]
  omega

end

/-- Settles O28: a row is whole bytes, and the columns of a result reach at most 7 past the bitmap's last, and none past its last byte where they
start on a byte. -/
theorem footprintInsideBitmap : Obligations.FootprintInsideBitmap := by
  intro s b g h
  obtain ⟨hxs, hdx, hlast⟩ := geom_columns h
  refine ⟨fun mir i c hi hc0 hc1 hbyte => ?_, ?_⟩
  · refine pixelAddr_inside (srcRow_inside (h.imp_right fun e => ⟨b, e⟩) hi mir) ⟨by omega, ?_⟩
    simp only [ceil8, floor8] at hlast ⊢
    omega
  · simp only [ceil8, floor8] at hlast ⊢
    omega

end Sys2Proof.Machine
end

section
/-! PROOF. Two runs over different source memories: `INV` of a mono command as the complemented bitmap (O23), and the bytes outside the footprint
(O48). What reads no source byte is blind to them; so a command does the same in both runs when it streams the same bytes. -/

namespace Sys2Proof.Machine

/-! ### A change of the source memories -/

/-- What becomes of each source memory and of the racing stores. -/
structure SourceMap where
  ram : List Host.Cell → List Host.Cell
  pgm : List Host.Cell → List Host.Cell
  racing : List HostStore → List HostStore

/-- The state with its sources changed. -/
def State.mapSources (F : SourceMap) (s : State) : State := s.withSources (F.ram s.ram) (F.pgm s.pgm) (F.racing s.racing)

section
variable {F : SourceMap} {s : State}

theorem Blind.mapSources {f : State → State} (h : Blind f) (hs : SameHostSide s (f s)) : f (s.mapSources F) = (f s).mapSources F := by
  rw [State.mapSources, State.mapSources, h, hs.ram, hs.pgm, hs.racing]

/-- From every state of a command that began in `s`, `k` does to changed sources what `f` does to the sources as they are. -/
def Follows (F : SourceMap) (s : State) (k f : State → Out) : Prop :=
  ∀ t, SameHostSide s t → k (t.mapSources F) = mapNext (State.mapSources F) (f t)

/-- `k` packs from changed sources the bytes that `f` packs from the sources as they are, for either plane. -/
def PacksSame (F : SourceMap) (s : State) (k f : State → Plane → Option (List Byte)) : Prop :=
  ∀ t, SameHostSide s t → ∀ q, k (t.mapSources F) q = f t q

theorem follows_next {f : State → State} (hb : Blind f) (hf : ∀ t, SameHostSide t (f t)) :
    Follows F s (fun t => .next (f t)) fun t => .next (f t) := fun t _ => congrArg Host.Outcome.next (hb.mapSources (hf t))

/-- What comes after an operation that reads no source byte. -/
theorem Follows.after {p : State → State} {k f : State → Out} (h : Follows F s k f) (hb : Blind p) (hp : ∀ t, SameHostSide t (p t)) :
    Follows F s (fun t => k (p t)) fun t => f (p t) := fun t ht =>
  (congrArg k (hb.mapSources (hp t))).trans (h _ (ht.trans (hp t)))

/-- A command's two parts, one after the other. -/
theorem Follows.andThen {k f k' f' : State → Out} (h : Follows F s k f) (hf : ∀ {t u}, f t = .next u → SameHostSide t u)
    (h' : Follows F s k' f') : Follows F s (fun t => Machine.andThen (k t) k') fun t => Machine.andThen (f t) f' := fun t ht => by
  simp only [h t ht]
  cases e : f t with
  | next u => exact h' u (ht.trans (hf e))
  | fault r => rfl
  | refused r => rfl

/-! ### The image commands -/

variable {g : Geom} {b : Bpp} {m m' : ReadMode}

theorem PacksSame.follows {k f : State → Plane → Option (List Byte)} (h : PacksSame F s k f) (q : Plane) :
    Follows F s (fun t => streamImage q g (k t q) t) fun t => streamImage q g (f t q) t := fun t ht => by
  simp only [h t ht q]
  cases f t q <;> rfl

section
variable (h : PacksSame F s (fun t q => monoBytes t q g m') fun t q => monoBytes t q g m)
include h

theorem follows_monoWrite : Follows F s (monoWrite m' g) (monoWrite m g) :=
  (h.follows .cur).after (blind_modeStepMono.comp blind_initialFill) fun t => ((traced_initialFill t).trans (traced_modeStepMono _)).host

theorem follows_drawAgain : Follows F s (drawAgain m' g) (drawAgain m g) := fun t ht => by
  unfold drawAgain
  rw [show (t.mapSources F).panel = t.panel from rfl]
  split
  · exact (h.follows .prev).after blind_modeStepMono (fun t => (traced_modeStepMono t).host) t ht
  · rfl

theorem follows_monoDraw : Follows F s (monoDraw m' g) (monoDraw m g) := fun t ht =>
  have hagain := (follows_drawAgain h).after (blind_refreshRect t.rect) fun u => (traced_refreshRect t.rect u).host
  (follows_monoWrite h).andThen (fun e => (traced_monoWrite e).host) hagain t ht

end

section
variable (h : PacksSame F s (fun t q => greyBytes t q g b m') fun t q => greyBytes t q g b m)
include h

theorem follows_greyWrite : Follows F s (greyWrite b m' g) (greyWrite b m g) :=
  have hstreams := (h.follows (g := g) .cur).andThen (fun e => (traced_streamImage e).host) (h.follows .prev)
  hstreams.after (blind_modeStepGrey.comp blind_initialFill) fun t => ((traced_initialFill t).trans (traced_modeStepGrey _)).host

theorem follows_greyDraw : Follows F s (greyDraw b m' g) (greyDraw b m g) := fun t ht =>
  have hrefresh := follows_next (blind_refreshRect t.rect) fun u => (traced_refreshRect t.rect u).host
  (follows_greyWrite h).andThen (fun e => (traced_greyWrite e).host) hrefresh t ht

end

/-- A rectangle command on the same geometry, and on `EMPTY` it drops in both runs (R96). -/
theorem follows_onGeom (o : Option Geom) {k f : Geom → State → Out} (h : ∀ g, o = some g → Follows F s (k g) (f g)) :
    onGeom o k (s.mapSources F) = mapNext (State.mapSources F) (onGeom o f s) := by
  cases o with
  | none => rfl
  | some g => exact h g rfl s (.refl s)

theorem follows_image {k f : Geom → State → Out} (h : ∀ g, imageGeom s = some g → Follows F s (k g) (f g)) :
    onGeom (imageGeom (s.mapSources F)) k (s.mapSources F) = mapNext (State.mapSources F) (onGeom (imageGeom s) f s) := follows_onGeom _ h

theorem follows_part (u : Nat) {k f : Geom → State → Out} (h : ∀ g, partGeom s u = some g → Follows F s (k g) (f g)) :
    onGeom (partGeom (s.mapSources F) u) k (s.mapSources F) = mapNext (State.mapSources F) (onGeom (partGeom s u) f s) := follows_onGeom _ h

/-- A 4G command is reserved in both runs, or in neither (R172). -/
theorem follows_needsPrev {k f : State → Out}
    (h : s.panel.hasPrev = true → k (s.mapSources F) = mapNext (State.mapSources F) (f s)) :
    needsPrev k (s.mapSources F) = mapNext (State.mapSources F) (needsPrev f s) := by
  unfold needsPrev
  rw [show (s.mapSources F).panel = s.panel from rfl]
  split
  · exact h ‹_›
  · rfl

end

/-! ### The complemented bitmap (R114) -/

/-- Every byte of both source memories complemented. -/
def complementMap : SourceMap where
  ram := List.map fun c => (c.1, ~~~c.2)
  pgm := List.map fun c => (c.1, ~~~c.2)
  racing := List.map fun r => { r with byte := ~~~r.byte }

theorem complementSource_eq : State.complementSource = State.mapSources complementMap := rfl

theorem cellGet_complement (l : List Host.Cell) (a : Nat) : cellGet (l.map fun c => (c.1, ~~~c.2)) a = (cellGet l a).map (~~~·) := by
  induction l with
  | nil => rfl
  | cons c l ih =>
    simp only [List.map_cons, cellGet, ih]
    split_ifs <;> rfl

section
variable (s : State)

theorem memory_complement (sp : Space) : s.complementSource.memory sp = (s.memory sp).map fun c => (c.1, ~~~c.2) := by cases sp <;> rfl

theorem racersAt_complement (sp : Space) (a : Nat) : racersAt s.complementSource sp a = (racersAt s sp a).map (~~~·) := by
  simp [racersAt, State.complementSource, List.filter_map, Function.comp_def]

/-- A read in the complemented memories is the complement of the read, whichever of the racing bytes it returns (R60). -/
theorem memRead_complement (sp : Space) (tag : ReadTag) (a : Int) :
    memRead s.complementSource sp tag a = (memRead s sp tag a).map (~~~·) := by
  unfold memRead
  rw [memory_complement, racersAt_complement, cellGet_complement]
  split
  · cases cellGet (s.memory sp) a.toNat with
    | none => rfl
    | some old =>
      cases racersAt s sp a.toNat with
      | nil => rfl
      | cons r l =>
        simp only [Option.map_some, List.map_cons, List.length_cons, List.length_map]
        rw [show ~~~old :: ~~~r :: l.map (~~~·) = (old :: r :: l).map (~~~·) from rfl, List.getD_map]
        rfl
  · rfl

theorem monoByte_complement (q : Plane) (g : Geom) (mir : Bool) (sp : Space) (i jb : Nat) :
    monoByte s.complementSource q g ⟨false, mir, sp⟩ i jb = monoByte s q g ⟨true, mir, sp⟩ i jb := by
  simp only [monoByte, memRead_complement, Option.map_map]
  rfl

theorem packsSame_complement (g : Geom) (mir : Bool) (sp : Space) :
    PacksSame complementMap s (fun t q => monoBytes t q g ⟨false, mir, sp⟩) fun t q => monoBytes t q g ⟨true, mir, sp⟩ := fun t _ q =>
  congrArg (windowBytes g) (funext fun i => funext fun jb => monoByte_complement t q g mir sp i jb)

theorem monoPixels_inv (mir : Bool) (sp : Space) (g : Geom) : monoPixels s ⟨true, mir, sp⟩ g = (monoPixels s ⟨false, mir, sp⟩ g).map (~~~·) := by
  simp only [monoPixels, List.map_flatMap, List.map_map]
  rfl

theorem complementSource_complementSource : s.complementSource.complementSource = s := by
  simp [State.complementSource, Function.comp_def]

end

/-- Settles O23: every part of a mono command does the same over the complemented sources, whose bytes without `INV` are the bytes with it. -/
theorem monoInversionIsComplement : Obligations.MonoInversionIsComplement := by
  refine ⟨fun s mir pgm => ?_, monoPixels_inv, complementSource_complementSource⟩
  simp only [complementSource_eq]
  have hbytes (g : Geom) := packsSame_complement s g mir (spaceOf pgm)
  exact ⟨follows_image fun g _ => follows_monoWrite (hbytes g), follows_part 8 fun g _ => follows_monoWrite (hbytes g),
    follows_image fun g _ => follows_monoDraw (hbytes g), follows_part 8 fun g _ => follows_monoDraw (hbytes g)⟩

/-! ### The commands that read no source byte -/

theorem blind_fillScreen (v : Byte) : Blind (fillScreen v) := (blind_fill .cur v).comp (blind_modeStepFill.comp fun _ _ _ _ => rfl)

theorem blind_fillPrev (v : Byte) : Blind (fillPrev v) :=
  .ite (c := fun s => s.panel.hasPrev) (fun _ _ _ _ => rfl) (blind_fill .prev v) blind_id

theorem blind_powerOffProc : Blind powerOffProc := by
  have hsend : Blind fun s => { wait .poff (emit (.seq .powerOff) s) with powerIsOn := false } :=
    Blind.comp (k := fun t => { t with powerIsOn := false }) (fun _ _ _ _ => rfl) ((blind_wait .poff).comp (blind_emitAll [.seq .powerOff]))
  have hforget : Blind fun t => { note { note t with mode := .fullRefresh } with initDone := false } := fun _ _ _ _ => rfl
  exact .ite (c := State.powerIsOn) (fun _ _ _ _ => rfl)
    (.ite (c := fun s => s.panel.powerOffForcesFull) (fun _ _ _ _ => rfl) (hforget.comp hsend) hsend) blind_id

/-- A command without a bitmap (R76). -/
theorem exec_blind {i : Instr} (hi : usesSource i = false) : ∃ f, Blind f ∧ ∀ t, exec i t = .next (f t) := by
  cases i with
  | clrs v => exact ⟨_, blind_refreshFull.comp ((blind_fillPrev v).comp (blind_fillScreen v)), fun _ => rfl⟩
  | wsb v => exact ⟨_, blind_fillScreen v, fun _ => rfl⟩
  | wsba v =>
    exact ⟨_, .ite (c := fun s => s.panel.hasPrev) (fun _ _ _ _ => rfl) ((blind_fill .prev v).comp blind_modeStepFill)
      ((blind_fill .cur v).comp blind_modeStepFill), fun _ => rfl⟩
  | rfsh par =>
    exact ⟨_, .ite (c := fun _ => par) (fun _ _ _ _ => rfl) (fun s => blind_refreshRect (panelRect s.panel) s) blind_refreshFull, fun _ => rfl⟩
  | rfshr => exact ⟨_, fun s => blind_refreshRect s.rect s, fun _ => rfl⟩
  | pwroff => exact ⟨_, blind_powerOffProc, fun _ => rfl⟩
  | hiber =>
    have hsleep : Blind deepSleep := fun _ _ _ _ => rfl
    exact ⟨_, .ite (c := State.hibernating) (fun _ _ _ _ => rfl) blind_id (.ite (c := fun s => s.panel.hasReset) (fun _ _ _ _ => rfl)
      (hsleep.comp blind_powerOffProc) blind_powerOffProc), fun _ => rfl⟩
  | wimg | wimgp | wimg4 | wimgp4 | dimg | dimgp | dimg4 | dimgp4 => cases hi

theorem exec_mapSources_of_blind {F : SourceMap} {i : Instr} (hi : usesSource i = false) (s : State) :
    exec i (s.mapSources F) = mapNext (State.mapSources F) (exec i s) := by
  obtain ⟨f, hf, e⟩ := exec_blind hi
  rw [e, e, hf.mapSources (exec_host (e s))]
  rfl

/-! ### The footprint (R121) -/

/-- Other source memories, the same racing stores. -/
def replaceMap (ram pgm : List Host.Cell) : SourceMap := ⟨fun _ => ram, fun _ => pgm, id⟩

/-- The two states list the same bytes in the footprint of a picture, which is an address of `s`. -/
def SameFootprint (s s' : State) (sp : Space) (g : Geom) (mir : Bool) (b : Bpp) : Prop :=
  ∀ i : Nat, (i : Int) < g.h1 → ∀ q : Int,
    (g.xs + g.dx) / pixelsPerByte b ≤ q → q ≤ (g.xs + g.dx + g.w1 - 1) / pixelsPerByte b →
      let a := s.srcAddr + srcRow g mir i * stride g.wb (bppBitsPer b) + q
      cellGet (s'.memory sp) a.toNat = cellGet (s.memory sp) a.toNat

/-- The bytes of a window are those of its rows and columns. -/
theorem windowBytes_congr {g : Geom} {f f' : Nat → Nat → Option Byte}
    (h : ∀ i jb : Nat, (i : Int) < g.h1 → 8 * ((jb : Int) + 1) ≤ g.w1 → f i jb = f' i jb) : windowBytes g f = windowBytes g f' := by
  refine congrArg allSome (List.flatMap_congr fun i hi => List.map_congr_left fun jb hj => ?_)
  obtain ⟨hrow, hcol⟩ := mem_window hi hj
  exact h i jb hrow hcol

section
variable {s t : State} {ram pgm : List Host.Cell} {m : ReadMode} {g : Geom} {b : Bpp} (hr : s.racing = [])
  (h : SameFootprint s (s.mapSources (replaceMap ram pgm)) m.space g m.mir b)
include hr h

/-- A read in a row and a column of the window. -/
theorem memRead_footprint (ht : SameHostSide s t) (tag : ReadTag) {i : Nat} (hi : (i : Int) < g.h1) {c : Int}
    (h0 : g.xs + g.dx ≤ c) (h1 : c ≤ g.xs + g.dx + g.w1 - 1) :
    memRead (t.mapSources (replaceMap ram pgm)) m.space tag (pixelAddr t g b (srcRow g m.mir i) c) =
      memRead t m.space tag (pixelAddr t g b (srcRow g m.mir i) c) := by
  have hp : (0 : Int) < pixelsPerByte b := by cases b <;> simp [pixelsPerByte]
  have hcell : cellGet ((s.mapSources (replaceMap ram pgm)).memory m.space) (pixelAddr s g b (srcRow g m.mir i) c).toNat =
      cellGet (s.memory m.space) (pixelAddr s g b (srcRow g m.mir i) c).toNat :=
    h i hi (c / pixelsPerByte b) (Int.ediv_le_ediv hp h0) (Int.ediv_le_ediv hp h1)
  have hmem : (t.mapSources (replaceMap ram pgm)).memory m.space = (s.mapSources (replaceMap ram pgm)).memory m.space := by
    cases m.space <;> rfl
  have haddr : pixelAddr t g b (srcRow g m.mir i) c = pixelAddr s g b (srcRow g m.mir i) c := by simp only [pixelAddr, ht.srcAddr]
  have hquiet : t.racing = [] := ht.racing.trans hr
  rw [memRead_eq_cellGet (s := t.mapSources (replaceMap ram pgm)) hquiet, memRead_eq_cellGet hquiet, haddr, hmem, ht.memory, hcell]

theorem packsSame_grey : PacksSame (replaceMap ram pgm) s (fun t q => greyBytes t q g b m) fun t q => greyBytes t q g b m := fun t ht q => by
  refine windowBytes_congr fun i jb hi hj => congrArg (Option.map packBits) (congrArg allSome (List.map_congr_left fun k hk => ?_))
  have hk : k < 8 := List.mem_range.mp hk
  exact congrArg (Option.map _) (congrArg (Option.map _) (memRead_footprint hr h ht _ hi (by omega) (by omega)))

end

theorem packsSame_mono {s : State} {ram pgm : List Host.Cell} {m : ReadMode} {g : Geom} (hr : s.racing = [])
    (h : SameFootprint s (s.mapSources (replaceMap ram pgm)) m.space g m.mir .one) :
    PacksSame (replaceMap ram pgm) s (fun t q => monoBytes t q g m) fun t q => monoBytes t q g m := fun _ ht _ =>
  windowBytes_congr fun _ _ hi _ => congrArg (Option.map _) (memRead_footprint hr h ht _ hi (by omega) (by omega))

/-- Settles O48: an image command packs the same bytes, every column of its window being read in the footprint; any other command reads none. -/
theorem onlyTheFootprintIsRead : Obligations.OnlyTheFootprintIsRead := by
  intro i s ram pgm hr s' hfoot
  change exec i (s.mapSources (replaceMap ram pgm)) = mapNext (State.mapSources (replaceMap ram pgm)) (exec i s)
  have hmono (g : Geom) (m : ReadMode) (hc : pictureOf i s = some ⟨g, m, .one⟩) := packsSame_mono (m := m) (g := g) hr (hfoot _ hc)
  have hgrey (g : Geom) (m : ReadMode) (b : Bpp) (hc : pictureOf i s = some ⟨g, m, b⟩) := packsSame_grey (m := m) (g := g) hr (hfoot _ hc)
  cases i with
  | wimg =>
    simp only [exec, execWimg]
    exact follows_image fun g hg => follows_monoWrite (hmono g _ (by simp [pictureOf, hg]))
  | wimgp =>
    simp only [exec, execWimgp]
    exact follows_part 8 fun g hg => follows_monoWrite (hmono g _ (by simp [pictureOf, hg]))
  | dimg =>
    simp only [exec, execDimg]
    exact follows_image fun g hg => follows_monoDraw (hmono g _ (by simp [pictureOf, hg]))
  | dimgp =>
    simp only [exec, execDimgp]
    exact follows_part 8 fun g hg => follows_monoDraw (hmono g _ (by simp [pictureOf, hg]))
  | wimg4 =>
    simp only [exec, execWimg4]
    exact follows_needsPrev fun hp => follows_image fun g hg => follows_greyWrite (hgrey g _ _ (by simp [pictureOf, hp, hg]))
  | wimgp4 =>
    simp only [exec, execWimgp4]
    exact follows_needsPrev fun hp => follows_part _ fun g hg => follows_greyWrite (hgrey g _ _ (by simp [pictureOf, hp, hg]))
  | dimg4 =>
    simp only [exec, execDimg4]
    exact follows_needsPrev fun hp => follows_image fun g hg => follows_greyDraw (hgrey g _ _ (by simp [pictureOf, hp, hg]))
  | dimgp4 =>
    simp only [exec, execDimgp4]
    exact follows_needsPrev fun hp => follows_part _ fun g hg => follows_greyDraw (hgrey g _ _ (by simp [pictureOf, hp, hg]))
  | clrs | wsb | wsba | rfsh | rfshr | pwroff | hiber => exact exec_mapSources_of_blind rfl s

end Sys2Proof.Machine
end

section
/-! PROOF. The mode machine: every update in the trace keeps finding its controller (O57), and what `PWROFF` does (O39). -/

namespace Sys2Proof.Machine

variable {s t : State}

/-! ### The updates of the trace -/

/-- The updates so far are in order exactly when the trace leads the link to one that agrees with the engine's belief. -/
theorem updatesOk_iff : UpdatesOk s ↔ ∃ k, linkRun s.panel s.trace (some ⟨none, false⟩) = some k ∧ k.Agrees s.life := .rfl

/-- A legal run continues a trace whose updates are in order (R130, R143, R190, R191). -/
theorem Legal.updatesOk (h : Legal s t) (hs : UpdatesOk s) : UpdatesOk t := by
  obtain ⟨evs, d, hd, -, hlink⟩ := h
  obtain ⟨k, hk, hagrees⟩ := updatesOk_iff.mp hs
  obtain ⟨k', hk', hagrees'⟩ := hlink k hagrees
  refine updatesOk_iff.mpr ⟨k', ?_, hagrees'⟩
  rw [hd.host.panel, hd.trace, linkRun_append, hk, hk']

theorem SameEngine.updatesOk (h : SameEngine s t) (hs : UpdatesOk s) : UpdatesOk t := by
  rw [updatesOk_iff, h.panel, h.trace, h.life]
  exact updatesOk_iff.mp hs

/-- Block reset leaves the empty trace, power off and no init done (R29, R230). -/
theorem blockReset_updatesOk (b : Bool) (v : State) : UpdatesOk (blockReset b v) := ⟨⟨none, false⟩, rfl, rfl, nofun⟩

/-- Settles O57: a command's events are a legal run, which leads an agreeing link to an agreeing one; block reset leaves the empty trace. -/
theorem updatesKept : Obligations.UpdatesKept := fun _ _ hc =>
  step_keeps SameEngine.updatesOk (fun _ hleg _ => hleg.updatesOk) blockReset_updatesOk hc

/-! ### Power-off -/

/-- `EnsurePower` turns on a power that is off (R143). -/
theorem powerEvents_of_off {l : Life} (h : l.powerIsOn = false) : powerEvents l = [.seq .powerOn, .wait .pon] := by
  simp [powerEvents, h]

/-- `PowerOffProc` changes nothing of the state when power is off (R144). -/
theorem powerOffProc_of_off (h : s.powerIsOn = false) : powerOffProc s = s := by
  simp [powerOffProc, h]

/-- Settles O39: `PWROFF` is `PowerOffProc`, which does nothing where power is off and leaves it off everywhere. -/
theorem pwroffResult : Obligations.PwroffResult := fun s =>
  have hoff : (powerOffLife s.panel s.life).powerIsOn = false := (powerOffLife_keeps s.panel s.life).1
  ⟨opcField_encode .pwroff, completes_pwroff s, powerEvents_of_off hoff, fun h => congrArg Host.Outcome.next (powerOffProc_of_off h)⟩

end Sys2Proof.Machine
end

section
/-! PROOF. The write commands: the fills `WSB` (O30) and `WSBA` (O31), the image writes `WIMG`, `WIMGP` (O33) and `WIMG4`, `WIMGP4` (O34), and that none
of them waits, updates or switches power (O43). -/

namespace Sys2Proof.Machine

variable {i : Instr} {p : Panel} {q : Plane} {v : Byte} {s t : State} {l : Life} {evs lead : List Event} {d : Bool} {m : ReadMode} {g : Geom}
  {b : Bpp}

/-- What a completed command did, said of the state that `exec` answers. -/
theorem Completes.did (h : Completes i s evs d l) (e : exec i s = .next t) : Did evs d s t ∧ t.life = l := by
  obtain ⟨t', e', hdid, hlife⟩ := h
  obtain rfl : t' = t := Host.Outcome.next.inj (e'.symm.trans e)
  exact ⟨hdid, hlife⟩

/-! ### A filled plane -/

/-- A plane with a byte in it is a window the engine may emit. -/
theorem planeRect_window_of_pos (h : 0 < planeBytes p) : WindowOk p (planeRect p) := by
  have hcols := Nat.pos_of_mul_pos_right h
  have hrows := Nat.pos_of_mul_pos_left h
  have hmod := planeW_mod p
  have hbytes := planeWB_eq p
  unfold planeRect
  refine ⟨?_, ?_, ?_, ?_, ?_, ?_, ?_, ?_⟩ <;> simp only <;> omega

/-- Byte `k` of a plane is byte `k mod PLANE_WB` of row `k div PLANE_WB` of the whole plane (R56). -/
theorem planeNo_planeRect (p : Panel) (k : Nat) : planeNo p (planeRect p) (k / planeWB p) (k % planeWB p) = k := by
  simpa [planeNo, planeRect] using Nat.div_add_mod' k (planeWB p)

/-- After `Fill(q, v)` every byte of plane `q` is `v` (R56, R111). -/
theorem fillEvents_byteAt {c : Controller} (hc : c.lost = false) {k : Nat} (hk : k < planeBytes p) :
    ((fillEvents p q v).foldl (Controller.act p) c).byteAt q k = v := by
  have hpos : 0 < planeBytes p := by omega
  have hcols : ((planeRect p).w / 8).toNat = planeWB p := rfl
  have hrows : (planeRect p).h.toNat = p.height := rfl
  have hlen : (List.replicate (planeBytes p) v).length = (planeRect p).h.toNat * ((planeRect p).w / 8).toNat := by
    rw [List.length_replicate, hcols, hrows, planeBytes, Nat.mul_comm]
  obtain ⟨⟨hbyte, -⟩, -⟩ := planeStream_lands (q := q) (planeRect_window_of_pos hpos) hc hlen
  have hcol : k % planeWB p < planeWB p := Nat.mod_lt _ (Nat.pos_of_mul_pos_right hpos)
  have hrow : k / planeWB p < p.height := Nat.div_lt_of_lt_mul hk
  have hk' := hbyte _ _ hrow hcol
  rw [planeNo_planeRect, hcols, Nat.div_add_mod'] at hk'
  rw [fillEvents, hk', List.getD_replicate _ hk]

/-- A command that ends with a fill leaves the plane filled, whatever came before; so a second one changes no byte of it (R57, R163). -/
theorem Completes.fills (h : Completes i s (lead ++ fillEvents s.panel q v) d l) (e : exec i s = .next t) (hlost : t.ctl.lost = false)
    {k : Nat} (hk : k < planeBytes s.panel) : t.ctl.byteAt q k = v := by
  obtain ⟨hdid, -⟩ := h.did e
  obtain ⟨hlost₀, hctl⟩ := hdid.planes hlost
  rw [hctl, List.foldl_append]
  exact fillEvents_byteAt (by simpa using hlost₀) hk

/-- Settles O30: `WSB` completes by the fill table, and its last events are the fill. -/
theorem wsbFillsCurrentPlane : Obligations.WsbFillsCurrentPlane := fun _ v hc =>
  have h := completes_wsb v hc.lifeOk
  ⟨opcField_encode (.wsb v), h, fun _ e hlost _ hk => h.fills e hlost hk⟩

/-- Settles O31: `WSBA` completes by the fill table, and its last events are the fill of the previous plane, or of the only one. -/
theorem wsbaFillsPreviousPlane : Obligations.WsbaFillsPreviousPlane := fun _ v hc =>
  have h := completes_wsba v hc.lifeOk
  ⟨opcField_encode (.wsba v), h, fun _ e hlost _ hk => h.fills e hlost hk⟩

/-! ### The image writes -/

/-- A mono write whose footprint is readable, with no racing store (R160, R165, R166). -/
theorem Completes.of_monoWrite (hi : exec i s = monoWrite m g s) (hl : LifeOk s.life) (hcol : (g.xs + g.dx) % 8 = 0)
    (hwin : WindowOk s.panel g.rect) (hr : Readable s m.space g m.mir .one) (hquiet : s.racing = []) :
    Completes i s (monoLead s.panel s.life ++ planeStream .cur g.rect (monoPixels s m g)) false (monoLife s.life) := by
  rcases monoWrite_cases hcol (geom_width hwin).1 hl (m := m) with ⟨-, bytes, t, hbytes, e, hdid, hlife⟩ | ⟨hn, -⟩
  · rw [hbytes.quiet hquiet] at hdid
    exact ⟨t, hi.trans e, hdid, hlife⟩
  · exact absurd hr hn

/-- A 4G write whose footprint is readable, with no racing store (R160, R167, R168). -/
theorem Completes.of_greyWrite (hi : exec i s = greyWrite b m g s) (hl : LifeOk s.life) (hwin : WindowOk s.panel g.rect)
    (hr : Readable s m.space g m.mir b) (hquiet : s.racing = []) :
    Completes i s
      (greyLead s.panel s.life ++ (planeStream .cur g.rect (greyPixels s .cur b m g) ++ planeStream .prev g.rect (greyPixels s .prev b m g)))
      false (greyLife s.life) := by
  rcases greyWrite_cases (geom_width hwin) hl (b := b) (m := m) with ⟨-, cur, prev, t, hcur, hprev, e, hdid, hlife⟩ | ⟨hn, -⟩
  · rw [hcur.quiet hquiet, hprev.quiet hquiet] at hdid
    exact ⟨t, hi.trans e, hdid, hlife⟩
  · exact absurd hr hn

theorem exec_wimg (inv mir pgm : Bool) (s : State) :
    exec (.wimg inv mir pgm) s = onGeom (imageGeom s) (monoWrite ⟨inv, mir, spaceOf pgm⟩) s := rfl

theorem exec_wimgp (inv mir pgm : Bool) (s : State) :
    exec (.wimgp inv mir pgm) s = onGeom (partGeom s 8) (monoWrite ⟨inv, mir, spaceOf pgm⟩) s := rfl

theorem exec_wimg4 (b : Bpp) (inv mir pgm : Bool) (s : State) :
    exec (.wimg4 b inv mir pgm) s = needsPrev (fun t => onGeom (imageGeom t) (greyWrite b ⟨inv, mir, spaceOf pgm⟩) t) s := rfl

theorem exec_wimgp4 (b : Bpp) (inv mir pgm : Bool) (s : State) :
    exec (.wimgp4 b inv mir pgm) s = needsPrev (fun t => onGeom (partGeom t (unitOf b)) (greyWrite b ⟨inv, mir, spaceOf pgm⟩) t) s := rfl

theorem onGeom_some {o : Option Geom} (h : o = some g) (k : Geom → State → Out) : onGeom o k s = k g s := by rw [h]; rfl

/-- Settles O33: a mono write is `onGeom` of its geometry, which drops or gives a window of whole bytes. -/
theorem monoWriteResult : Obligations.MonoWriteResult := by
  intro s inv mir pgm hc m dropped
  have hl := hc.lifeOk
  have hi := exec_wimg inv mir pgm s
  have hip := exec_wimgp inv mir pgm s
  refine ⟨⟨opcField_encode (.wimg inv mir pgm), opcField_encode (.wimgp inv mir pgm)⟩, fun h => ?_, fun g hg hr hq => ?_, fun h => ?_,
    fun g hg hr hq => ?_⟩
  · exact hi.trans (onGeom_empty h _)
  · exact .of_monoWrite (hi.trans (onGeom_some hg _)) hl (imageGeom_columns hg) (imageGeom_window hg) hr hq
  · exact hip.trans (onGeom_empty h _)
  · exact .of_monoWrite (hip.trans (onGeom_some hg _)) hl (partGeom_columns hg) (partGeom_window hg) hr hq

/-- Settles O34: a 4G write is reserved on one plane; on two it is `onGeom` of its geometry, which drops or gives a window. -/
theorem greyWriteResult : Obligations.GreyWriteResult := by
  intro s b inv mir pgm hc m dropped illegal streams
  have hl := hc.lifeOk
  refine ⟨⟨opcField_encode (.wimg4 b inv mir pgm), opcField_encode (.wimgp4 b inv mir pgm)⟩,
    fun hp => ⟨exec_illegal ⟨rfl, hp⟩, exec_illegal ⟨rfl, hp⟩⟩, fun hp => ?_⟩
  have hi := (exec_wimg4 b inv mir pgm s).trans (needsPrev_of_hasPrev hp _)
  have hip := (exec_wimgp4 b inv mir pgm s).trans (needsPrev_of_hasPrev hp _)
  refine ⟨fun h => ?_, fun g hg hr hq => ?_, fun h => ?_, fun g hg hr hq => ?_⟩
  · exact hi.trans (onGeom_empty h _)
  · exact .of_greyWrite (hi.trans (onGeom_some hg _)) hl (imageGeom_window hg) hr hq
  · exact hip.trans (onGeom_empty h _)
  · exact .of_greyWrite (hip.trans (onGeom_some hg _)) hl (partGeom_window hg) hr hq

/-! ### What a write sends: inits and streams -/

/-- An event a write can send: the wake-up, an init sequence, and those of a stream (R131 to R139, R160). -/
def Event.ofWrite : Event → Bool
  | .seq .initFull | .seq .initPart | .seq .initGrey => true
  | .seq .powerOn | .seq .powerOff | .seq .deepSleep | .seq .updateFull | .seq .updatePart | .seq .updateGrey => false
  | .window _ | .planeSel _ | .start | .xfer _ | .stop | .reset => true
  | .wait _ => false

theorem planeStream_ofWrite (q : Plane) (r : Rect) (bytes : List Byte) : (planeStream q r bytes).all Event.ofWrite = true := by
  simp [planeStream, Event.ofWrite]

theorem ensureEvents_ofWrite (l : Life) : (ensureEvents l).all Event.ofWrite = true := by
  unfold ensureEvents
  split <;> [rfl; (split <;> rfl)]

theorem fillTable_ofWrite (n : Mode) : (fillTable n).1.all Event.ofWrite = true := by cases n <;> rfl

theorem monoTable_ofWrite (n : Mode) : (monoTable n).1.all Event.ofWrite = true := by cases n <;> rfl

theorem fillLead_ofWrite (p : Panel) (l : Life) (q : Plane) (v : Byte) :
    (ensureEvents l ++ (fillTable l.mode).1 ++ fillEvents p q v).all Event.ofWrite = true := by
  simp only [List.all_append, ensureEvents_ofWrite, fillTable_ofWrite, fillEvents, planeStream_ofWrite, Bool.and_self]

theorem bothFills_ofWrite (p : Panel) (v : Byte) : (bothFills p v).all Event.ofWrite = true := by
  unfold bothFills fillEvents
  split <;> simp only [List.all_append, planeStream_ofWrite, List.all_nil, Bool.and_self]

theorem preludeEvents_ofWrite (p : Panel) (l : Life) : (preludeEvents p l).all Event.ofWrite = true := by
  unfold preludeEvents
  split <;> simp only [List.all_append, ensureEvents_ofWrite, fillTable_ofWrite, bothFills_ofWrite, List.all_nil, Bool.and_self]

theorem monoLead_ofWrite (p : Panel) (l : Life) : (monoLead p l).all Event.ofWrite = true := by
  simp only [monoLead, List.all_append, preludeEvents_ofWrite, monoTable_ofWrite, Bool.and_self]

theorem greyLead_ofWrite (p : Panel) (l : Life) : (greyLead p l).all Event.ofWrite = true := by
  simp only [greyLead, List.all_append, preludeEvents_ofWrite, Bool.true_and]
  rfl

/-- Nothing a write sends is waited for. -/
theorem waits_of_ofWrite (h : evs.all Event.ofWrite = true) : evs.countP Event.isWait = 0 :=
  List.countP_eq_zero.mpr fun e he hw => by
    have hsent := List.all_eq_true.mp h e he
    cases e with
    | wait c => cases hsent
    | seq _ | window _ | planeSel _ | start | xfer _ | stop | reset => cases hw

/-- Between the two states nothing was sent but what a write can send, and power, `initial_refresh`, `TIMEOUT` and the answers stayed (R160). -/
structure OnlyWrote (s t : State) : Prop where
  power : t.powerIsOn = s.powerIsOn
  refresh : t.initialRefresh = s.initialRefresh
  timeout : t.diag.timeout = s.diag.timeout
  answers : t.answers = s.answers
  sent : ∃ evs, t.trace = s.trace ++ evs ∧ evs.all Event.ofWrite = true

/-- A run of such events that leaves power and the first refresh as they were. -/
theorem OnlyWrote.of_did (h : Did evs d s t) (hevs : evs.all Event.ofWrite = true) (hlife : t.life = l)
    (hpower : l.powerIsOn = s.life.powerIsOn) (hrefresh : l.initialRefresh = s.life.initialRefresh) : OnlyWrote s t :=
  have ⟨htimeout, hanswers⟩ := (waits_of_ofWrite hevs ▸ h.waits).unwaited
  { power := (congrArg Life.powerIsOn hlife).trans hpower
    refresh := (congrArg Life.initialRefresh hlife).trans hrefresh
    timeout := htimeout
    answers := hanswers
    sent := ⟨evs, h.trace, hevs⟩ }

theorem onlyWrote_setIllegal (s : State) : OnlyWrote s (setIllegal s) := ⟨rfl, rfl, rfl, rfl, [], by simp, rfl⟩

/-- A mono write that goes on (R165, R166). -/
theorem onlyWrote_monoWrite (hl : LifeOk s.life) (hcol : (g.xs + g.dx) % 8 = 0) (hwin : WindowOk s.panel g.rect)
    (e : monoWrite m g s = .next t) : OnlyWrote s t := by
  rcases monoWrite_cases hcol (geom_width hwin).1 hl (m := m) with ⟨-, bytes, t', -, e', hdid, hlife⟩ | ⟨-, e'⟩
  · obtain rfl : t' = t := Host.Outcome.next.inj (e'.symm.trans e)
    exact .of_did hdid (by simp only [List.all_append, monoLead_ofWrite, planeStream_ofWrite, Bool.and_self]) hlife rfl rfl
  · rw [e] at e'; cases e'

/-- A 4G write that goes on (R167, R168). -/
theorem onlyWrote_greyWrite (hl : LifeOk s.life) (hwin : WindowOk s.panel g.rect) (e : greyWrite b m g s = .next t) : OnlyWrote s t := by
  rcases greyWrite_cases (geom_width hwin) hl (b := b) (m := m) with ⟨-, cur, prev, t', -, -, e', hdid, hlife⟩ | ⟨-, e'⟩
  · obtain rfl : t' = t := Host.Outcome.next.inj (e'.symm.trans e)
    exact .of_did hdid (by simp only [List.all_append, greyLead_ofWrite, planeStream_ofWrite, Bool.and_self]) hlife rfl rfl
  · rw [e] at e'; cases e'

/-- A rectangle command that drops, or writes on its geometry. -/
theorem onlyWrote_onGeom {o : Option Geom} {k : Geom → State → Out} (e : onGeom o k s = .next t)
    (hk : ∀ g, o = some g → k g s = .next t → OnlyWrote s t) : OnlyWrote s t := by
  rcases onGeom_next e with ⟨-, rfl⟩ | ⟨g, hg, e⟩
  · exact .of_did (did_setDrop s) rfl rfl rfl rfl
  · exact hk g hg e

/-- A 4G command that is reserved, or writes. -/
theorem onlyWrote_needsPrev {k : State → Out} (e : needsPrev k s = .next t) (hk : k s = .next t → OnlyWrote s t) : OnlyWrote s t := by
  unfold needsPrev at e
  split at e
  · exact hk e
  · obtain rfl : setIllegal s = t := Host.Outcome.next.inj e
    exact onlyWrote_setIllegal s

theorem Completes.onlyWrote (h : Completes i s evs d l) (e : exec i s = .next t) (hevs : evs.all Event.ofWrite = true)
    (hpower : l.powerIsOn = s.life.powerIsOn) (hrefresh : l.initialRefresh = s.life.initialRefresh) : OnlyWrote s t :=
  have ⟨hdid, hlife⟩ := h.did e
  .of_did hdid hevs hlife hpower hrefresh

/-- An event a write can send is no `Wait`, power sequence or update. -/
theorem Event.ne_of_ofWrite {e : Event} (h : e.ofWrite = true) :
    (∀ c, e ≠ .wait c) ∧ ∀ n, n = .powerOn ∨ n = .powerOff ∨ n = .updateFull ∨ n = .updatePart ∨ n = .updateGrey → e ≠ .seq n := by
  refine ⟨?_, ?_⟩
  · rintro c rfl
    cases h
  · rintro n (rfl | rfl | rfl | rfl | rfl) rfl <;> cases h

/-- Settles O43: each of the six commands only writes. -/
theorem writesNeitherWaitNorRefresh : Obligations.WritesNeitherWaitNorRefresh := by
  intro i s t hc hi e
  have hl := hc.lifeOk
  obtain ⟨hpower, hrefresh, htimeout, hanswers, evs, htrace, hevs⟩ : OnlyWrote s t := by
    rcases hi with ⟨v, rfl | rfl⟩ | ⟨b, inv, mir, pgm, rfl | rfl | rfl | rfl⟩
    · exact (completes_wsb v hl).onlyWrote e (fillLead_ofWrite _ _ _ _) rfl rfl
    · exact (completes_wsba v hl).onlyWrote e (fillLead_ofWrite _ _ _ _) rfl rfl
    · rw [exec_wimg] at e
      exact onlyWrote_onGeom e fun g hg => onlyWrote_monoWrite hl (imageGeom_columns hg) (imageGeom_window hg)
    · rw [exec_wimgp] at e
      exact onlyWrote_onGeom e fun g hg => onlyWrote_monoWrite hl (partGeom_columns hg) (partGeom_window hg)
    · rw [exec_wimg4] at e
      exact onlyWrote_needsPrev e fun e => onlyWrote_onGeom e fun g hg => onlyWrote_greyWrite hl (imageGeom_window hg)
    · rw [exec_wimgp4] at e
      exact onlyWrote_needsPrev e fun e => onlyWrote_onGeom e fun g hg => onlyWrote_greyWrite hl (partGeom_window hg)
  exact ⟨hpower, hrefresh, htimeout, hanswers, evs, htrace, fun e he => Event.ne_of_ofWrite (List.all_eq_true.mp hevs e he)⟩

end Sys2Proof.Machine
end

section
/-! PROOF. The refresh and draw commands: `CLRS` (O32), the draws `DIMG`, `DIMGP` (O35) and `DIMG4`, `DIMGP4` (O36), and the refreshes `RFSH` (O37)
and `RFSHR` (O38). -/

namespace Sys2Proof.Machine

variable {i : Instr} {p : Panel} {q q' : Plane} {v : Byte} {c : Controller} {s t : State} {l : Life} {lead tail : List Event} {d : Bool}
  {m : ReadMode} {g : Geom} {b : Bpp}

/-! ### `CLRS` -/

/-- A fill changes no byte of the other plane (R56, R111). -/
theorem fillEvents_samePlane (hc : c.lost = false) (hpos : 0 < planeBytes p) (hq : q' ≠ q) :
    SamePlane q' c ((fillEvents p q v).foldl (Controller.act p) c) :=
  have hlen : (List.replicate (planeBytes p) v).length = (planeRect p).h.toNat * ((planeRect p).w / 8).toNat :=
    List.length_replicate.trans (Nat.mul_comm _ _)
  (planeStream_lands (planeRect_window_of_pos hpos) hc hlen).2 q' hq

/-- After both fills both planes hold `v`: the current plane is filled first, and the fill of the previous one leaves it (R56, R181). -/
theorem bothFills_byteAt (hc : c.lost = false) {k : Nat} (hk : k < planeBytes p) :
    ((bothFills p v).foldl (Controller.act p) c).byteAt .cur k = v ∧
      (p.hasPrev = true → ((bothFills p v).foldl (Controller.act p) c).byteAt .prev k = v) := by
  have hcur : ((fillEvents p .cur v).foldl (Controller.act p) c).byteAt .cur k = v := fillEvents_byteAt hc hk
  have hlost : ((fillEvents p .cur v).foldl (Controller.act p) c).lost = false := by simpa using hc
  unfold bothFills
  rw [List.foldl_append]
  by_cases hp : p.hasPrev = true
  · rw [if_pos hp]
    have hcurKept := fillEvents_samePlane (v := v) hlost (Nat.zero_lt_of_lt hk) (show Plane.cur ≠ .prev by decide)
    exact ⟨(hcurKept k).trans hcur, fun _ => fillEvents_byteAt hlost hk⟩
  · rw [if_neg hp]
    exact ⟨hcur, fun h => absurd h hp⟩

/-- A command that fills both planes, and afterwards sends only what keeps them, leaves them filled (R56, R57). -/
theorem Completes.fillsBoth (h : Completes i s (lead ++ bothFills s.panel v ++ tail) d l) (htail : ∀ e ∈ tail, e.keepsPlanes = true)
    (e : exec i s = .next t) (hlost : t.ctl.lost = false) {k : Nat} (hk : k < planeBytes s.panel) :
    t.ctl.byteAt .cur k = v ∧ (s.panel.hasPrev = true → t.ctl.byteAt .prev k = v) := by
  obtain ⟨hdid, -⟩ := h.did e
  obtain ⟨hlost₀, hctl⟩ := hdid.planes hlost
  rw [List.foldl_append, List.foldl_append] at hctl
  obtain ⟨hcur, hprev⟩ := bothFills_byteAt (v := v) (c := lead.foldl (Controller.act s.panel) s.ctl) (by simpa using hlost₀) hk
  have hsame := fun q => foldl_keepsPlanes (p := s.panel) tail htail
    ((bothFills s.panel v).foldl (Controller.act s.panel) (lead.foldl (Controller.act s.panel) s.ctl)) (by simpa using hlost₀) q k
  rw [hctl]
  exact ⟨(hsame .cur).trans hcur, fun hp => (hsame .prev).trans (hprev hp)⟩

/-- The mode step of a fill leaves grey mode, so the refresh after it takes its full-update branch (R137, R181, R190). -/
theorem fullTable_fillTable (p : Panel) (n : Mode) :
    (fullTable p (fillTable n).2).2 = ([.seq .updateFull, .wait .full], .fullRefresh) := by cases n <;> rfl

/-- `RefreshFull` in a ready state that a fill's mode step has left (R181, R190). -/
theorem fullEvents_of_fill (p : Panel) {n : Mode} (hr : Ready l) (hm : l.mode = (fillTable n).2) :
    fullEvents p l = (fullTable p l.mode).1 ++ powerEvents l ++ [.seq .updateFull, .wait .full] := by
  rw [fullEvents, ensureEvents_of_ready hr, hm, fullTable_fillTable, List.nil_append]

/-- Settles O32: `CLRS` is a fill of both planes and a full refresh, which finds no grey mode and sends nothing that changes a plane. -/
theorem clrsClearsAndRefreshes : Obligations.ClrsClearsAndRefreshes := by
  intro s v hc l
  have hr : Ready l := ⟨rfl, rfl⟩
  have h : Completes (.clrs v) s (ensureEvents s.life ++ (fillTable s.mode).1 ++ bothFills s.panel v ++ fullEvents s.panel l) false
      (fullLife s.panel l) := completes_clrs v hc.lifeOk
  refine ⟨opcField_encode (.clrs v), ?_, fun t e hlost k hk => h.fillsBoth (fullEvents_keepsPlanes hr.2) e hlost hk⟩
  have hlife : fullLife s.panel l = ⟨.fullRefresh, true, false, false, false, true⟩ := by
    rw [fullLife, show l.mode = (fillTable s.mode).2 from rfl, fullTable_fillTable]
  rw [hlife, fullEvents_of_fill s.panel hr rfl, ← List.append_assoc, ← List.append_assoc] at h
  exact h

/-! ### The draws -/

/-- A mono draw whose footprint is readable, with no racing store (R182, R183, R192). -/
theorem Completes.of_monoDraw (hi : exec i s = monoDraw m g s) (hl : LifeOk s.life) (hcol : (g.xs + g.dx) % 8 = 0)
    (hwin : WindowOk s.panel g.rect) (hr : Readable s m.space g m.mir .one) (hquiet : s.racing = []) :
    Completes i s
      (monoLead s.panel s.life ++ planeStream .cur g.rect (monoPixels s m g) ++ refreshEvents s.panel (monoLife s.life) s.rect ++
        againEvents s.panel (refreshLife s.panel (monoLife s.life) s.rect) (planeStream .prev g.rect (monoPixels s m g)))
      (refreshDrops s.panel (monoLife s.life) s.rect) (againLife s.panel (refreshLife s.panel (monoLife s.life) s.rect)) := by
  rcases monoDraw_cases hcol (geom_width hwin).1 hl (m := m) with ⟨-, cur, prev, t, hcur, hprev, e, hdid, hlife⟩ | ⟨hn, -⟩
  · rw [hcur.quiet hquiet, hprev.quiet hquiet] at hdid
    exact ⟨t, hi.trans e, hdid, hlife⟩
  · exact absurd hr hn

/-- A 4G draw whose footprint is readable, with no racing store (R184, R185). -/
theorem Completes.of_greyDraw (hi : exec i s = greyDraw b m g s) (hl : LifeOk s.life) (hwin : WindowOk s.panel g.rect)
    (hr : Readable s m.space g m.mir b) (hquiet : s.racing = []) :
    Completes i s
      (greyLead s.panel s.life ++
        (planeStream .cur g.rect (greyPixels s .cur b m g) ++ planeStream .prev g.rect (greyPixels s .prev b m g)) ++
        refreshEvents s.panel (greyLife s.life) s.rect)
      (refreshDrops s.panel (greyLife s.life) s.rect) (refreshLife s.panel (greyLife s.life) s.rect) := by
  rcases greyDraw_cases (geom_width hwin) hl (b := b) (m := m) with ⟨-, cur, prev, t, hcur, hprev, e, hdid, hlife⟩ | ⟨hn, -⟩
  · rw [hcur.quiet hquiet, hprev.quiet hquiet] at hdid
    exact ⟨t, hi.trans e, hdid, hlife⟩
  · exact absurd hr hn

theorem exec_dimg (inv mir pgm : Bool) (s : State) :
    exec (.dimg inv mir pgm) s = onGeom (imageGeom s) (monoDraw ⟨inv, mir, spaceOf pgm⟩) s := rfl

theorem exec_dimgp (inv mir pgm : Bool) (s : State) :
    exec (.dimgp inv mir pgm) s = onGeom (partGeom s 8) (monoDraw ⟨inv, mir, spaceOf pgm⟩) s := rfl

theorem exec_dimg4 (b : Bpp) (inv mir pgm : Bool) (s : State) :
    exec (.dimg4 b inv mir pgm) s = needsPrev (fun t => onGeom (imageGeom t) (greyDraw b ⟨inv, mir, spaceOf pgm⟩) t) s := rfl

theorem exec_dimgp4 (b : Bpp) (inv mir pgm : Bool) (s : State) :
    exec (.dimgp4 b inv mir pgm) s = needsPrev (fun t => onGeom (partGeom t (unitOf b)) (greyDraw b ⟨inv, mir, spaceOf pgm⟩) t) s := rfl

/-- Settles O35: a mono draw is `onGeom` of its geometry, which drops or gives a window of whole bytes. -/
theorem monoDrawResult : Obligations.MonoDrawResult := by
  intro s inv mir pgm hc m dropped l events
  have hl := hc.lifeOk
  have hi := exec_dimg inv mir pgm s
  have hip := exec_dimgp inv mir pgm s
  refine ⟨⟨opcField_encode (.dimg inv mir pgm), opcField_encode (.dimgp inv mir pgm)⟩, fun h => ?_, fun g hg hr hq => ?_, fun h => ?_,
    fun g hg hr hq => ?_⟩
  · exact hi.trans (onGeom_empty h _)
  · exact .of_monoDraw (hi.trans (onGeom_some hg _)) hl (imageGeom_columns hg) (imageGeom_window hg) hr hq
  · exact hip.trans (onGeom_empty h _)
  · exact .of_monoDraw (hip.trans (onGeom_some hg _)) hl (partGeom_columns hg) (partGeom_window hg) hr hq

/-- Settles O36: a 4G draw is reserved on one plane; on two it is `onGeom` of its geometry, which drops or gives a window. -/
theorem greyDrawResult : Obligations.GreyDrawResult := by
  intro s b inv mir pgm hc m dropped illegal events
  have hl := hc.lifeOk
  refine ⟨⟨opcField_encode (.dimg4 b inv mir pgm), opcField_encode (.dimgp4 b inv mir pgm)⟩,
    fun hp => ⟨exec_illegal ⟨rfl, hp⟩, exec_illegal ⟨rfl, hp⟩⟩, fun hp => ?_⟩
  have hi := (exec_dimg4 b inv mir pgm s).trans (needsPrev_of_hasPrev hp _)
  have hip := (exec_dimgp4 b inv mir pgm s).trans (needsPrev_of_hasPrev hp _)
  refine ⟨fun h => ?_, fun g hg hr hq => ?_, fun h => ?_, fun g hg hr hq => ?_⟩
  · exact hi.trans (onGeom_empty h _)
  · exact .of_greyDraw (hi.trans (onGeom_some hg _)) hl (imageGeom_window hg) hr hq
  · exact hip.trans (onGeom_empty h _)
  · exact .of_greyDraw (hip.trans (onGeom_some hg _)) hl (partGeom_window hg) hr hq

/-! ### The refreshes -/

/-- The panel's own rectangle has the whole plane as its window, so its refresh is never dropped (R186, R191). -/
theorem refresh_panelRect (hp : PanelOk p) (l : Life) :
    refreshEvents p l (panelRect p) = (if redirectDue l then fullEvents p l else rectEvents l (planeRect p)) ∧
    refreshDrops p l (panelRect p) = false ∧
    refreshLife p l (panelRect p) =
      (if redirectDue l then fullLife p l else ⟨(rectTable l.mode).2.2, true, false, l.initialWrite, l.initialRefresh, true⟩) := by
  simp only [refreshEvents, refreshDrops, refreshLife, panelRect_refresh hp, Option.isNone_some, Bool.and_false, and_self]

/-- A redirected rectangle refresh is the full one, whatever the rectangle (R191, R215). -/
theorem refreshRect_redirected (h : redirected s = true) (r : Rect) : refreshRect r s = refreshFull s := if_pos h

theorem redirected_iff : redirected s = true ↔ s.initialRefresh = true ∨ s.mode = .forcedFullRefresh := by simp [redirected]

/-- Settles O37: `RFSH FULL` is `RefreshFull`, and `RFSH PART` is `RefreshRect` of a rectangle that is not empty. -/
theorem rfshResult : Obligations.RfshResult := by
  intro s hc
  refine ⟨fun par => opcField_encode (.rfsh par), completes_rfsh_full hc.lifeOk, fun hp => ?_⟩
  obtain ⟨hevents, hdrops, hlife⟩ := refresh_panelRect hp s.life
  have h := completes_rfsh_part hc.lifeOk
  rw [hevents, hdrops, hlife] at h
  exact h

/-- Settles O38: `RFSHR` is `RefreshRect`, which tests for the redirection before it looks at the rectangle. -/
theorem rfshrResult : Obligations.RfshrResult := by
  intro s hc
  refine ⟨opcField_encode .rfshr, completes_rfshr hc.lifeOk, fun h => ?_⟩
  have hfull := refreshRect_redirected (redirected_iff.mpr h)
  exact ⟨congrArg Host.Outcome.next (hfull s.rect), congrArg Host.Outcome.next (hfull (panelRect s.panel))⟩

end Sys2Proof.Machine
end

section
/-! PROOF. Hibernation: `HIBER` (O40), asleep, with a reset line and without one, and what the next `EnsureInit` finds. -/

namespace Sys2Proof.Machine

variable {s : State} {p : Panel} {l : Life}

/-- Asleep, `HIBER` changes nothing (R201(c)). -/
theorem exec_hiber_of_asleep (h : s.hibernating = true) : exec .hiber s = .next s := congrArg Host.Outcome.next (if_pos h)

/-- Asleep, power is off (R27 (I-b)), so `PWROFF` changes nothing either (R201(c)). -/
theorem exec_pwroff_of_asleep (hc : Coherent s) (h : s.hibernating = true) : exec .pwroff s = .next s :=
  have hoff : s.powerIsOn = false := (hc.lifeOk.2 h).1
  congrArg Host.Outcome.next (powerOffProc_of_off hoff)

/-- A controller that cannot be reset is not put to sleep: `HIBER` is `PWROFF` (R201). -/
theorem exec_hiber_of_no_reset (h : s.hibernating = false) (hr : s.panel.hasReset = false) : exec .hiber s = exec .pwroff s := by
  simp [exec, execHiber, execPwroff, h, hr]

/-- Put to sleep, the controller holds nothing: the next `EnsureInit` resets it and loads it afresh, whatever `MODE` was (R201(b)). -/
theorem ensureEvents_hiberLife (h : l.hibernating = false) (hr : p.hasReset = true) :
    ensureEvents (hiberLife p l) = [.reset, .seq .initFull] := by
  simp [hiberLife, ensureEvents, h, hr]

/-- Settles O40: `HIBER` completes by its table; the cases of R201 are asleep, a reset line, and none. -/
theorem hiberResult : Obligations.HiberResult := fun s =>
  ⟨opcField_encode .hiber, completes_hiber s, fun h => ⟨exec_hiber_of_asleep h, fun hc => exec_pwroff_of_asleep hc h⟩,
    ensureEvents_hiberLife (l := s.life), exec_hiber_of_no_reset⟩

end Sys2Proof.Machine
end

section
/-! PROOF. The exceptions of a command: it stops only where its picture cannot be read (O41), and sets at most one flag of `DIAG` (O51). -/

namespace Sys2Proof.Machine

variable {i : Instr} {p : Panel} {s t : State} {l n : Life} {evs : List Event} {d : Bool} {m : ReadMode} {g : Geom} {b : Bpp}

/-! ### Where a command stops -/

/-- An outcome that is a next state under the condition `R`, and the refusal of R41 and U6 without it. -/
def RefusedUnless (R : Prop) (o : Out) : Prop := (R ∧ ∃ t, o = .next t) ∨ (¬ R ∧ o = .refused .unreadableSource)

/-- What such an outcome says of going on and of refusals. -/
theorem RefusedUnless.outcome {R : Prop} {o : Out} (h : RefusedUnless R o) :
    ((∃ t, o = .next t) ↔ R) ∧ ∀ r, o = .refused r → r = .unreadableSource := by
  rcases h with ⟨hR, t, rfl⟩ | ⟨hR, rfl⟩
  · exact ⟨⟨fun _ => hR, fun _ => ⟨t, rfl⟩⟩, fun _ e => by cases e⟩
  · exact ⟨⟨fun ⟨_, e⟩ => (by cases e), fun h => absurd h hR⟩, fun _ e => (Host.Outcome.refused.inj e).symm⟩

/-- The form in which the image writes and draws are known: what they have done, under `R`, holds of a next state. -/
theorem RefusedUnless.of_cases {R A : Prop} {o : Out} (h : (R ∧ A) ∨ (¬ R ∧ o = .refused .unreadableSource)) (hA : A → ∃ t, o = .next t) :
    RefusedUnless R o := h.imp_left (And.imp_right hA)

section
variable (hl : LifeOk s.life) (hw : WindowOk s.panel g.rect)
include hl hw

theorem refusedUnless_monoWrite (hc : (g.xs + g.dx) % 8 = 0) : RefusedUnless (Readable s m.space g m.mir .one) (monoWrite m g s) :=
  .of_cases (monoWrite_cases hc (geom_width hw).1 hl) fun ⟨_, t, _, e, _⟩ => ⟨t, e⟩

theorem refusedUnless_monoDraw (hc : (g.xs + g.dx) % 8 = 0) : RefusedUnless (Readable s m.space g m.mir .one) (monoDraw m g s) :=
  .of_cases (monoDraw_cases hc (geom_width hw).1 hl) fun ⟨_, _, t, _, _, e, _⟩ => ⟨t, e⟩

theorem refusedUnless_greyWrite : RefusedUnless (Readable s m.space g m.mir b) (greyWrite b m g s) :=
  .of_cases (greyWrite_cases (geom_width hw) hl) fun ⟨_, _, t, _, _, e, _⟩ => ⟨t, e⟩

theorem refusedUnless_greyDraw : RefusedUnless (Readable s m.space g m.mir b) (greyDraw b m g s) :=
  .of_cases (greyDraw_cases (geom_width hw) hl) fun ⟨_, _, t, _, _, e, _⟩ => ⟨t, e⟩

end

/-- The picture `c`, if there is one, can be read. -/
def PictureReadable (s : State) (c : Option Picture) : Prop := ∀ q, c = some q → q.Readable s

theorem pictureReadable_none (s : State) : PictureReadable s none := fun _ e => by cases e

theorem pictureReadable_some {q : Picture} : PictureReadable s (some q) ↔ q.Readable s := by simp [PictureReadable]

/-- A rectangle command packs a picture where its geometry is not `EMPTY`; otherwise it drops and goes on (R96). -/
theorem refusedUnless_onGeom {o : Option Geom} {k : Geom → State → Out}
    (h : ∀ g, o = some g → RefusedUnless (Readable s m.space g m.mir b) (k g s)) :
    RefusedUnless (PictureReadable s (o.map fun g => ⟨g, m, b⟩)) (onGeom o k s) := by
  cases o with
  | none => exact .inl ⟨pictureReadable_none s, _, rfl⟩
  | some g =>
    rw [Option.map_some, pictureReadable_some]
    exact h g rfl

/-- A 4G command packs a picture where there is a previous plane; otherwise it is reserved and goes on (R172). -/
theorem refusedUnless_needsPrev {c : Option Picture} {k : State → Out} (h : RefusedUnless (PictureReadable s c) (k s)) :
    RefusedUnless (PictureReadable s (if s.panel.hasPrev then c else none)) (needsPrev k s) := by
  unfold needsPrev
  split
  · exact h
  · exact .inl ⟨pictureReadable_none s, _, rfl⟩

/-- A command without a bitmap packs no picture (R76). -/
theorem pictureOf_of_no_source (hi : usesSource i = false) (s : State) : pictureOf i s = none := by
  cases i with
  | clrs | wsb | wsba | rfsh | rfshr | pwroff | hiber => rfl
  | wimg | wimgp | wimg4 | wimgp4 | dimg | dimgp | dimg4 | dimgp4 => cases hi

/-- Every command goes on exactly when the picture it packs can be read, and is otherwise refused for that. -/
theorem refusedUnless_exec (hl : LifeOk s.life) (i : Instr) : RefusedUnless (PictureReadable s (pictureOf i s)) (exec i s) := by
  cases hu : usesSource i with
  | false =>
    obtain ⟨f, -, e⟩ := exec_blind hu
    rw [pictureOf_of_no_source hu]
    exact .inl ⟨pictureReadable_none s, f s, e s⟩
  | true =>
    cases i with
    | clrs | wsb | wsba | rfsh | rfshr | pwroff | hiber => cases hu
    | wimg =>
      rw [exec_wimg]
      exact refusedUnless_onGeom fun g hg => refusedUnless_monoWrite hl (imageGeom_window hg) (imageGeom_columns hg)
    | wimgp =>
      rw [exec_wimgp]
      exact refusedUnless_onGeom fun g hg => refusedUnless_monoWrite hl (partGeom_window hg) (partGeom_columns hg)
    | dimg =>
      rw [exec_dimg]
      exact refusedUnless_onGeom fun g hg => refusedUnless_monoDraw hl (imageGeom_window hg) (imageGeom_columns hg)
    | dimgp =>
      rw [exec_dimgp]
      exact refusedUnless_onGeom fun g hg => refusedUnless_monoDraw hl (partGeom_window hg) (partGeom_columns hg)
    | wimg4 =>
      rw [exec_wimg4]
      exact refusedUnless_needsPrev (refusedUnless_onGeom fun g hg => refusedUnless_greyWrite hl (imageGeom_window hg))
    | wimgp4 =>
      rw [exec_wimgp4]
      exact refusedUnless_needsPrev (refusedUnless_onGeom fun g hg => refusedUnless_greyWrite hl (partGeom_window hg))
    | dimg4 =>
      rw [exec_dimg4]
      exact refusedUnless_needsPrev (refusedUnless_onGeom fun g hg => refusedUnless_greyDraw hl (imageGeom_window hg))
    | dimgp4 =>
      rw [exec_dimgp4]
      exact refusedUnless_needsPrev (refusedUnless_onGeom fun g hg => refusedUnless_greyDraw hl (partGeom_window hg))

/-- Settles O41: an image command drops, is reserved, or packs its picture; any other command has no picture and goes on. -/
theorem onlyUnreadableSourceStops : Obligations.OnlyUnreadableSourceStops := fun i _ hc => (refusedUnless_exec hc.lifeOk i).outcome

/-! ### Which flags a command sets -/

/-- A rectangle refresh that is dropped sends nothing (R96, R191). -/
theorem refreshEvents_of_dropped {q : Rect} (h : refreshDrops p l q = true) : refreshEvents p l q = [] := by
  obtain ⟨hdue, hgeom⟩ : redirectDue l = false ∧ geomRefresh p q = none := by simpa [refreshDrops] using h
  simp [refreshEvents, hdue, hgeom]

theorem againEvents_waits (p : Panel) (l : Life) (q : Plane) (r : Rect) (bytes : List Byte) :
    (againEvents p l (planeStream q r bytes)).countP Event.isWait = 0 := by
  unfold againEvents
  split <;> simp [monoTable_waits]

/-- A command that sets `DROP` waits for nothing: it has no geometry, or only its refresh has none and the rest of it writes. -/
theorem Shape.unwaited_of_dropped (h : Shape p l evs d n) (hd : d = true) : evs.countP Event.isWait = 0 := by
  cases h with
  | nothing => rfl
  | mono | grey | fill | clrs | full | off | sleep => cases hd
  | monoDraw => simp [refreshEvents_of_dropped hd, monoLead_waits, againEvents_waits]
  | greyDraw => simp [refreshEvents_of_dropped hd, greyLead_waits]
  | rect => rw [refreshEvents_of_dropped hd]; rfl

/-- From clear flags such a command sets `DROP`, or a `Wait` of it sets `TIMEOUT`, or neither (R217(5)). -/
theorem Shaped.diag_of_clear (h : Shaped s t) (hs : s.diag = ⟨false, false, false, false⟩) :
    t.diag = ⟨false, false, false, false⟩ ∨ t.diag = ⟨true, false, false, false⟩ ∨ t.diag = ⟨false, true, false, false⟩ := by
  obtain ⟨evs, dropped, hdid, hshape⟩ := h
  have hdrop : t.diag.drop = dropped := by simpa [hs] using hdid.drop
  have hillegal : t.diag.illegal = false := by simpa [hs] using hdid.waits.illegal
  have hbusyWr : t.diag.busyWr = false := by simpa [hs] using hdid.waits.busyWr
  have hdiag : t.diag = ⟨dropped, t.diag.timeout, false, false⟩ := by
    rw [Diag.mk.injEq]
    exact ⟨hdrop, rfl, hillegal, hbusyWr⟩
  rw [hdiag]
  cases dropped with
  | true =>
    have hwaited : Waited 0 s t := hshape.unwaited_of_dropped rfl ▸ hdid.waits
    obtain ⟨htimeout, -⟩ := hwaited.unwaited
    exact .inr (.inl (by rw [htimeout, hs]))
  | false =>
    cases t.diag.timeout with
    | false => exact .inl rfl
    | true => exact .inr (.inr rfl)

/-- Settles O51: a reserved 4G command sets `ILLEGAL` alone; any other has a shape, which waits for nothing where it drops. -/
theorem oneFlagPerCommand : Obligations.OneFlagPerCommand := by
  intro i s t hc hs e
  by_cases hp : i.isFourGrey = true ∧ s.panel.hasPrev = false
  · obtain rfl : setIllegal s = t := Host.Outcome.next.inj ((exec_illegal hp).symm.trans e)
    exact .inr (.inr (.inr ⟨by rw [setIllegal_diag, hs], hp⟩))
  · rcases (shape_exec hc e hp).diag_of_clear hs with h | h | h
    · exact .inl h
    · exact .inr (.inl h)
    · exact .inr (.inr (.inl h))

end Sys2Proof.Machine
end

section
/-! PROOF. Reset and the block at rest: without a host action it waits (O15), and block reset gives every field its reset value (O13). -/

namespace Sys2Proof.Machine

/-! ### The block at rest (R231) -/

theorem step_idle {s : State} (h : s.hostq = []) : step s = .next s := by simp only [step, h]

/-- Settles O15: the host's queue is empty, at reset as well. -/
theorem idleBlockWaits : Obligations.IdleBlockWaits := ⟨fun _ => step_idle, rfl, step_idle rfl⟩

/-! ### Block reset (R230) -/

/-- Aborting a command is block reset over a controller that may have seen a part of it (R230; log 15). -/
theorem abortCommand_eq (v : Word) (b : Bool) (s : State) : ∃ c, abortCommand v b s = blockReset b { s with ctl := c } := by
  unfold abortCommand
  split
  · exact ⟨s.ctl.lose, rfl⟩
  · exact ⟨s.ctl, rfl⟩

/-- Both block resets are `blockReset`; the one between commands finds the controller as it was (R230, R232). -/
theorem step_reset {a : HostAction} {b : Bool} (s : State) (rest : List HostAction) (ha : a = .blockReset b ∨ ∃ v, a = .abortedCommand v b) :
    ∃ c, step { s with hostq := a :: rest } = .next (blockReset b { s with hostq := rest, ctl := c }) ∧
      (∀ b', a = .blockReset b' → b' = b ∧ c = s.ctl) := by
  rcases ha with rfl | ⟨v, rfl⟩
  · exact ⟨s.ctl, rfl, fun _ h => ⟨(HostAction.blockReset.inj h).symm, rfl⟩⟩
  · obtain ⟨c, hc⟩ := abortCommand_eq v b { s with hostq := rest }
    exact ⟨c, congrArg Host.Outcome.next hc, nofun⟩

/-- Settles O13: the block's own fields are those of `resetFor`, and the controller's are `afterBlockReset`'s. -/
theorem blockResetState : Obligations.BlockResetState := by
  intro s a rest b ha
  obtain ⟨c, hstep, hbetween⟩ := step_reset s rest ha
  refine ⟨_, hstep, rfl, rfl, rfl, rfl, rfl, rfl, rfl, rfl, rfl, rfl, rfl, rfl, rfl, rfl, rfl, rfl, rfl, rfl, rfl, rfl, rfl, rfl, rfl, rfl,
    afterBlockReset_byteAt b c, afterBlockReset_loaded b c, fun h => ?_, fun h => ?_⟩
  · obtain ⟨rfl, rfl⟩ := hbetween false h
    exact ⟨rfl, rfl, rfl, rfl, rfl⟩
  · subst h
    rfl

end Sys2Proof.Machine
end

section
/-! PROOF. A source read that races with host stores (O17). -/

namespace Sys2Proof.Machine

variable {s : State} {sp : Space} {tag : ReadTag} {a : Int} {old b : Byte} {n : Nat}

/-- The racing bytes at an address are those of the racing stores to it (R60). -/
theorem mem_racersAt : b ∈ racersAt s sp n ↔ ∃ st ∈ s.racing, st.space = sp ∧ st.addr.toNat = n ∧ st.byte = b := by
  simp [racersAt, and_assoc]

/-- Where a byte is listed, a read picks it or one of the racing bytes (R41, R60). -/
theorem memRead_mem_racers (h0 : 0 ≤ a) (h1 : a < 2 ^ 32) (h : cellGet (s.memory sp) a.toNat = some old) :
    ∃ b, memRead s sp tag a = some b ∧ b ∈ old :: racersAt s sp a.toNat := by
  unfold memRead
  rw [if_pos ⟨h0, h1⟩, h]
  cases racersAt s sp a.toNat with
  | nil => exact ⟨old, rfl, List.mem_cons_self⟩
  | cons r rs =>
    have hpick : Config.racePick s.draws tag.plane tag.row tag.col tag.pixel % (old :: r :: rs).length < _ := Nat.mod_lt _ (Nat.succ_pos _)
    refine ⟨_, rfl, ?_⟩
    rw [List.getD_eq_getElem _ _ hpick]
    exact List.getElem_mem hpick

/-- Settles O17: the racing bytes are those of the racing stores to the address, and there are none where no store races with the read. -/
theorem racingReadOldOrNew : Obligations.RacingReadOldOrNew := by
  intro s sp tag a old h0 h1 h
  obtain ⟨b, hread, hb⟩ := memRead_mem_racers (tag := tag) h0 h1 h
  have hcases : b = old ∨ ∃ st ∈ s.racing, st.space = sp ∧ (st.addr.toNat : Int) = a ∧ st.byte = b := by
    rcases List.mem_cons.mp hb with hold | hnew
    · exact .inl hold
    · obtain ⟨st, hmem, hspace, haddr, hbyte⟩ := mem_racersAt.mp hnew
      exact .inr ⟨st, hmem, hspace, by omega, hbyte⟩
  refine ⟨b, hread, hcases, fun hnone => hcases.resolve_right ?_⟩
  rintro ⟨st, hmem, hspace, haddr, -⟩
  exact hnone st hmem ⟨hspace, haddr⟩

end Sys2Proof.Machine
end

section
/-! PROOF. The first command after block reset (O53): each command completes by its tables, which are read at the mode and flags of block reset. -/

namespace Sys2Proof.Machine

variable {i j k : Instr} {p : Panel} {s : State} {l : Life} {inv mir pgm : Bool} {b : Bpp} {g : Geom}

/-! ### The tables at the mode and flags of block reset -/

/-- `MODE` and the lifecycle flags as block reset leaves them (R29). -/
def resetLife : Life := ⟨.fullRefresh, false, false, true, true, false⟩

theorem life_resetFor (p : Panel) : (State.resetFor p).life = resetLife := rfl

theorem coherent_of_resetLife (hs : s.life = resetLife) : Coherent s := coherent_iff.mpr (by rw [hs]; exact ⟨⟨fun _ => rfl, nofun⟩, nofun⟩)

/-- The first mono write initialises the controller, fills the planes and goes to fast mode (R136, R138, R140). -/
theorem monoLead_resetLife (p : Panel) (stream : List Event) :
    monoLead p resetLife ++ stream = .seq .initFull :: (bothFills p p.initFill ++ .seq .initPart :: stream) := by
  simp [monoLead, preludeEvents, preludeMode, ensureEvents, fillTable, monoTable, resetLife]

/-- The first 4G write initialises the controller, fills the planes and goes to grey mode (R136, R139, R140). -/
theorem greyLead_resetLife (p : Panel) (streams : List Event) :
    greyLead p resetLife ++ streams = .seq .initFull :: (bothFills p p.initFill ++ .seq .initGrey :: streams) := by
  simp [greyLead, preludeEvents, ensureEvents, fillTable, resetLife]

/-- A refresh before the first one has completed is the full one, whatever its rectangle (R191, R215). -/
theorem refresh_of_initialRefresh (h : l.initialRefresh = true) (r : Rect) :
    refreshEvents p l r = fullEvents p l ∧ refreshDrops p l r = false ∧ refreshLife p l r = fullLife p l := by
  have hdue : redirectDue l = true := by simp [redirectDue, h]
  simp [refreshEvents, refreshDrops, refreshLife, hdue]

/-- Power-on and a full update, with their `Wait`s: how a first refresh ends outside grey mode (R143, R190). -/
abbrev firstUpdate : List Event := [.seq .powerOn, .wait .pon, .seq .updateFull, .wait .full]

theorem fullEvents_resetLife (p : Panel) : fullEvents p resetLife = .seq .initFull :: firstUpdate := rfl

/-- A mono write leaves fast mode, which the full refresh after it has to leave (R190). -/
theorem fullEvents_monoLife (p : Panel) : fullEvents p (monoLife resetLife) = .seq .initFull :: firstUpdate := rfl

/-- A 4G write leaves grey mode, in which the full refresh is a greyscale update of the whole plane (R190). -/
theorem fullEvents_greyLife (p : Panel) :
    fullEvents p (greyLife resetLife) = [.seq .powerOn, .wait .pon, .window (planeRect p), .seq .updateGrey, .wait .grey] := rfl

theorem fullLife_resetLife (p : Panel) : fullLife p resetLife = ⟨.fullRefresh, true, false, true, false, true⟩ := rfl

theorem fullLife_monoLife (p : Panel) : fullLife p (monoLife resetLife) = ⟨.fullRefresh, true, false, false, false, true⟩ := rfl

theorem fullLife_greyLife (p : Panel) : fullLife p (greyLife resetLife) = ⟨.greyRefresh, true, false, false, false, true⟩ := rfl

/-- The second write of a mono draw in full mode loads the partial LUT again (R138, R192). -/
theorem againEvents_of_full (h : l.mode = .fullRefresh) (stream : List Event) :
    againEvents p l stream = if p.diffUpdate && p.hasPrev then .seq .initPart :: stream else [] := by
  simp [againEvents, h, monoTable]

theorem againLife_of_full (h : l.mode = .fullRefresh) :
    againLife p l = { l with mode := if p.diffUpdate && p.hasPrev then .fastRefresh else .fullRefresh } := by
  unfold againLife
  split
  · rw [h]; rfl
  · rw [← h]

/-! ### The image commands -/

/-- A command that finds its geometry whole or as a part completes as each of the two does. -/
theorem Completes.of_image_or_part {evs : List Event} {d : Bool} {image part : Option Geom}
    (hi : (i = j ∧ image = some g) ∨ (i = k ∧ part = some g)) (himage : image = some g → Completes j s evs d l)
    (hpart : part = some g → Completes k s evs d l) : Completes i s evs d l := by
  rcases hi with ⟨rfl, hg⟩ | ⟨rfl, hg⟩
  · exact himage hg
  · exact hpart hg

theorem Completes.of_dropped (h : exec i s = .next (setDrop s)) : Completes i s [] true s.life := ⟨_, h, did_setDrop s, rfl⟩

section

variable (hs : s.life = resetLife) (hquiet : s.racing = [])
include hs hquiet

theorem completes_first_monoWrite
    (hi : (i = .wimg inv mir pgm ∧ imageGeom s = some g) ∨ (i = .wimgp inv mir pgm ∧ partGeom s 8 = some g))
    (hr : Readable s (spaceOf pgm) g mir .one) :
    Completes i s
      (.seq .initFull :: (bothFills s.panel s.panel.initFill ++
        .seq .initPart :: planeStream .cur g.rect (monoPixels s ⟨inv, mir, spaceOf pgm⟩ g)))
      false ⟨.fastRefresh, false, false, false, true, true⟩ := by
  obtain ⟨-, -, himage, -, hpart⟩ := monoWriteResult s inv mir pgm (coherent_of_resetLife hs)
  rw [hs] at himage hpart
  rw [← monoLead_resetLife]
  exact .of_image_or_part hi (fun hg => himage g hg hr hquiet) (fun hg => hpart g hg hr hquiet)

theorem completes_first_greyWrite (hp : s.panel.hasPrev = true)
    (hi : (i = .wimg4 b inv mir pgm ∧ imageGeom s = some g) ∨ (i = .wimgp4 b inv mir pgm ∧ partGeom s (unitOf b) = some g))
    (hr : Readable s (spaceOf pgm) g mir b) :
    Completes i s
      (.seq .initFull :: (bothFills s.panel s.panel.initFill ++ .seq .initGrey ::
        (planeStream .cur g.rect (greyPixels s .cur b ⟨inv, mir, spaceOf pgm⟩ g) ++
          planeStream .prev g.rect (greyPixels s .prev b ⟨inv, mir, spaceOf pgm⟩ g))))
      false ⟨.greyRefresh, false, false, false, true, true⟩ := by
  obtain ⟨-, -, htwo⟩ := greyWriteResult s b inv mir pgm (coherent_of_resetLife hs)
  obtain ⟨-, himage, -, hpart⟩ := htwo hp
  rw [hs] at himage hpart
  rw [← greyLead_resetLife]
  exact .of_image_or_part hi (fun hg => himage g hg hr hquiet) (fun hg => hpart g hg hr hquiet)

theorem completes_first_monoDraw
    (hi : (i = .dimg inv mir pgm ∧ imageGeom s = some g) ∨ (i = .dimgp inv mir pgm ∧ partGeom s 8 = some g))
    (hr : Readable s (spaceOf pgm) g mir .one) :
    Completes i s
      (.seq .initFull :: (bothFills s.panel s.panel.initFill ++
          .seq .initPart :: planeStream .cur g.rect (monoPixels s ⟨inv, mir, spaceOf pgm⟩ g)) ++
        .seq .initFull :: firstUpdate ++
        if s.panel.diffUpdate && s.panel.hasPrev then
          .seq .initPart :: planeStream .prev g.rect (monoPixels s ⟨inv, mir, spaceOf pgm⟩ g) else [])
      false
      ⟨if s.panel.diffUpdate && s.panel.hasPrev then .fastRefresh else .fullRefresh, true, false, false, false, true⟩ := by
  obtain ⟨-, -, himage, -, hpart⟩ := monoDrawResult s inv mir pgm (coherent_of_resetLife hs)
  obtain ⟨hevents, hdrops, hlife⟩ := refresh_of_initialRefresh (p := s.panel) (l := monoLife resetLife) rfl s.rect
  rw [hs, hevents, hdrops, hlife, fullEvents_monoLife, fullLife_monoLife, againLife_of_full rfl] at himage hpart
  simp only [againEvents_of_full] at himage hpart
  rw [← monoLead_resetLife]
  exact .of_image_or_part hi (fun hg => himage g hg hr hquiet) (fun hg => hpart g hg hr hquiet)

theorem completes_first_greyDraw (hp : s.panel.hasPrev = true)
    (hi : (i = .dimg4 b inv mir pgm ∧ imageGeom s = some g) ∨ (i = .dimgp4 b inv mir pgm ∧ partGeom s (unitOf b) = some g))
    (hr : Readable s (spaceOf pgm) g mir b) :
    Completes i s
      (.seq .initFull :: (bothFills s.panel s.panel.initFill ++ .seq .initGrey ::
          (planeStream .cur g.rect (greyPixels s .cur b ⟨inv, mir, spaceOf pgm⟩ g) ++
            planeStream .prev g.rect (greyPixels s .prev b ⟨inv, mir, spaceOf pgm⟩ g))) ++
        [.seq .powerOn, .wait .pon, .window (planeRect s.panel), .seq .updateGrey, .wait .grey])
      false ⟨.greyRefresh, true, false, false, false, true⟩ := by
  obtain ⟨-, -, htwo⟩ := greyDrawResult s b inv mir pgm (coherent_of_resetLife hs)
  obtain ⟨-, himage, -, hpart⟩ := htwo hp
  obtain ⟨hevents, hdrops, hlife⟩ := refresh_of_initialRefresh (p := s.panel) (l := greyLife resetLife) rfl s.rect
  rw [hs, hevents, hdrops, hlife, fullEvents_greyLife, fullLife_greyLife] at himage hpart
  rw [← greyLead_resetLife]
  exact .of_image_or_part hi (fun hg => himage g hg hr hquiet) (fun hg => hpart g hg hr hquiet)

end

/-! ### The commands without a bitmap -/

section

variable (hs : s.life = resetLife)
include hs

theorem completes_first_rfshr : Completes .rfshr s (.seq .initFull :: firstUpdate) false ⟨.fullRefresh, true, false, true, false, true⟩ := by
  have h := completes_rfshr (coherent_of_resetLife hs).lifeOk
  obtain ⟨hevents, hdrops, hlife⟩ := refresh_of_initialRefresh (p := s.panel) (l := resetLife) rfl s.rect
  rwa [hs, hevents, hdrops, hlife, fullEvents_resetLife, fullLife_resetLife] at h

/-- `RFSH FULL` and `RFSH PART` do as `RFSHR` does: all three are the full refresh (R215). -/
theorem completes_first_rfsh (par : Bool) :
    Completes (.rfsh par) s (.seq .initFull :: firstUpdate) false ⟨.fullRefresh, true, false, true, false, true⟩ := by
  obtain ⟨-, -, hredirected⟩ := rfshrResult s (coherent_of_resetLife hs)
  obtain ⟨hfull, hpart⟩ := hredirected (.inl (congrArg Life.initialRefresh hs))
  have hrfsh : exec (.rfsh par) s = exec .rfshr s := by
    cases par with
    | false => exact hfull.symm
    | true => exact hpart.trans hfull.symm
  obtain ⟨t, e, hdid, hlife⟩ := completes_first_rfshr hs
  exact ⟨t, hrfsh.trans e, hdid, hlife⟩

/-- Power is off already, so `HIBER` only puts to sleep what a reset line can wake (R201). -/
theorem completes_first_hiber :
    (s.panel.hasReset = true → Completes .hiber s [.seq .deepSleep] false ⟨.fullRefresh, false, true, true, true, false⟩) ∧
    (s.panel.hasReset = false → Completes .hiber s [] false s.life) := by
  have h := completes_hiber s
  rw [hs] at h ⊢
  refine ⟨fun hr => ?_, fun hr => ?_⟩
  · simpa [hiberEvents, hiberLife, powerOffEvents, resetLife, hr] using h
  · simpa [hiberEvents, hiberLife, powerOffEvents, powerOffLife, resetLife, hr] using h

end

/-- Settles O53: every command completes by its table, here at the mode and flags of block reset, where each first-time flag is due. -/
theorem firstCommandAfterReset : Obligations.FirstCommandAfterReset := by
  intro s v b inv mir pgm par hreset hquiet p m fills full mono grey again second
  have hs : s.life = resetLife := hreset.trans (life_resetFor p)
  have hl : LifeOk s.life := (coherent_of_resetLife hs).lifeOk
  have hwsb := completes_wsb v hl
  have hwsba := completes_wsba v hl
  have hclrs := completes_clrs v hl
  rw [hs] at hwsb hwsba hclrs
  have hpwroff : Completes .pwroff s [] false s.life := by
    have h := completes_pwroff s
    rw [hs] at h ⊢
    exact h
  obtain ⟨hsleep, hstay⟩ := completes_first_hiber hs
  obtain ⟨himage, hpart, hpart4, -⟩ := emptyRectangleDoesNothing s inv mir pgm b
  refine ⟨hwsb, hwsba, hclrs, fun g i hi hr => completes_first_monoWrite hs hquiet hi hr,
    fun g i hp hi hr => completes_first_greyWrite hs hquiet hp hi hr, fun g i hi hr => completes_first_monoDraw hs hquiet hi hr,
    fun g i hp hi hr => completes_first_greyDraw hs hquiet hp hi hr, fun h => ?_, fun h => ?_, fun h hp => ?_,
    completes_first_rfsh hs par, completes_first_rfshr hs, hpwroff, hsleep, hstay⟩
  · obtain ⟨hwimg, hdimg, htwo⟩ := himage h
    refine ⟨.of_dropped hwimg, .of_dropped hdimg, fun hp => ?_⟩
    obtain ⟨hwimg4, hdimg4⟩ := htwo hp
    exact ⟨.of_dropped hwimg4, .of_dropped hdimg4⟩
  · obtain ⟨hwimgp, hdimgp⟩ := hpart h
    exact ⟨.of_dropped hwimgp, .of_dropped hdimgp⟩
  · obtain ⟨hwimgp4, hdimgp4⟩ := hpart4 h hp
    exact ⟨.of_dropped hwimgp4, .of_dropped hdimgp4⟩

end Sys2Proof.Machine
end
